-- ==== Sys2Proof/Word.lean ====
section
/-! DEFINITION. The word types of the block and their plainest arithmetic (00_scope.md R11, R12). -/

namespace Sys2Proof

/-- One byte: a register of the peripheral, a bus address, a channel field (R11). -/
abbrev Byte := BitVec 8

/-- A 16-bit value: the type of an on or off counter (R11). -/
abbrev Half := BitVec 16

/-- A 32-bit value: a command word, a frequency in Hz, a binary32 pattern, RESULT (R11, R90). -/
abbrev Word := BitVec 32

/-- `clamp(lo, hi, v) = min(hi, max(lo, v))` over the integers (00_scope.md R13). -/
def clamp (lo hi v : Int) : Int := min hi (max lo v)

end Sys2Proof
end

