-- ==== Sys2Proof/Syntax.lean ====
section
/-! DEFINITION. The command set: one constructor for each row of the opcode map (30_encoding.md R94), with the
operands of its format (R93) as they stand in the command's words (R91, R92). -/

namespace Sys2Proof

/-- A command of the block. A channel is the 8-bit index as written, 0 to 255; a duty is a binary32 pattern;
a batch carries its elements, so N is the length of the list. -/
inductive Instr
  /-- COMPUTE_PRESCALE, format F. -/
  | computePrescale (freq : Word)
  /-- COMPUTE_TIMING, format D. -/
  | computeTiming (duty : Word)
  /-- INITIALIZE, format Z. -/
  | initializeDevice
  /-- SET_FREQUENCY, format F. -/
  | setFrequency (freq : Word)
  /-- SLEEP, format Z. -/
  | sleep
  /-- WAKEUP, format Z. -/
  | wakeup
  /-- DEINITIALIZE, format Z. -/
  | deinitialize
  /-- DESTROY, format Z. -/
  | destroy
  /-- SET_DUTY_CYCLE, format CD. -/
  | setDutyCycle (ch : Byte) (duty : Word)
  /-- START, format C. -/
  | start (ch : Byte)
  /-- STOP, format C. -/
  | stop (ch : Byte)
  /-- CONFIGURE_CHANNEL, format CFD. -/
  | configureChannel (ch : Byte) (freq duty : Word)
  /-- START_MULTIPLE, format B. -/
  | startMultiple (chs : List Byte)
  /-- STOP_MULTIPLE, format B. -/
  | stopMultiple (chs : List Byte)
  /-- SET_DUTY_CYCLE_MULTIPLE, format BD. -/
  | setDutyCycleMultiple (elems : List (Byte × Word))
  /-- SET_PHASE, format C. -/
  | setPhase (ch : Byte)
  /-- CONFIGURE_FADE, format C. -/
  | configureFade (ch : Byte)
  /-- START_FADE, format C. -/
  | startFade (ch : Byte)
  /-- CONFIGURE_COMPLEMENTARY, format C. -/
  | configureComplementary (ch : Byte)
  /-- SET_DEAD_TIME, format C. -/
  | setDeadTime (ch : Byte)
  /-- REGISTER_CALLBACK, format C. -/
  | registerCallback (ch : Byte)
  deriving DecidableEq, Repr

end Sys2Proof
end

