-- ==== Sys2Proof/WellFormed.lean ====
section
/-! DEFINITION. Which commands can be written as words: a batch's element count N is an 8-bit field
(30_encoding.md R91), so a batch has at most 255 elements. Every other operand fits its field by its type. -/

namespace Sys2Proof

/-- The largest element count a header word can hold (R91: N is 0 to 255). -/
def maxBatch : Nat := 255

/-- The command's element count fits the N field. -/
def Instr.wellFormed : Instr → Bool
  | .startMultiple chs => chs.length ≤ maxBatch
  | .stopMultiple chs => chs.length ≤ maxBatch
  | .setDutyCycleMultiple elems => elems.length ≤ maxBatch
  | .computePrescale _ | .computeTiming _ | .initializeDevice | .setFrequency _ | .sleep | .wakeup
  | .deinitialize | .destroy | .setDutyCycle _ _ | .start _ | .stop _ | .configureChannel _ _ _
  | .setPhase _ | .configureFade _ | .startFade _ | .configureComplementary _ | .setDeadTime _
  | .registerCallback _ => true

end Sys2Proof
end

