-- ==== Sys2Proof/Decode.lean ====
section
/-! DEFINITION. Decoding of the host's command stream, total on every word sequence (30_encoding.md R90 to R98),
and after it the encoder, written from the same tables. -/

namespace Sys2Proof

/-! ## The opcode table (R93 to R95) -/

/-- The command formats (R93). -/
inductive Format
  | z | f | d | c | cd | cfd | b | bd
  deriving DecidableEq, Repr

/-- The assigned opcodes, one for each row of R94. -/
inductive Opcode
  | computePrescale | computeTiming
  | initializeDevice | setFrequency | sleep | wakeup | deinitialize | destroy
  | setDutyCycle | start | stop | configureChannel
  | startMultiple | stopMultiple | setDutyCycleMultiple
  | setPhase | configureFade | startFade | configureComplementary | setDeadTime | registerCallback
  deriving DecidableEq, Repr

/-- One row of the opcode map: the opcode, its OPC byte and its format (R94). -/
structure OpRow where
  op : Opcode
  code : Byte
  format : Format
  deriving DecidableEq, Repr

/-- The opcode map of R94. -/
def opcodeTable : List OpRow :=
  [⟨.computePrescale, 0x01, .f⟩, ⟨.computeTiming, 0x02, .d⟩,
   ⟨.initializeDevice, 0x10, .z⟩, ⟨.setFrequency, 0x11, .f⟩, ⟨.sleep, 0x12, .z⟩, ⟨.wakeup, 0x13, .z⟩,
   ⟨.deinitialize, 0x14, .z⟩, ⟨.destroy, 0x1F, .z⟩,
   ⟨.setDutyCycle, 0x20, .cd⟩, ⟨.start, 0x21, .c⟩, ⟨.stop, 0x22, .c⟩, ⟨.configureChannel, 0x23, .cfd⟩,
   ⟨.startMultiple, 0x30, .b⟩, ⟨.stopMultiple, 0x31, .b⟩, ⟨.setDutyCycleMultiple, 0x32, .bd⟩] ++
  [⟨.setPhase, 0x40, .c⟩, ⟨.configureFade, 0x41, .c⟩, ⟨.startFade, 0x42, .c⟩,
   ⟨.configureComplementary, 0x43, .c⟩, ⟨.setDeadTime, 0x44, .c⟩, ⟨.registerCallback, 0x45, .c⟩]

/-- How many argument words a command has, from its format and N alone (R93). -/
def Format.argWords (fmt : Format) (n : Nat) : Nat :=
  match fmt with
  | .z | .c => 0
  | .f | .d | .cd => 1
  | .cfd => 2
  | .b => n
  | .bd => 2 * n

/-- The header mask of a format (R95). -/
def Format.mask : Format → Word
  | .z | .f | .d => 0xFFFFFFFF
  | .c | .cd | .cfd => 0xFF00FFFF
  | .b | .bd => 0xFFFF00FF

/-- Whether the format reads the N field (R93, R98). -/
def Format.isBatch : Format → Bool
  | .b | .bd => true
  | .z | .f | .d | .c | .cd | .cfd => false

/-- The header value a row matches: `OPC << 24` (R95). -/
def OpRow.pattern (r : OpRow) : Word := r.code.setWidth 32 <<< 24

/-- A header word selects a row when `(W0 & mask) == match` (R95). -/
def OpRow.selects (r : OpRow) (w0 : Word) : Bool := w0 &&& r.format.mask == r.pattern

/-! ## Fields of the header word and of a channel element word (R91, R92) -/

/-- OPC, bits 31:24. -/
def opcField (w0 : Word) : Byte := w0.extractLsb' 24 8
/-- CH, bits 23:16. -/
def chField (w0 : Word) : Byte := w0.extractLsb' 16 8
/-- N, bits 15:8. -/
def nField (w0 : Word) : Byte := w0.extractLsb' 8 8
/-- The channel index of a CHW word, bits 7:0. -/
def chwIndex (w : Word) : Byte := w.extractLsb' 0 8
/-- A CHW word's bits 31:8 are reserved and must be 0. -/
def chwReservedClear (w : Word) : Bool := w.extractLsb' 8 24 == 0

/-- The row with the header's OPC, if the OPC is assigned (R98). -/
def lookupRow (w0 : Word) : Option OpRow := opcodeTable.find? fun r => r.code == opcField w0

/-- The element count the decoder uses for the length: N in a batch format, 0 in the others (R98). -/
def elementCount (r : OpRow) (w0 : Word) : Nat := if r.format.isBatch then (nField w0).toNat else 0

/-- How many words follow the header (R98). -/
def argWordsOf (r : OpRow) (w0 : Word) : Nat := r.format.argWords (elementCount r w0)

/-- The command's length in words, from its header alone; an unassigned OPC has length 1 (R96, R98). -/
def commandLength (w0 : Word) : Nat :=
  match lookupRow w0 with
  | none => 1
  | some r => 1 + argWordsOf r w0

/-! ## Operands from argument words -/

/-- The channels of a format B command, if no CHW has a reserved bit set. -/
def batchChannels : List Word → Option (List Byte)
  | [] => some []
  | w :: ws => if chwReservedClear w then (batchChannels ws).map (chwIndex w :: ·) else none

/-- The (channel, duty) pairs of a format BD command, if no CHW has a reserved bit set. -/
def batchPairs : List Word → Option (List (Byte × Word))
  | [] => some []
  | [_] => none
  | w :: d :: ws => if chwReservedClear w then (batchPairs ws).map ((chwIndex w, d) :: ·) else none

/-- The command of an opcode with header `w0` and its argument words; none if a CHW has a reserved bit set
(or the argument words are not as many as the format has, which `decode` never passes). -/
def buildInstr (op : Opcode) (w0 : Word) (args : List Word) : Option Instr :=
  match op, args with
  | .computePrescale, [f] => some (.computePrescale f)
  | .computeTiming, [d] => some (.computeTiming d)
  | .initializeDevice, [] => some .initializeDevice
  | .setFrequency, [f] => some (.setFrequency f)
  | .sleep, [] => some .sleep
  | .wakeup, [] => some .wakeup
  | .deinitialize, [] => some .deinitialize
  | .destroy, [] => some .destroy
  | .setDutyCycle, [d] => some (.setDutyCycle (chField w0) d)
  | .start, [] => some (.start (chField w0))
  | .stop, [] => some (.stop (chField w0))
  | .configureChannel, [f, d] => some (.configureChannel (chField w0) f d)
  | .startMultiple, ws => (batchChannels ws).map .startMultiple
  | .stopMultiple, ws => (batchChannels ws).map .stopMultiple
  | .setDutyCycleMultiple, ws => (batchPairs ws).map .setDutyCycleMultiple
  | .setPhase, [] => some (.setPhase (chField w0))
  | .configureFade, [] => some (.configureFade (chField w0))
  | .startFade, [] => some (.startFade (chField w0))
  | .configureComplementary, [] => some (.configureComplementary (chField w0))
  | .setDeadTime, [] => some (.setDeadTime (chField w0))
  | .registerCallback, [] => some (.registerCallback (chField w0))
  | _, _ => none

/-! ## The decoder (R98) -/

/-- Why an encoding selects no command (R96). -/
inductive RejectReason
  /-- Case 1: the OPC is not in R94. -/
  | unassignedOpcode
  /-- Case 2: RSV, an unused CH or an unused N is not 0. -/
  | reservedHeaderBits
  /-- Case 2: a CHW has a nonzero bit in 31:8. -/
  | reservedElementBits
  deriving DecidableEq, Repr

/-- What the decoder makes of the head of the stream. -/
inductive Decoded
  /-- The stream ends before the command's last word: the block waits (R98). -/
  | incomplete
  /-- The words select no command; `rest` is the stream after them (R96). -/
  | reject (why : RejectReason) (rest : List Word)
  /-- A command; `rest` is the stream after its words. -/
  | command (i : Instr) (rest : List Word)
  deriving DecidableEq, Repr

/-- `Decode()` of R98, on the words the host has sent. -/
def decode : List Word → Decoded
  | [] => .incomplete
  | w0 :: ws =>
    match lookupRow w0 with
    | none => .reject .unassignedOpcode ws
    | some r =>
      let len := argWordsOf r w0
      if ws.length < len then .incomplete
      else if r.selects w0 then
        match buildInstr r.op w0 (ws.take len) with
        | some i => .command i (ws.drop len)
        | none => .reject .reservedElementBits (ws.drop len)
      else .reject .reservedHeaderBits (ws.drop len)

/-! ## The encoder (R91 to R94) -/

/-- A header word from its OPC, CH and N fields, RSV being 0 (R91). -/
def headerWord (code ch n : Byte) : Word :=
  code.setWidth 32 <<< 24 ||| ch.setWidth 32 <<< 16 ||| n.setWidth 32 <<< 8

/-- A CHW word (R92). -/
def chwWord (ch : Byte) : Word := ch.setWidth 32

/-- The element count of a batch as the N field. -/
def countByte (n : Nat) : Byte := BitVec.ofNat 8 n

/-- The argument words of a BD batch: CHW, DUTY in pairs (R93). -/
def pairWords : List (Byte × Word) → List Word
  | [] => []
  | e :: es => chwWord e.1 :: e.2 :: pairWords es

/-- The words of a command (R99 gives the formats' examples). -/
def encode : Instr → List Word
  | .computePrescale f => [headerWord 0x01 0 0, f]
  | .computeTiming d => [headerWord 0x02 0 0, d]
  | .initializeDevice => [headerWord 0x10 0 0]
  | .setFrequency f => [headerWord 0x11 0 0, f]
  | .sleep => [headerWord 0x12 0 0]
  | .wakeup => [headerWord 0x13 0 0]
  | .deinitialize => [headerWord 0x14 0 0]
  | .destroy => [headerWord 0x1F 0 0]
  | .setDutyCycle c d => [headerWord 0x20 c 0, d]
  | .start c => [headerWord 0x21 c 0]
  | .stop c => [headerWord 0x22 c 0]
  | .configureChannel c f d => [headerWord 0x23 c 0, f, d]
  | .startMultiple chs => headerWord 0x30 0 (countByte chs.length) :: chs.map chwWord
  | .stopMultiple chs => headerWord 0x31 0 (countByte chs.length) :: chs.map chwWord
  | .setDutyCycleMultiple es => headerWord 0x32 0 (countByte es.length) :: pairWords es
  | .setPhase c => [headerWord 0x40 c 0]
  | .configureFade c => [headerWord 0x41 c 0]
  | .startFade c => [headerWord 0x42 c 0]
  | .configureComplementary c => [headerWord 0x43 c 0]
  | .setDeadTime c => [headerWord 0x44 c 0]
  | .registerCallback c => [headerWord 0x45 c 0]

/-! ## The host's table words -/

/-- The words of the command whose bits, numbered as spec/opcode_table.json numbers them (bit 0 the least
significant bit of the header word, later words counting on), are the low `nbits` bits of `w`, every bit above
them 0: as many words as the header says. -/
def tableWords (nbits w : Nat) : List Word :=
  let v := w % 2 ^ nbits
  (List.range (commandLength (BitVec.ofNat 32 v))).map fun k => BitVec.ofNat 32 (v >>> (32 * k))

/-- The command the decoder reads from those words; none where it refuses. -/
def decodeTableWord (nbits w : Nat) : Option Instr :=
  match decode (tableWords nbits w) with
  | .command i _ => some i
  | .incomplete | .reject _ _ => none

end Sys2Proof
end

