-- ==== Sys2Proof/Config.lean ====
section
/-! DEFINITION. What an implementation fixes: the document's constants (00_scope.md R9), the open parameters
(R10), and the free values. A free value is an opaque constant with no body: nothing proves a value of it. -/

namespace Sys2Proof

/-! ## The document's constants (00_scope.md R9, 20_memory.md R52) -/

/-- OSC_FREQ in Hz. -/
def oscFreq : Nat := 25000000
/-- PERIOD_TICKS, the divisor of the prescale formula. -/
def periodTicks : Nat := 4096
/-- PRESCALE_MIN. -/
def prescaleMin : Nat := 3
/-- PRESCALE_MAX. -/
def prescaleMax : Nat := 255
/-- FREQ_MIN_HZ. -/
def freqMinHz : Nat := 24
/-- FREQ_MAX_HZ. -/
def freqMaxHz : Nat := 1526
/-- COUNTER_MAX, the largest 12-bit counter value. -/
def counterMax : Nat := 4095
/-- CHANNEL_COUNT. -/
def channelCount : Nat := 16
/-- DEFAULT_I2C_ADDRESS. -/
def defaultI2cAddress : Byte := 0x40
/-- GENERAL_CALL_ADDRESS. -/
def generalCallAddress : Byte := 0x00
/-- RESET_PAYLOAD, first byte then second. -/
def resetPayload : List Byte := [0x00, 0x06]
/-- SETTLE_US: the settle delay in microseconds, a minimum. -/
def settleUs : Nat := 500

/-- MODE1's register address (R52). -/
def regMode1 : Byte := 0x00
/-- MODE2's register address (R52). -/
def regMode2 : Byte := 0x01
/-- PRE_SCALE's register address (R52). -/
def regPreScale : Byte := 0xFE

/-! ## The open parameters (00_scope.md R10) -/

/-- OUTPUT_DRIVER_MODE, the two electrical output-driver modes (R10, R16). -/
inductive OutputDriverMode
  | totemPole | openDrain
  deriving DecidableEq, Repr

/-- DUTY_PRODUCT_ARITH, the precision in which `duty * 4095` is formed (R10, 42_timing_mapper.md R132). -/
inductive DutyProductArith
  | exact | binary32
  deriving DecidableEq, Repr

/-- The parameters of R10 that a rule reads. They are arguments of the model: no command writes them. -/
structure Params where
  /-- DEFAULT_FREQUENCY_HZ, an integer in [24, 1526]. -/
  defaultFrequencyHz : { f : Nat // freqMinHz ≤ f ∧ f ≤ freqMaxHz }
  /-- OUTPUT_DRIVER_MODE. -/
  outputDriverMode : OutputDriverMode
  /-- DUTY_PRODUCT_ARITH. -/
  dutyProductArith : DutyProductArith
  /-- The position of the one bit of MODE1_SLEEP_MASK. -/
  mode1SleepBit : Fin 8
  /-- The position of the one bit of MODE2_OUTDRV_MASK. -/
  mode2OutdrvBit : Fin 8
  deriving DecidableEq, Repr

/-- MODE1_SLEEP_MASK: "one bit of MODE1" (R10, 20_memory.md R55). -/
def Params.sleepMask (p : Params) : Byte := BitVec.ofNat 8 (2 ^ p.mode1SleepBit.val)

/-- MODE2_OUTDRV_MASK: one bit of MODE2 (R10, 20_memory.md R56). -/
def Params.outdrvMask (p : Params) : Byte := BitVec.ofNat 8 (2 ^ p.mode2OutdrvBit.val)

/-! ## The environment's answers (20_memory.md R59 to R61) -/

/-- What the environment supplies for one transaction: OK with the byte a read returns (any other
transaction ignores the byte), FAIL, or no answer at all. -/
inductive Answer
  | ok (b : Byte)
  | fail
  | hang
  deriving DecidableEq, Repr, Inhabited

/-! ## Free values -/

/-- DEFAULT_FREQUENCY_HZ less 24: any of the 1503 values (92 D12: OPEN, no default). -/
opaque Config.defaultFrequencyOffset : Fin 1503

/-- Which of the two driver modes INITIALIZE selects (92 D13: OPEN, no default). -/
opaque Config.totemPoleSelected : Bool

/-- STATUS before the first command (93 U14: any value). -/
opaque Config.statusAtReset : Byte

/-- RESULT before the first command (93 U14: any value). -/
opaque Config.resultAtReset : Word

/-- The environment's answer to the draw of a given number, where no answer was supplied as input: "draws,
under no law" (20_memory.md R59; 93 U1 to U3). -/
opaque Config.freeAnswer : Nat → Answer

/-- DEFAULT_FREQUENCY_HZ of this machine: an open integer in [24, 1526]. -/
def Config.defaultFrequencyHz : { f : Nat // freqMinHz ≤ f ∧ f ≤ freqMaxHz } :=
  ⟨freqMinHz + Config.defaultFrequencyOffset.val, by
    have := Config.defaultFrequencyOffset.isLt
    simp only [freqMinHz, freqMaxHz]; omega⟩

/-- OUTPUT_DRIVER_MODE of this machine: open. -/
def Config.outputDriverMode : OutputDriverMode :=
  if Config.totemPoleSelected then .totemPole else .openDrain

/-- The parameters of this machine: R10's default where it gives one, a free value where it says OPEN. -/
def Config.params : Params where
  defaultFrequencyHz := Config.defaultFrequencyHz
  outputDriverMode := Config.outputDriverMode
  dutyProductArith := .exact
  mode1SleepBit := 4
  mode2OutdrvBit := 2

end Sys2Proof
end

