-- ==== Sys2Proof/Machine/State.lean ====
section
/-! DEFINITION. The state of the block as plain data (10_state.md), the events of its trace (43_device_sequencer.md
R150), the reasons it stops, construction, and the reset state (R39, 70_reset_and_hazards.md R240). -/

namespace Sys2Proof.Machine

/-! ## Parts of the state -/

/-- `dsm_state`, the Device State Machine's state (R17, R29). -/
inductive DsmState
  | uninit | resetting | awake | asleep | deinit | destroyed
  deriving DecidableEq, Repr

/-- DeviceConfig (R23 to R28). -/
structure DeviceConfig where
  /-- R23: the bus address of the peripheral. -/
  i2cAddress : Byte
  /-- R24: no rule reads it. -/
  outputEnablePin : Option Int
  /-- R25. -/
  transportPresent : Bool
  /-- R26. -/
  initialized : Bool
  /-- R27: uint32. -/
  currentFrequencyHz : Word
  /-- R28: uint8. -/
  prescale : Byte
  deriving DecidableEq, Repr

/-- A ChannelRecord of the Channel Store (R32). The counters are uint16 with values in [0, 4095]: the range is an
invariant, not part of the type. -/
structure ChannelRecord where
  active : Bool
  /-- The binary32 pattern of the duty cycle, as given. -/
  dutyCycle : Word
  onCount : Half
  offCount : Half
  deriving DecidableEq, Repr

/-- A pair of on and off counters, as the Timing Mapper produces it (42_timing_mapper.md R130). -/
structure Timing where
  on : Half
  off : Half
  deriving DecidableEq, Repr

/-- The events a command emits (R150), with the spec's names; `dev` is the bus address the call carries. -/
inductive Event
  /-- transport Initialize(). -/
  | TI
  /-- transport Deinitialize(). -/
  | TD
  /-- the general-call reset, Write(0x00, [0x00, 0x06], 2). -/
  | GC
  /-- WriteRead(dev, [reg], 1, in, 1). -/
  | RD (dev reg : Byte)
  /-- Write(dev, [reg, val], 2). -/
  | WR (dev reg val : Byte)
  /-- a blocking wait of at least `us` microseconds. -/
  | DLY (us : Nat)
  deriving DecidableEq, Repr

/-- What became of an event: it completed, it completed with a byte (a read), it failed, or it never returned. -/
inductive Reply
  | done
  | byte (b : Byte)
  | failed
  | unanswered
  deriving DecidableEq, Repr

/-- One entry of the trace: an event and its reply (`RD(r) -> b`, `WR(r, v) FAIL` of R150). -/
structure Entry where
  event : Event
  reply : Reply
  deriving DecidableEq, Repr

/-! ## The state -/

/-- The whole state of one driver instance with its inputs. INVENTORY.md names the rule of every field. -/
structure State where
  /-- The parameters of 00_scope.md R10; no command writes them. -/
  params : Params
  /-- DeviceConfig. -/
  cfg : DeviceConfig
  /-- `dsm_state`. -/
  dsmState : DsmState
  /-- R22: the step being executed inside a command; no value between commands. -/
  pc : Option Nat
  /-- STATUS (R31). -/
  status : Byte
  /-- RESULT (R31). -/
  result : Word
  /-- The words of the last response: STATUS, then RESULT where the command yields one (30_encoding.md R97). -/
  response : List Word
  /-- The Channel Store `ch[0..15]` (R32). -/
  channels : Vector ChannelRecord 16
  /-- Every event of every command so far, oldest first (20_memory.md R73). -/
  trace : List Entry
  /-- Input: the words the host has sent and the block has not read (30_encoding.md R90). -/
  stream : List Word
  /-- Input: the host sent a command before the previous one was answered (70 R249). -/
  hostOverlap : Bool
  /-- Input: the environment's next answers (20_memory.md R59). -/
  answers : List Answer
  /-- The model's own: how many answers have been drawn, the argument of the free values. -/
  draws : Nat
  deriving DecidableEq, Repr

/-! ## Why a step does not complete -/

/-- Stuck states: the spec gives the block no completing step. Both are safe: no claim about a later command holds. -/
inductive Fault
  /-- Raised by `step`: the host's stream ends before the command's last word, so the block waits
  (30_encoding.md R98; 93 U11 "stuck"). Safe. -/
  | awaitingWord
  /-- Raised by any command: a transaction never returned, so the command never ends (20_memory.md R61, 70 R248;
  93 U2 "hang is stuck"). `stuck` is the state it hangs in, its trace ending in the unanswered event. Safe. -/
  | transportHang (stuck : State)
  deriving DecidableEq, Repr

/-- Runs the spec gives no meaning. -/
inductive Refusal
  /-- Raised by `exec` for an instruction that has no meaning yet, by its mnemonic. Safe. -/
  | notModelled (mnemonic : String)
  /-- Raised by every command once `dsm_state` is DESTROYED (60_exceptions.md R227; 93 U12 "refuse"). Safe. -/
  | destroyed
  /-- Raised by `step` when the host does not serialise its commands (70 R249; 93 U13 "refuse"). Safe. -/
  | notSerialised
  deriving DecidableEq, Repr

/-! ## Construction and reset -/

/-- The record of a channel after construction (R32, R39): the STOP pattern, not active, duty +0.0. -/
def ChannelRecord.initial : ChannelRecord where
  active := false
  dutyCycle := 0x00000000
  onCount := 0
  offCount := 4095

/-- Construction of the driver instance, the one reset event, from its three arguments and the parameters
(R39, 70 R240). It issues no transaction. -/
def State.construct (p : Params) (i2cAddress : Byte) (outputEnablePin : Option Int) (transportPresent : Bool) :
    State where
  params := p
  cfg :=
    { i2cAddress, outputEnablePin, transportPresent
      initialized := false
      currentFrequencyHz := 0
      prescale := 0 }
  dsmState := .uninit
  pc := none
  status := Config.statusAtReset
  result := Config.resultAtReset
  response := []
  channels := Vector.replicate 16 ChannelRecord.initial
  trace := []
  stream := []
  hostOverlap := false
  answers := []
  draws := 0

/-- The machine right after reset: construction with the default address 0x40 and the default absent pin (R39).
DESIGN CHOICE (log 8), unsafe: a transport is attached. -/
def State.reset : State := State.construct Config.params defaultI2cAddress none true

end Sys2Proof.Machine
end

