-- ==== Sys2Proof/Machine/Operands.lean ====
section
/-! DEFINITION. The operand forms: the value of a binary32 pattern, the operand checks, the register addresses and
bytes of a channel, and the byte a mode register is written with. -/

namespace Sys2Proof.Machine

/-! ## binary32 patterns (00_scope.md R15) -/

/-- The exponent field `w[30:23]`. -/
def expField (w : Word) : Nat := (w.extractLsb' 23 8).toNat

/-- The fraction field `w[22:0]`. -/
def fracField (w : Word) : Nat := (w.extractLsb' 0 23).toNat

/-- The sign `w[31]`. -/
def signBit (w : Word) : Bool := w.msb

/-- NaN patterns: exponent 0xFF and a nonzero fraction. -/
def isNaN (w : Word) : Bool := expField w == 0xFF && fracField w != 0

/-- The significand: the fraction, with the hidden bit of a normal number. -/
def significand (w : Word) : Nat := if expField w = 0 then fracField w else 2 ^ 23 + fracField w

/-- `|val32(w)|` in units of 2^-150, exact for every zero, subnormal and normal pattern. An infinity's is above that
of every finite pattern, as R15's ordering asks. -/
def magnitude (w : Word) : Nat := significand w * 2 ^ max (expField w) 1

/-- The value 1 in units of 2^-150. -/
def unitScale : Nat := 2 ^ 150

/-- `val32(w) < 0`; false for -0.0. -/
def isNegative (w : Word) : Bool := signBit w && magnitude w != 0

/-- `val32(w) <= 0`. -/
def isZeroOrBelow (w : Word) : Bool := signBit w || magnitude w == 0

/-- `val32(w) >= 1`. -/
def isOneOrAbove (w : Word) : Bool := !signBit w && decide (unitScale ≤ magnitude w)

/-- `val32(w) > 1`. -/
def isAboveOne (w : Word) : Bool := !signBit w && decide (unitScale < magnitude w)

/-! ## The value ranges of the operand checks (44_channel_facade.md R180) -/

/-- CheckFreq's range [24, 1526]. -/
def frequencyInRange (f : Word) : Bool := decide (freqMinHz ≤ f.toNat) && decide (f.toNat ≤ freqMaxHz)

/-- CheckDuty's range: not a NaN, and a value in [0, 1]. -/
def dutyInRange (w : Word) : Bool := !(isNaN w || isNegative w || isAboveOne w)

/-! ## Channel registers (20_memory.md R53, R67; 42_timing_mapper.md R136) -/

/-- LED_BASE(n) = 0x06 + 4 n. -/
def ledBase (n : Fin 16) : Byte := 0x06 + 4 * BitVec.ofNat 8 n.val

/-- `v[7:0]` of a counter. -/
def lowByte (v : Half) : Byte := v.extractLsb' 0 8

/-- `zext_8(v[11:8])` of a counter: bits 7:4 are 0. -/
def highByte (v : Half) : Byte := (v.extractLsb' 8 4).setWidth 8

/-- `EncodeTiming(on, off)`: the four bytes in address order (R136). -/
def encodeTiming (t : Timing) : List Byte := [lowByte t.on, highByte t.on, lowByte t.off, highByte t.off]

/-- The register writes of a timing pair to channel n, in ascending address order (43_device_sequencer.md R156). -/
def channelWrites (n : Fin 16) (t : Timing) : List (Byte × Byte) :=
  [(ledBase n, lowByte t.on), (ledBase n + 1, highByte t.on), (ledBase n + 2, lowByte t.off),
   (ledBase n + 3, highByte t.off)]

/-- The timing stored in a channel record. -/
def ChannelRecord.timing (r : ChannelRecord) : Timing := ⟨r.onCount, r.offCount⟩

/-- The STOP pattern (0, 4095) (00_scope.md R16). -/
def stopPattern : Timing := ⟨0, 4095⟩

/-- The FULL pattern (4095, 0) (00_scope.md R16). -/
def fullPattern : Timing := ⟨4095, 0⟩

/-! ## Mode registers (43_device_sequencer.md R151) -/

/-- The byte a read-modify-write writes: `(t | set) & ~clear`, every other bit as read. -/
def modifiedByte (t set clear : Byte) : Byte := (t ||| set) &&& ~~~clear

end Sys2Proof.Machine
end

