-- ==== Sys2Proof/Machine/Flags.lean ====
section
/-! DEFINITION. The block has no flags: its only flag-like output is the response, a STATUS code and for two commands a
RESULT word (10_state.md R31, 30_encoding.md R97, 60_exceptions.md R210). -/

namespace Sys2Proof.Machine

/-- The status names of R210. -/
inductive Status
  | success | notInitialized | invalidChannel | invalidFrequency | invalidDutyCycle | invalidArgument
  | hardwareError | notSupported
  deriving DecidableEq, Repr

/-- The code of a status (R210). -/
def statusCode : Status → Byte
  | .success => 0
  | .notInitialized => 1
  | .invalidChannel => 2
  | .invalidFrequency => 3
  | .invalidDutyCycle => 4
  | .invalidArgument => 5
  | .hardwareError => 6
  | .notSupported => 7

/-- The STATUS word of a response: bits 7:0 the code, bits 31:8 zero (R97). -/
def statusWord (e : Status) : Word := (statusCode e).setWidth 32

/-- COMPUTE_PRESCALE's RESULT word: `RESULT[7:0] = prescale`, the rest 0 (R97). -/
def prescaleResult (p : Byte) : Word := p.setWidth 32

/-- COMPUTE_TIMING's RESULT word: `(zext_32(off) << 16) | zext_32(on)` (R97, 42_timing_mapper.md R137). -/
def timingResult (t : Timing) : Word := t.off.setWidth 32 <<< 16 ||| t.on.setWidth 32

/-- The words of a response: STATUS, and RESULT where the command yields one (R97). -/
def responseWords (e : Status) (r : Option Word) : List Word :=
  match r with
  | some w => [statusWord e, w]
  | none => [statusWord e]

end Sys2Proof.Machine
end

