-- ==== Sys2Proof/Machine/Ops.lean ====
section
/-! DEFINITION. The shared operations: the updates of the state, how a command's steps run and abort, the bus
primitives with the environment's answers (20_memory.md R59 to R66), the checks, the sequencer's sub-sequences
(43_device_sequencer.md R151 to R157), and how a command ends in a response (60_exceptions.md R214 to R217). -/

namespace Sys2Proof.Machine

/-! ## Updates of the state -/

def State.setDsm (s : State) (d : DsmState) : State := { s with dsmState := d }

/-- `cfg.initialized <- b` (R26). -/
def State.setInitialized (s : State) (b : Bool) : State := { s with cfg := { s.cfg with initialized := b } }

/-- `cfg.current_frequency_hz <- f; cfg.prescale <- p`, always together (R28). -/
def State.setFrequency (s : State) (f : Word) (p : Byte) : State :=
  { s with cfg := { s.cfg with currentFrequencyHz := f, prescale := p } }

/-- `ch[n] <- r`. -/
def State.setChannel (s : State) (n : Fin 16) (r : ChannelRecord) : State :=
  { s with channels := s.channels.set n.val r n.isLt }

/-- `ch[n]`. -/
def State.channel (s : State) (n : Fin 16) : ChannelRecord := s.channels[n.val]'n.isLt

/-- `ch[n].active <- b`, the record's other fields unchanged. -/
def State.setActive (s : State) (n : Fin 16) (b : Bool) : State :=
  s.setChannel n { s.channel n with active := b }

/-- The record after a confirmed duty update (44_channel_facade.md R181). -/
def State.setDutyRecord (s : State) (n : Fin 16) (w : Word) (t : Timing) : State :=
  s.setChannel n { active := true, dutyCycle := w, onCount := t.on, offCount := t.off }

def State.setPc (s : State) (k : Option Nat) : State := { s with pc := k }

/-- `pc` advances by one after each step that completes (R22). -/
def State.advance (s : State) : State := { s with pc := s.pc.map (· + 1) }

/-- The event joins the trace (20_memory.md R73). -/
def State.record (s : State) (e : Entry) : State := { s with trace := s.trace ++ [e] }

/-- The answer to the k-th transaction from now: the host's supplied answers first, then the free values. -/
def State.upcoming (s : State) (k : Nat) : Answer := (s.answers[k]?).getD (Config.freeAnswer (s.draws + k))

/-- One answer is used up. -/
def State.drawn (s : State) : State := { s with answers := s.answers.drop 1, draws := s.draws + 1 }

/-- The host sends words (30_encoding.md R90). -/
def State.hostSend (s : State) (ws : List Word) : State := { s with stream := s.stream ++ ws }

def State.setStream (s : State) (ws : List Word) : State := { s with stream := ws }

/-- Return and error entry alike (60_exceptions.md R216, R217): STATUS, the response words and, where the command
yields one, RESULT are written, and `pc` has no value any more. Nothing else is saved or changed. -/
def State.respond (s : State) (e : Status) (r : Option Word) : State :=
  { s with
    status := statusCode e
    result := r.getD s.result
    response := responseWords e r
    pc := none }

/-! ## Running the steps of a command (R214) -/

/-- Where a run of steps got to: all of it, an error (`raise`), or a transaction that never returned. -/
inductive Flow (α : Type)
  | done (a : α) (s : State)
  | raise (e : Status) (s : State)
  | hang (s : State)

/-- A run of steps. -/
abbrev Cmd (α : Type) := State → Flow α

/-- `return a`. -/
def Cmd.pure {α : Type} (a : α) : Cmd α := fun s => .done a s

/-- `raise E`: no later step runs. -/
def Cmd.raise {α : Type} (e : Status) : Cmd α := fun s => .raise e s

/-- One run of steps and then the next; an error or a hang of the first is that of both. -/
def Cmd.andThen {α β : Type} (c : Cmd α) (f : α → Cmd β) : Cmd β := fun s =>
  match c s with
  | .done a t => f a t
  | .raise e t => .raise e t
  | .hang t => .hang t

/-- An assignment between steps. -/
def Cmd.update (f : State → State) : Cmd Unit := fun s => .done () (f s)

/-- Run `c` for each element in order, stopping at the first error. -/
def Cmd.forEach {α : Type} (c : α → Cmd Unit) : List α → Cmd Unit
  | [] => Cmd.pure ()
  | a :: l => (c a).andThen fun _ => Cmd.forEach c l

/-- An assignment made when `c` raises. -/
def Cmd.onRaise {α : Type} (c : Cmd α) (f : State → State) : Cmd α := fun s =>
  match c s with
  | .done a t => .done a t
  | .raise e t => .raise e (f t)
  | .hang t => .hang t

/-- An assignment made when `c` ends, with success or an error. -/
def Cmd.atEnd {α : Type} (c : Cmd α) (f : State → State) : Cmd α := fun s =>
  match c s with
  | .done a t => .done a (f t)
  | .raise e t => .raise e (f t)
  | .hang t => .hang t

/-- A command that yields no RESULT word. -/
def Cmd.noResult (c : Cmd Unit) : Cmd (Option Word) := c.andThen fun _ => Cmd.pure none

/-! ## Bus primitives (20_memory.md R59 to R66) -/

/-- The reply recorded for an event the environment answered OK. -/
def okReply (e : Event) (b : Byte) : Reply :=
  match e with
  | .RD _ _ => .byte b
  | .TI | .TD | .GC | .WR _ _ _ | .DLY _ => .done

/-- One transport call: with no transport it raises HardwareError at once; else the environment's answer decides
(R59 to R61). The event joins the trace whatever the answer; a step that completes advances `pc`. -/
def transact (e : Event) : Cmd Byte := fun s =>
  if s.cfg.transportPresent then
    match s.upcoming 0 with
    | .ok b => .done b ((s.drawn.record ⟨e, okReply e b⟩).advance)
    | .fail => .raise .hardwareError (s.drawn.record ⟨e, .failed⟩)
    | .hang => .hang (s.drawn.record ⟨e, .unanswered⟩)
  else .raise .hardwareError s

/-- `MemRead(addr, 1)` (R62). -/
def memRead (reg : Byte) : Cmd Byte := fun s => transact (.RD s.cfg.i2cAddress reg) s

/-- `MemWrite(addr, 1, v)` (R63). -/
def memWrite (reg val : Byte) : Cmd Unit := fun s =>
  (transact (.WR s.cfg.i2cAddress reg val)).andThen (fun _ => Cmd.pure ()) s

/-- `GeneralCallReset()` (R64). -/
def generalCallReset : Cmd Unit := (transact .GC).andThen fun _ => Cmd.pure ()

/-- `BusInit()` (R65). -/
def busInit : Cmd Unit := (transact .TI).andThen fun _ => Cmd.pure ()

/-- `BusDeinit()` (R65). -/
def busDeinit : Cmd Unit := (transact .TD).andThen fun _ => Cmd.pure ()

/-- `Delay(t)`: an event with no bus traffic and no failure outcome (R66). -/
def delay (us : Nat) : Cmd Unit := fun s => .done () ((s.record ⟨.DLY us, .done⟩).advance)

/-- A list of register writes, one transaction each, in order (R69, R73). -/
def writeAll : List (Byte × Byte) → Cmd Unit := Cmd.forEach fun w => memWrite w.1 w.2

/-! ## Transport calls on the bus -/

/-- The transport's calls (20_memory.md R62 to R65). -/
inductive TransportCall
  | init
  | deinit
  | write (dev : Byte) (bytes : List Byte)
  | writeRead (dev : Byte) (bytes : List Byte) (readLength : Nat)
  deriving DecidableEq, Repr

/-- The transport call an event stands for; a delay is none (R150). -/
def transportCall : Event → Option TransportCall
  | .TI => some .init
  | .TD => some .deinit
  | .GC => some (.write generalCallAddress resetPayload)
  | .RD dev reg => some (.writeRead dev [reg] 1)
  | .WR dev reg val => some (.write dev [reg, val])
  | .DLY _ => none

/-! ## Checks (44_channel_facade.md R180) -/

/-- `if not b: raise E`. -/
def require (b : Bool) (e : Status) : Cmd Unit := fun s => if b then .done () s else .raise e s

/-- `CheckInit()`. -/
def checkInit : Cmd Unit := fun s => require s.cfg.initialized .notInitialized s

/-- `CheckChannel(c)`: the index of a valid channel. -/
def checkChannel (c : Byte) : Cmd (Fin 16) := fun s =>
  if h : c.toNat < 16 then .done ⟨c.toNat, h⟩ s else .raise .invalidChannel s

/-- `CheckFreq(f)`. -/
def checkFreq (f : Word) : Cmd Unit := require (frequencyInRange f) .invalidFrequency

/-- `CheckDuty(w)`. -/
def checkDuty (w : Word) : Cmd Unit := require (dutyInRange w) .invalidDutyCycle

/-! ## Sub-sequences of the sequencer (43_device_sequencer.md R151 to R157) -/

/-- `ModifyMode(r, set, clear)`: a fresh read, then the write (R151). -/
def modifyMode (reg set clear : Byte) : Cmd Unit :=
  (memRead reg).andThen fun t => memWrite reg (modifiedByte t set clear)

/-- The bookkeeping of R152: every command but INITIALIZE (`track = false`) records a SLEEP write that succeeded. -/
def noteDsm (track : Bool) (d : DsmState) : Cmd Unit := Cmd.update fun s => if track then s.setDsm d else s

/-- `SleepSeq()` (R153). -/
def sleepSeq (track : Bool) : Cmd Unit := fun s =>
  ((modifyMode regMode1 s.params.sleepMask 0).andThen fun _ => noteDsm track .asleep) s

/-- `WakeSeq()` (R154). -/
def wakeSeq (track : Bool) : Cmd Unit := fun s =>
  ((modifyMode regMode1 0 s.params.sleepMask).andThen fun _ =>
    (noteDsm track .awake).andThen fun _ => delay settleUs) s

/-- `PrescaleSeq(p)` (R155). -/
def prescaleSeq (track : Bool) (p : Byte) : Cmd Unit :=
  (sleepSeq track).andThen fun _ => (memWrite regPreScale p).andThen fun _ => wakeSeq track

/-- `WriteChannelTiming(n, on, off)` (R156). -/
def writeChannelTiming (n : Fin 16) (t : Timing) : Cmd Unit := writeAll (channelWrites n t)

/-- `DriverSeq()` (R157). -/
def driverSeq : Cmd Unit := fun s =>
  (match s.params.outputDriverMode with
   | .totemPole => modifyMode regMode2 s.params.outdrvMask 0
   | .openDrain => modifyMode regMode2 0 s.params.outdrvMask) s

/-! ## A command from its first step to its response -/

/-- Taking an error (60_exceptions.md R216): the code goes to STATUS and the command ends; no state is saved, no mode
changes, and control goes to no handler. -/
def takeError (e : Status) (s : State) : State := s.respond e none

/-- A command: refused once the instance is destroyed (R227); else its steps run from step 1, and it ends in
its response or hangs. -/
def runCommand (c : Cmd (Option Word)) (s : State) : Host.Outcome State Fault Refusal :=
  if s.dsmState = .destroyed then .refused .destroyed
  else
    match c (s.setPc (some 1)) with
    | .done r t => .next (t.respond .success r)
    | .raise e t => .next (takeError e t)
    | .hang t => .fault (.transportHang t)

/-- An encoding that selects no command: NotSupported, with no transaction and no other effect (30_encoding.md R96). -/
def runRejected (s : State) : Host.Outcome State Fault Refusal := runCommand (Cmd.raise .notSupported) s

end Sys2Proof.Machine
end

