-- ==== Sys2Proof/Machine/Calculators.lean ====
section
/-! DEFINITION. The Frequency Calculator (41_frequency_calculator.md) and the Duty-Cycle Timing Mapper
(42_timing_mapper.md): their functions and their two commands. -/

namespace Sys2Proof.Machine

/-! ## Rounding (00_scope.md R14) -/

/-- `RHA(a / b)` in integers, for b > 0: halves go away from zero (R14, R120). -/
def roundHalfAway (a : Int) (b : Nat) : Int :=
  if 0 ≤ a then (2 * a + b) / (2 * b) else -((b - 2 * a) / (2 * b))

/-! ## The Frequency Calculator -/

/-- The rounded value before the clamp: `a = 25000000 - 4096 f` over `b = 4096 f` (R120). -/
def rawPrescale (f : Nat) : Int := roundHalfAway (oscFreq - periodTicks * f) (periodTicks * f)

/-- `ComputePrescale(f)` for f at least 1 (R120); no rule calls it at f = 0. -/
def computePrescale (f : Nat) : Byte := BitVec.ofInt 8 (clamp prescaleMin prescaleMax (rawPrescale f))

/-! ## The Timing Mapper -/

/-- `rn32`: the exact value `p * 2^-150` rounded to the nearest binary32, ties to even, in the same unit (R132).
A binary32 value of that size is a multiple of 2^k units, k being 23 below its leading bit and at least 1. -/
def roundToBinary32 (p : Nat) : Nat :=
  let k := max (p.log2 - 23) 1
  let q := p >>> k
  let r := p % 2 ^ k
  let half := 2 ^ (k - 1)
  (if half < r ∨ (r = half ∧ q % 2 = 1) then q + 1 else q) * 2 ^ k

/-- The product `duty * 4095` in units of 2^-150, in the arithmetic the parameter names (R130, R132). -/
def dutyProduct (arith : DutyProductArith) (w : Word) : Nat :=
  match arith with
  | .exact => magnitude w * counterMax
  | .binary32 => roundToBinary32 (magnitude w * counterMax)

/-- The third case's off count: the product rounded, halves away from zero (R130). -/
def dutyCount (arith : DutyProductArith) (w : Word) : Nat :=
  (roundHalfAway (dutyProduct arith w) unitScale).toNat

/-- `ComputeTiming(w)`, for a pattern that is not a NaN (R130). -/
def computeTiming (arith : DutyProductArith) (w : Word) : Timing :=
  if isZeroOrBelow w then stopPattern
  else if isOneOrAbove w then fullPattern
  else ⟨0, BitVec.ofNat 16 (dutyCount arith w)⟩

/-! ## The commands -/

/-- COMPUTE_PRESCALE's steps (R122). -/
def computePrescaleSteps (f : Word) : Cmd (Option Word) :=
  (require (f != 0) .invalidFrequency).andThen fun _ => Cmd.pure (some (prescaleResult (computePrescale f.toNat)))

/-- COMPUTE_PRESCALE (41_frequency_calculator.md R122). -/
def execComputePrescale (f : Word) (s : State) : Host.Outcome State Fault Refusal :=
  runCommand (computePrescaleSteps f) s

/-- COMPUTE_TIMING's steps (R137). -/
def computeTimingSteps (w : Word) : Cmd (Option Word) := fun s =>
  ((require (!isNaN w) .invalidDutyCycle).andThen fun _ =>
    Cmd.pure (some (timingResult (computeTiming s.params.dutyProductArith w)))) s

/-- COMPUTE_TIMING (42_timing_mapper.md R137). -/
def execComputeTiming (w : Word) (s : State) : Host.Outcome State Fault Refusal :=
  runCommand (computeTimingSteps w) s

end Sys2Proof.Machine
end

