-- ==== Sys2Proof/Machine/Sequencer.lean ====
section
/-! DEFINITION. The commands of the Device State Machine sequencer (43_device_sequencer.md R160 to R165). -/

namespace Sys2Proof.Machine

/-! ## INITIALIZE (R160) -/

/-- Steps 1 to 13 of INITIALIZE and the assignments of its success. -/
def bringUp (f : Nat) : Cmd Unit :=
  busInit.andThen fun _ =>
  generalCallReset.andThen fun _ =>
  (prescaleSeq false (computePrescale f)).andThen fun _ =>
  driverSeq.andThen fun _ =>
  (wakeSeq false).andThen fun _ =>
  Cmd.update fun s =>
    ((s.setFrequency (BitVec.ofNat 32 f) (computePrescale f)).setInitialized true).setDsm .awake

/-- INITIALIZE's checks, its RESETTING state, and its failure, which leaves UNINIT and nothing else. -/
def initializeSteps : Cmd Unit := fun s =>
  if s.cfg.initialized then .done () s
  else if s.cfg.transportPresent then
    (bringUp s.params.defaultFrequencyHz.val).onRaise (·.setDsm .uninit) (s.setDsm .resetting)
  else .raise .invalidArgument s

/-- INITIALIZE. -/
def execInitialize (s : State) : Host.Outcome State Fault Refusal := runCommand initializeSteps.noResult s

/-! ## SET_FREQUENCY (R161) -/

/-- The frequency change SET_FREQUENCY and CONFIGURE_CHANNEL share: `PrescaleSeq`, then the two fields. -/
def changeFrequency (f : Word) : Cmd Unit :=
  (prescaleSeq true (computePrescale f.toNat)).andThen fun _ =>
    Cmd.update (·.setFrequency f (computePrescale f.toNat))

/-- SET_FREQUENCY. -/
def execSetFrequency (f : Word) (s : State) : Host.Outcome State Fault Refusal :=
  runCommand (checkInit.andThen fun _ => (checkFreq f).andThen fun _ => changeFrequency f).noResult s

/-! ## SLEEP (R162) and WAKEUP (R163) -/

/-- SLEEP. -/
def execSleep (s : State) : Host.Outcome State Fault Refusal :=
  runCommand (checkInit.andThen fun _ => sleepSeq true).noResult s

/-- WAKEUP. -/
def execWakeup (s : State) : Host.Outcome State Fault Refusal :=
  runCommand (checkInit.andThen fun _ => wakeSeq true).noResult s

/-! ## DEINITIALIZE (R164) and DESTROY (R165) -/

/-- The STOP pattern on one channel, then `active <- false` (R164, R183). -/
def stopChannel (n : Fin 16) : Cmd Unit :=
  (writeChannelTiming n stopPattern).andThen fun _ => Cmd.update (·.setActive n false)

/-- The channels in ascending order (R164). -/
def allChannels : List (Fin 16) := [0, 1, 2, 3, 4, 5, 6, 7, 8, 9, 10, 11, 12, 13, 14, 15]

/-- DEINITIALIZE's steps 1 to 67 and the assignments of its success. -/
def deinitializeSteps : Cmd Unit :=
  (Cmd.forEach stopChannel allChannels).andThen fun _ =>
  (sleepSeq true).andThen fun _ =>
  busDeinit.andThen fun _ =>
  Cmd.update fun s => (s.setInitialized false).setDsm .deinit

/-- DEINITIALIZE. -/
def execDeinitialize (s : State) : Host.Outcome State Fault Refusal :=
  runCommand (checkInit.andThen fun _ => deinitializeSteps).noResult s

/-- DESTROY's steps: DEINITIALIZE's if still initialized, with their status; DESTROYED in every case. -/
def destroySteps : Cmd Unit := fun s =>
  Cmd.atEnd (if s.cfg.initialized then deinitializeSteps else Cmd.pure ()) (·.setDsm .destroyed) s

/-- DESTROY. -/
def execDestroy (s : State) : Host.Outcome State Fault Refusal := runCommand destroySteps.noResult s

end Sys2Proof.Machine
end

