-- ==== Sys2Proof/Machine/Channel.lean ====
section
/-! DEFINITION. The single-channel commands of the Driver Facade (44_channel_facade.md R180 to R184). -/

namespace Sys2Proof.Machine

/-- The duty update of a valid channel: four writes, then the record (R181, R184). -/
def applyDuty (n : Fin 16) (w : Word) : Cmd Unit := fun s =>
  let t := computeTiming s.params.dutyProductArith w
  ((writeChannelTiming n t).andThen fun _ => Cmd.update (·.setDutyRecord n w t)) s

/-- SET_DUTY_CYCLE's steps with its checks, also an element of SET_DUTY_CYCLE_MULTIPLE (R181, R188). -/
def setDutyCycleSteps (c : Byte) (w : Word) : Cmd Unit :=
  checkInit.andThen fun _ => (checkChannel c).andThen fun n => (checkDuty w).andThen fun _ => applyDuty n w

/-- SET_DUTY_CYCLE. -/
def execSetDutyCycle (c : Byte) (w : Word) (s : State) : Host.Outcome State Fault Refusal :=
  runCommand (setDutyCycleSteps c w).noResult s

/-- The stored timing of a valid channel written again, then `active <- true` (R182). -/
def startChannel (n : Fin 16) : Cmd Unit := fun s =>
  ((writeChannelTiming n (s.channel n).timing).andThen fun _ => Cmd.update (·.setActive n true)) s

/-- START's steps with its checks, also an element of START_MULTIPLE (R182, R186). -/
def startSteps (c : Byte) : Cmd Unit :=
  checkInit.andThen fun _ => (checkChannel c).andThen fun n => startChannel n

/-- START. -/
def execStart (c : Byte) (s : State) : Host.Outcome State Fault Refusal := runCommand (startSteps c).noResult s

/-- STOP's steps with its checks, also an element of STOP_MULTIPLE (R183, R187). -/
def stopSteps (c : Byte) : Cmd Unit :=
  checkInit.andThen fun _ => (checkChannel c).andThen fun n => stopChannel n

/-- STOP. -/
def execStop (c : Byte) (s : State) : Host.Outcome State Fault Refusal := runCommand (stopSteps c).noResult s

/-- CONFIGURE_CHANNEL's steps: all four checks first, then the frequency, then the channel (R184). -/
def configureChannelSteps (c : Byte) (f w : Word) : Cmd Unit :=
  checkInit.andThen fun _ =>
  (checkChannel c).andThen fun n =>
  (checkFreq f).andThen fun _ =>
  (checkDuty w).andThen fun _ =>
  (changeFrequency f).andThen fun _ =>
  applyDuty n w

/-- CONFIGURE_CHANNEL. -/
def execConfigureChannel (c : Byte) (f w : Word) (s : State) : Host.Outcome State Fault Refusal :=
  runCommand (configureChannelSteps c f w).noResult s

end Sys2Proof.Machine
end

