-- ==== Sys2Proof/Machine/Batch.lean ====
section
/-! DEFINITION. The batch commands of the Driver Facade (44_channel_facade.md R185 to R188). -/

namespace Sys2Proof.Machine

/-- `BATCH(op, elements)`: the initialization check, then InvalidArgument for no element, then each element with all
its own checks, stopping at the first that fails (R185). -/
def batch {α : Type} (op : α → Cmd Unit) (elems : List α) : Cmd Unit :=
  checkInit.andThen fun _ =>
  (require (!elems.isEmpty) .invalidArgument).andThen fun _ =>
  Cmd.forEach op elems

/-- START_MULTIPLE (R186). -/
def execStartMultiple (chs : List Byte) (s : State) : Host.Outcome State Fault Refusal :=
  runCommand (batch startSteps chs).noResult s

/-- STOP_MULTIPLE (R187). -/
def execStopMultiple (chs : List Byte) (s : State) : Host.Outcome State Fault Refusal :=
  runCommand (batch stopSteps chs).noResult s

/-- SET_DUTY_CYCLE_MULTIPLE (R188). -/
def execSetDutyCycleMultiple (elems : List (Byte × Word)) (s : State) : Host.Outcome State Fault Refusal :=
  runCommand (batch (fun e => setDutyCycleSteps e.1 e.2) elems).noResult s

end Sys2Proof.Machine
end

