-- ==== Sys2Proof/Machine/Stubs.lean ====
section
/-! DEFINITION. The unsupported-feature stubs (44_channel_facade.md R189 to R195). -/

namespace Sys2Proof.Machine

/-- `STUB(c)`: NotSupported, with no check, no event and no state change; the channel field is ignored (R189). -/
def stub (_c : Byte) : Cmd (Option Word) := Cmd.raise .notSupported

/-- SET_PHASE (R190). -/
def execSetPhase (c : Byte) (s : State) : Host.Outcome State Fault Refusal := runCommand (stub c) s

/-- CONFIGURE_FADE (R191). -/
def execConfigureFade (c : Byte) (s : State) : Host.Outcome State Fault Refusal := runCommand (stub c) s

/-- START_FADE (R192). -/
def execStartFade (c : Byte) (s : State) : Host.Outcome State Fault Refusal := runCommand (stub c) s

/-- CONFIGURE_COMPLEMENTARY (R193). -/
def execConfigureComplementary (c : Byte) (s : State) : Host.Outcome State Fault Refusal := runCommand (stub c) s

/-- SET_DEAD_TIME (R194). -/
def execSetDeadTime (c : Byte) (s : State) : Host.Outcome State Fault Refusal := runCommand (stub c) s

/-- REGISTER_CALLBACK (R195). -/
def execRegisterCallback (c : Byte) (s : State) : Host.Outcome State Fault Refusal := runCommand (stub c) s

end Sys2Proof.Machine
end

