-- ==== Sys2Proof/Machine/Dispatch.lean ====
section
/-! DEFINITION. The dispatch: one arm for each command, each a direct call of that command's meaning. -/

namespace Sys2Proof.Machine

/-- The meaning of a command (30_encoding.md R94's rule column). -/
def exec (i : Instr) (s : State) : Host.Outcome State Fault Refusal :=
  match i with
  | .computePrescale freq => Sys2Proof.Machine.execComputePrescale freq s
  | .computeTiming duty => Sys2Proof.Machine.execComputeTiming duty s
  | .initializeDevice => Sys2Proof.Machine.execInitialize s
  | .setFrequency freq => Sys2Proof.Machine.execSetFrequency freq s
  | .sleep => Sys2Proof.Machine.execSleep s
  | .wakeup => Sys2Proof.Machine.execWakeup s
  | .deinitialize => Sys2Proof.Machine.execDeinitialize s
  | .destroy => Sys2Proof.Machine.execDestroy s
  | .setDutyCycle ch duty => Sys2Proof.Machine.execSetDutyCycle ch duty s
  | .start ch => Sys2Proof.Machine.execStart ch s
  | .stop ch => Sys2Proof.Machine.execStop ch s
  | .configureChannel ch freq duty => Sys2Proof.Machine.execConfigureChannel ch freq duty s
  | .startMultiple chs => Sys2Proof.Machine.execStartMultiple chs s
  | .stopMultiple chs => Sys2Proof.Machine.execStopMultiple chs s
  | .setDutyCycleMultiple elems => Sys2Proof.Machine.execSetDutyCycleMultiple elems s
  | .setPhase ch => Sys2Proof.Machine.execSetPhase ch s
  | .configureFade ch => Sys2Proof.Machine.execConfigureFade ch s
  | .startFade ch => Sys2Proof.Machine.execStartFade ch s
  | .configureComplementary ch => Sys2Proof.Machine.execConfigureComplementary ch s
  | .setDeadTime ch => Sys2Proof.Machine.execSetDeadTime ch s
  | .registerCallback ch => Sys2Proof.Machine.execRegisterCallback ch s

end Sys2Proof.Machine
end

