-- ==== Sys2Proof/Machine/Fetch.lean ====
section
/-! DEFINITION. How the block takes its next command from the host's stream (30_encoding.md R98): what `step` calls. -/

namespace Sys2Proof.Machine

/-- The decoder's answer carried out: a stream cut short gives no step; an encoding that selects no command consumes
its words and answers NotSupported; a command consumes its words and runs. -/
def runDecoded (d : Decoded) (s : State) : Host.Outcome State Fault Refusal :=
  match d with
  | .incomplete => .fault .awaitingWord
  | .reject _ rest => runRejected (s.setStream rest)
  | .command i rest => exec i (s.setStream rest)

/-- One command of the block; a host that does not serialise is refused (70 R249). -/
def fetchAndRun (s : State) : Host.Outcome State Fault Refusal :=
  if s.hostOverlap then .refused .notSerialised else runDecoded (decode s.stream) s

/-- The words put at the head of the host's stream, sent by a host that serialises. -/
def State.withNextWords (s : State) (ws : List Word) : State :=
  { s with stream := ws ++ s.stream, hostOverlap := false }

end Sys2Proof.Machine
end

