-- ==== Sys2Proof/Machine/Step.lean ====
section
/-! DEFINITION. One step of the machine, and where the host places the next command. -/

namespace Sys2Proof.Machine

/-- One step: decode one command from the stream and execute it to completion (30_encoding.md R90, 10_state.md R20). -/
def step (s : State) : Host.Outcome State Fault Refusal := fetchAndRun s

/-- `s` with the command of an opcode-table word sent as the host's next command (log 1). -/
def State.withFetchWord (s : State) (nbits w : Nat) : State := s.withNextWords (tableWords nbits w)

end Sys2Proof.Machine
end

