-- ==== Sys2Proof/Safety.lean ====
section
/-! DEFINITION. The terms the claims are stated in: readiness and the environment's answers, the entries the rules ask
for, how a command ends, the invariant, and the trace properties. Nothing here is called by the machine. -/

namespace Sys2Proof.Machine

/-! ## The environment's answers -/

/-- The environment answered OK. -/
def isOk : Answer → Bool
  | .ok _ => true
  | .fail | .hang => false

/-- The byte of an OK answer (0 for the others). -/
def answerByte : Answer → Byte
  | .ok b => b
  | .fail | .hang => 0

/-- The next `n` transactions are answered OK. -/
abbrev okFor (s : State) (n : Nat) : Prop := ∀ k < n, isOk (s.upcoming k) = true

/-- The byte the k-th transaction from now is answered with. -/
def byteAt (s : State) (k : Nat) : Byte := answerByte (s.upcoming k)

/-- The next `n` transactions are answered OK and the one after them FAILs. -/
abbrev failsAfter (s : State) (n : Nat) : Prop := okFor s n ∧ s.upcoming n = .fail

/-- The next `n` transactions are answered OK and the one after them is never answered (20_memory.md R61). -/
abbrev hangsAfter (s : State) (n : Nat) : Prop := okFor s n ∧ s.upcoming n = .hang

/-- The instance is not destroyed. -/
abbrev alive (s : State) : Prop := s.dsmState ≠ .destroyed

/-- The instance is initialized, with a transport, and not destroyed. -/
abbrev ready (s : State) : Prop :=
  alive s ∧ s.cfg.initialized = true ∧ s.cfg.transportPresent = true

/-! ## Entries of the trace, in the spec's notation (43_device_sequencer.md R150) -/

/-- `RD(r) -> b`, answered OK. -/
def rd (dev reg b : Byte) : Entry := ⟨.RD dev reg, .byte b⟩

/-- `WR(r, v)`, answered OK. -/
def wr (dev reg v : Byte) : Entry := ⟨.WR dev reg v, .done⟩

/-- `DLY(500)`. -/
def settle : Entry := ⟨.DLY 500, .done⟩

/-- The events of `SleepSeq` (R153): `RD(0x00) -> t`, `WR(0x00, t | SLEEP_M)`. -/
def sleepEvents (dev mask t : Byte) : List Entry := [rd dev 0x00 t, wr dev 0x00 (t ||| mask)]

/-- The events of `WakeSeq` (R154): `RD(0x00) -> t`, `WR(0x00, t & ~SLEEP_M)`, `DLY(500)`. -/
def wakeEvents (dev mask t : Byte) : List Entry := [rd dev 0x00 t, wr dev 0x00 (t &&& ~~~mask), settle]

/-- The six events of `PrescaleSeq(p)` (R155), with the two read answers. -/
def prescaleEvents (dev mask p t1 t2 : Byte) : List Entry :=
  sleepEvents dev mask t1 ++ wr dev 0xFE p :: wakeEvents dev mask t2

/-- The two events of `DriverSeq` (R157): OUTDRV set for totem-pole, cleared for open-drain. -/
def driverEvents (dev mask : Byte) (mode : OutputDriverMode) (t : Byte) : List Entry :=
  [rd dev 0x01 t, wr dev 0x01 (match mode with | .totemPole => t ||| mask | .openDrain => t &&& ~~~mask)]

/-- The four writes of `WriteChannelTiming(n, on, off)` (R156): the counters' low and high bytes at 0x06 + 4n on. -/
def channelEvents (dev : Byte) (n : Fin 16) (on off : Nat) : List Entry :=
  [wr dev (BitVec.ofNat 8 (0x06 + 4 * n.val)) (BitVec.ofNat 8 on),
   wr dev (BitVec.ofNat 8 (0x07 + 4 * n.val)) (BitVec.ofNat 8 (on / 256 % 16)),
   wr dev (BitVec.ofNat 8 (0x08 + 4 * n.val)) (BitVec.ofNat 8 off),
   wr dev (BitVec.ofNat 8 (0x09 + 4 * n.val)) (BitVec.ofNat 8 (off / 256 % 16))]

/-- The writes of a channel's stored timing. -/
def storedEvents (s : State) (n : Fin 16) : List Entry :=
  channelEvents s.cfg.i2cAddress n (s.channel n).onCount.toNat (s.channel n).offCount.toNat

/-- The writes of the STOP pattern (0, 4095) to a channel. -/
def stopEvents (s : State) (n : Fin 16) : List Entry := channelEvents s.cfg.i2cAddress n 0 4095

/-- The writes of a timing pair to a channel. -/
def timingEvents (s : State) (n : Fin 16) (t : Timing) : List Entry :=
  channelEvents s.cfg.i2cAddress n t.on.toNat t.off.toNat

/-- The 13 events of INITIALIZE (43_device_sequencer.md R160), with the four read answers. -/
def bringUpEvents (s : State) (p : Byte) : List Entry :=
  ⟨.TI, .done⟩ :: ⟨.GC, .done⟩ :: prescaleEvents s.cfg.i2cAddress s.params.sleepMask p (byteAt s 2) (byteAt s 5) ++
    driverEvents s.cfg.i2cAddress s.params.outdrvMask s.params.outputDriverMode (byteAt s 7) ++
    wakeEvents s.cfg.i2cAddress s.params.sleepMask (byteAt s 9)

/-- The 67 events of DEINITIALIZE: the STOP pattern to channels 0 to 15, `SleepSeq`, `TD` (R164). -/
def deinitializeEvents (s : State) : List Entry :=
  allChannels.flatMap (stopEvents s) ++ sleepEvents s.cfg.i2cAddress s.params.sleepMask (byteAt s 64) ++
    [⟨.TD, .done⟩]

/-- A list of events cut at the event of index `k`, whose reply is `r`. -/
def cutWith (r : Reply) (es : List Entry) (k : Nat) : List Entry :=
  es.take k ++ (es[k]?.map fun e => (⟨e.event, r⟩ : Entry)).toList

/-- A list of events cut at the event of index `k`, which FAILs (60_exceptions.md R214). -/
abbrev cutAt (es : List Entry) (k : Nat) : List Entry := cutWith .failed es k

/-- A list of events cut at the event of index `k`, which is never answered (20_memory.md R61). -/
abbrev hungAt (es : List Entry) (k : Nat) : List Entry := cutWith .unanswered es k

/-! ## How a command ends -/

/-- The state after a command that emitted `es`, drew `k` answers and ended with a status code and no RESULT word:
everything else is as before, the value of RESULT too (log 18). -/
def ended (s : State) (es : List Entry) (k : Nat) (code : Byte) : State :=
  { s with
    trace := s.trace ++ es
    answers := s.answers.drop k
    draws := s.draws + k
    status := code
    response := [code.setWidth 32]
    pc := none }

/-- The stuck state of a command of events `es` whose event of index `i`, its transaction of index `j`, is never
answered: `pc` names that step, and there is no response (20_memory.md R61, 70_reset_and_hazards.md R248). -/
def hung (s : State) (es : List Entry) (i j : Nat) : State :=
  { s with
    trace := s.trace ++ hungAt es i
    answers := s.answers.drop (j + 1)
    draws := s.draws + (j + 1)
    pc := some (i + 1) }

/-- A command ended with an error (or NotSupported) and no effect at all. -/
abbrev rejectedWith (s : State) (code : Byte) : State := ended s [] 0 code

/-- The frequency fields (10_state.md R27, R28). -/
def withFrequency (s : State) (f : Word) (p : Byte) : DeviceConfig :=
  { s.cfg with currentFrequencyHz := f, prescale := p }

/-- The Channel Store with one record replaced. -/
def withRecord (s : State) (n : Fin 16) (r : ChannelRecord) : Vector ChannelRecord 16 :=
  Vector.ofFn fun m => if m = n then r else s.channel m

/-- The Channel Store with `active <- b` for the channels of a list. -/
def withActive (s : State) (ns : List (Fin 16)) (b : Bool) : Vector ChannelRecord 16 :=
  Vector.ofFn fun m => if m ∈ ns then { s.channel m with active := b } else s.channel m

/-- The record after a duty update (44_channel_facade.md R181). -/
def dutyRecord (s : State) (w : Word) : ChannelRecord :=
  let t := computeTiming s.params.dutyProductArith w
  { active := true, dutyCycle := w, onCount := t.on, offCount := t.off }

/-- The Channel Store after duty updates in order: the last update of a channel is the one that stays. -/
def withDuties (s : State) (es : List (Fin 16 × Word)) : Vector ChannelRecord 16 :=
  Vector.ofFn fun m => match es.reverse.find? (·.1 = m) with
    | some e => dutyRecord s e.2
    | none => s.channel m

/-! ## The exact functions of the spec, over the rationals -/

/-- `val32(w)` of a finite pattern (00_scope.md R15): sign, significand and exponent as IEEE 754 gives them. -/
def val32 (w : Word) : ℚ :=
  let e : Nat := (w.toNat / 2 ^ 23) % 2 ^ 8
  let f : Nat := w.toNat % 2 ^ 23
  let sign : ℚ := if w.toNat / 2 ^ 31 = 0 then 1 else -1
  if e = 0 then sign * (f : ℚ) * (2 : ℚ) ^ (-149 : Int)
  else sign * ((2 : ℚ) ^ (23 : Nat) + f) * (2 : ℚ) ^ ((e : Int) - 150)

/-- A pattern that is neither an infinity nor a NaN. -/
abbrev isFinite (w : Word) : Prop := (w.toNat / 2 ^ 23) % 2 ^ 8 ≠ 255

/-- `RHA(q)` (00_scope.md R14). -/
def RHA (q : ℚ) : Int := if 0 ≤ q then ⌊q + 1 / 2⌋ else -⌊-q + 1 / 2⌋

/-! ## The invariant -/

/-- A channel record that holds an applied duty: its duty is in [0, 1], its counters are the mapper's, and they are
12-bit values (10_state.md R32, R33). -/
structure RecordInv (arith : DutyProductArith) (r : ChannelRecord) : Prop where
  duty : dutyInRange r.dutyCycle = true
  timing : r.timing = computeTiming arith r.dutyCycle
  onBound : r.onCount.toNat ≤ 4095
  offBound : r.offCount.toNat ≤ 4095

/-- What holds of the block between commands (10_state.md R22, R27, R29, R33 to R35; 90_conflicts.md C8). In the
DESTROYED state `initialized` may be left true by a forced Deinitialize that failed (43 R165; log 15). -/
structure Inv (s : State) : Prop where
  pc : s.pc = none
  notResetting : s.dsmState ≠ .resetting
  initializedIff :
    s.dsmState ≠ .destroyed → (s.cfg.initialized = true ↔ s.dsmState = .awake ∨ s.dsmState = .asleep)
  transport : s.cfg.initialized = true → s.cfg.transportPresent = true
  frequency : s.cfg.initialized = true → 24 ≤ s.cfg.currentFrequencyHz.toNat ∧ s.cfg.currentFrequencyHz.toNat ≤ 1526
  prescale : s.cfg.initialized = true → s.cfg.prescale = computePrescale s.cfg.currentFrequencyHz.toNat
  records : ∀ n, RecordInv s.params.dutyProductArith (s.channel n)

/-! ## Properties of a trace -/

/-- Every entry of a trace has `P`, given the entry before it. -/
def everyEntry (P : Option Entry → Entry → Prop) (t : List Entry) : Prop :=
  ∀ k e, t[k]? = some e → P (if k = 0 then none else t[k - 1]?) e

/-- A write of PRE_SCALE, whatever its reply, has a value in [3, 255] and comes right after a successful write of
MODE1 with SLEEP set, to the same device (70_reset_and_hazards.md R244, 20_memory.md R57). -/
def prescaleGuarded (mask : Byte) (before : Option Entry) (e : Entry) : Prop :=
  ∀ dev v, e.event = .WR dev 0xFE v →
    3 ≤ v.toNat ∧ ∃ u : Byte, before = some (wr dev 0x00 u) ∧ u &&& mask = mask

/-- A mode register write, whatever its reply, comes right after a successful read of the same register and changes
no bit but the one its mask names (43_device_sequencer.md R151, 70_reset_and_hazards.md R245). -/
def modeWritePreserves (p : Params) (before : Option Entry) (e : Entry) : Prop :=
  ∀ dev v, (e.event = .WR dev 0x00 v →
      ∃ t : Byte, before = some (rd dev 0x00 t) ∧ v &&& ~~~p.sleepMask = t &&& ~~~p.sleepMask) ∧
    (e.event = .WR dev 0x01 v →
      ∃ t : Byte, before = some (rd dev 0x01 t) ∧ v &&& ~~~p.outdrvMask = t &&& ~~~p.outdrvMask)

/-- Every successful clear of MODE1.SLEEP is followed at once by the settle delay (70_reset_and_hazards.md R243). -/
def wakesSettle (mask : Byte) (t : List Entry) : Prop :=
  ∀ k dev u, t[k]? = some (wr dev 0x00 u) → u &&& mask = 0 → t[k + 1]? = some settle

/-- The transactions the block may make (20_memory.md R51, R52, R58, R72, R78): reads of MODE1 and MODE2, writes of
MODE1, MODE2, PRE_SCALE and the LEDn registers, all to `dev`; and bits 7:4 of every counter's high byte are 0 (R67). -/
def onRegisterMap (dev : Byte) (e : Event) : Prop :=
  match e with
  | .TI | .TD | .GC => True
  | .DLY us => us = 500
  | .RD d r => d = dev ∧ (r = 0x00 ∨ r = 0x01)
  | .WR d r v => d = dev ∧
      (r = 0x00 ∨ r = 0x01 ∨ r = 0xFE ∨
       (0x06 ≤ r.toNat ∧ r.toNat ≤ 0x45 ∧ (r.toNat % 2 = 1 → v.toNat < 16)))

/-- The reply of an event that completed. -/
def succeeded (e : Entry) : Prop := e.reply ≠ .failed ∧ e.reply ≠ .unanswered

/-! ## The errors of each command (60_exceptions.md R212) -/

/-- The status codes a command can end with: Success and the row of R212. -/
def possibleStatus : Instr → List Byte
  | .computePrescale _ => [0, 3]
  | .computeTiming _ => [0, 4]
  | .initializeDevice => [0, 5, 6]
  | .setFrequency _ => [0, 1, 3, 6]
  | .sleep | .wakeup | .deinitialize => [0, 1, 6]
  | .destroy => [0, 6]
  | .setDutyCycle _ _ => [0, 1, 2, 4, 6]
  | .start _ | .stop _ => [0, 1, 2, 6]
  | .configureChannel _ _ _ => [0, 1, 2, 3, 4, 6]
  | .startMultiple _ | .stopMultiple _ => [0, 1, 5, 2, 6]
  | .setDutyCycleMultiple _ => [0, 1, 5, 2, 4, 6]
  | .setPhase _ | .configureFade _ | .startFade _ | .configureComplementary _ | .setDeadTime _
  | .registerCallback _ => [7]

/-- The most transactions a command makes: those of its trace when every one is answered OK (43_device_sequencer.md,
44_channel_facade.md). -/
def transactionsOf : Instr → Nat
  | .computePrescale _ | .computeTiming _ => 0
  | .initializeDevice => 11
  | .setFrequency _ => 5
  | .sleep | .wakeup => 2
  | .deinitialize | .destroy => 67
  | .setDutyCycle _ _ | .start _ | .stop _ => 4
  | .configureChannel _ _ _ => 9
  | .startMultiple chs | .stopMultiple chs => 4 * chs.length
  | .setDutyCycleMultiple elems => 4 * elems.length
  | .setPhase _ | .configureFade _ | .startFade _ | .configureComplementary _ | .setDeadTime _
  | .registerCallback _ => 0

/-- The batch commands, whose errors may follow elements already applied (44_channel_facade.md R185). -/
def isBatch : Instr → Bool
  | .startMultiple _ | .stopMultiple _ | .setDutyCycleMultiple _ => true
  | .computePrescale _ | .computeTiming _ | .initializeDevice | .setFrequency _ | .sleep | .wakeup
  | .deinitialize | .destroy | .setDutyCycle _ _ | .start _ | .stop _ | .configureChannel _ _ _
  | .setPhase _ | .configureFade _ | .startFade _ | .configureComplementary _ | .setDeadTime _
  | .registerCallback _ => false

end Sys2Proof.Machine
end

