-- ==== Sys2Proof/Certificates/Slice0/Obligations.lean ====
section
/-! DEFINITION. The statements for the provers, one `def Obligations.<Name> : Prop` each; OBLIGATIONS.json lists them. -/

open Sys2Proof Sys2Proof.Machine

/-! ## Encoding (30_encoding.md) -/

/-- R90 to R94: decoding the words of a well-formed command, with any words after them, gives that command and leaves
those words, for every command and every operand value the encoding admits. -/
def Obligations.DecodeOfEncodeIsTheCommand : Prop :=
  ∀ (i : Instr) (rest : List Word), i.wellFormed = true → decode (encode i ++ rest) = .command i rest

/-- R95, R96: a stream that decodes to a command begins with exactly that command's words, so each word sequence has
one meaning and no reserved bit is ignored. -/
def Obligations.DecodedWordsAreTheEncoding : Prop :=
  ∀ (ws : List Word) (i : Instr) (rest : List Word), decode ws = .command i rest →
    i.wellFormed = true ∧ ws = encode i ++ rest

/-- R95: no header word selects two rows of the opcode map. -/
def Obligations.NoHeaderSelectsTwoRows : Prop :=
  ∀ (w0 : Word) (r r' : OpRow), r ∈ opcodeTable → r' ∈ opcodeTable → r.selects w0 = true → r'.selects w0 = true →
    r = r'

/-- R98: a command cut short, at any of its words, is never executed: the decoder waits, and the machine gives it no
step, which the model names the fault `awaitingWord` (the model's choice: log 3). -/
def Obligations.TruncatedCommandWaits : Prop :=
  ∀ (i : Instr) (s : State) (ws more : List Word), i.wellFormed = true → encode i = ws ++ more → more ≠ [] →
    s.stream = ws → s.hostOverlap = false → decode ws = .incomplete ∧ step s = .fault .awaitingWord

/-- R99: the example words of each format decode to the command their line names. -/
def Obligations.ExampleWordsDecode : Prop :=
  decode [0x10000000] = .command .initializeDevice [] ∧
  decode [0x11000000, 0x00000032] = .command (.setFrequency 50) [] ∧
  decode [0x02000000, 0x3F000000] = .command (.computeTiming 0x3F000000) [] ∧
  decode [0x21030000] = .command (.start 3) [] ∧
  decode [0x20030000, 0x3E800000] = .command (.setDutyCycle 3 0x3E800000) [] ∧
  decode [0x23010000, 0x000003E8, 0x3F400000] = .command (.configureChannel 1 1000 0x3F400000) [] ∧
  decode [0x30000300, 0x00000000, 0x00000001, 0x00000063] = .command (.startMultiple [0, 1, 99]) [] ∧
  decode [0x32000100, 0x00000000, 0x3F000000] = .command (.setDutyCycleMultiple [(0, 0x3F000000)]) []

/-! ## One step (10_state.md R20, 30_encoding.md R96, R98, 70 R249) -/

/-- R20, R98: where the head of the stream decodes to a command, one step reads exactly its words and executes it. -/
def Obligations.StepExecutesTheDecodedCommand : Prop :=
  ∀ (s : State) (i : Instr) (rest : List Word), s.hostOverlap = false → decode s.stream = .command i rest →
    step s = exec i { s with stream := rest }

/-- R96 case 1: a header with an OPC outside the map of R94 is a command of length 1 that answers NotSupported with
no other effect. -/
def Obligations.UnassignedOpcodeIsNotSupported : Prop :=
  ∀ (s : State) (w0 : Word) (rest : List Word), s.hostOverlap = false → alive s → s.stream = w0 :: rest →
    w0.toNat / 2 ^ 24 ∉ [0x01, 0x02, 0x10, 0x11, 0x12, 0x13, 0x14, 0x1F, 0x20, 0x21, 0x22, 0x23, 0x30, 0x31, 0x32,
      0x40, 0x41, 0x42, 0x43, 0x44, 0x45] →
    step s = .next (rejectedWith { s with stream := rest } 7)

/-- R96 case 2: a header with an assigned OPC and a nonzero bit outside its format's fields keeps the length its
format and N give, and answers NotSupported with no transaction and no state change. -/
def Obligations.ReservedHeaderBitsAreNotSupported : Prop :=
  ∀ (s : State) (r : OpRow) (w0 : Word) (args rest : List Word), s.hostOverlap = false → alive s →
    r ∈ opcodeTable → w0.toNat / 2 ^ 24 = r.code.toNat → r.selects w0 = false →
    args.length = r.format.argWords (if r.format.isBatch then w0.toNat / 2 ^ 8 % 2 ^ 8 else 0) →
    s.stream = w0 :: (args ++ rest) →
    step s = .next (rejectedWith { s with stream := rest } 7)

/-- R96 case 2: a batch whose header is right and one of whose channel words has a nonzero bit in 31:8 reads all its
words and answers NotSupported with no transaction and no state change. -/
def Obligations.ReservedElementBitsAreNotSupported : Prop :=
  (∀ (s : State) (op n : Byte) (chws rest : List Word), s.hostOverlap = false → alive s →
    (op = 0x30 ∨ op = 0x31) → chws.length = n.toNat → (∃ w ∈ chws, 256 ≤ w.toNat) →
    s.stream = headerWord op 0 n :: (chws ++ rest) →
    step s = .next (rejectedWith { s with stream := rest } 7)) ∧
  (∀ (s : State) (n : Byte) (elems : List (Word × Word)) (rest : List Word), s.hostOverlap = false → alive s →
    elems.length = n.toNat → (∃ e ∈ elems, 256 ≤ e.1.toNat) →
    s.stream = headerWord 0x32 0 n :: (elems.flatMap (fun e => [e.1, e.2]) ++ rest) →
    step s = .next (rejectedWith { s with stream := rest } 7))

/-- R76, R98: a step that completes has read at least one word from the head of the stream, and never gives one back. -/
def Obligations.StepConsumesTheStream : Prop :=
  ∀ s t, step s = .next t → ∃ ws, ws ≠ [] ∧ s.stream = ws ++ t.stream

/-- R227, R249: after DESTROY every command, and every encoding that selects no command, is refused; so is a run
whose host does not serialise its commands (that this is an input flag is the model's choice: log 13). -/
def Obligations.DestroyedAndUnserialisedAreRefused : Prop :=
  (∀ (i : Instr) (s : State), s.dsmState = .destroyed → exec i s = .refused .destroyed) ∧
  (∀ (s : State) (why : RejectReason) (rest : List Word), s.hostOverlap = false → s.dsmState = .destroyed →
    decode s.stream = .reject why rest → step s = .refused .destroyed) ∧
  (∀ s : State, s.hostOverlap = true → step s = .refused .notSerialised)

/-! ## Frequency Calculator (41_frequency_calculator.md) -/

/-- R120: for every f at least 1, ComputePrescale is the rational formula rounded half away from zero and clamped to
[3, 255]. -/
def Obligations.PrescaleIsTheRoundedFormula : Prop :=
  ∀ f : Nat, 1 ≤ f →
    ((computePrescale f).toNat : Int) = min 255 (max 3 (RHA (25000000 / (4096 * f) - 1)))

/-- R123: over [24, 1526], and indeed over every f at least 1, the prescale lies in [3, 255] and does not increase
as f increases. -/
def Obligations.PrescaleIsNonincreasing : Prop :=
  ∀ f g : Nat, 1 ≤ f → f ≤ g →
    (computePrescale g).toNat ≤ (computePrescale f).toNat ∧ 3 ≤ (computePrescale g).toNat ∧
    (computePrescale f).toNat ≤ 255

/-- R123: a prescale p in [3, 253] is given exactly by the frequencies f of the valid range with
`25000000/(4096 (p + 3/2)) < f ≤ 25000000/(4096 (p + 1/2))`. -/
def Obligations.PrescaleFrequencyBands : Prop :=
  ∀ f p : Nat, 24 ≤ f → f ≤ 1526 → 3 ≤ p → p ≤ 253 →
    ((computePrescale f).toNat = p ↔
      (25000000 / (4096 * (p + 3 / 2)) : ℚ) < f ∧ (f : ℚ) ≤ 25000000 / (4096 * (p + 1 / 2)))

/-- R122, R97: COMPUTE_PRESCALE answers Success with the prescale in RESULT, for every f but 0, whatever
`cfg.initialized` is; for f = 0 it answers InvalidFrequency and no RESULT; it changes nothing else. -/
def Obligations.ComputePrescaleCommand : Prop :=
  ∀ (s : State) (f : Word), alive s →
    (f ≠ 0 → exec (.computePrescale f) s = .next
      { s with
        status := 0
        result := (computePrescale f.toNat).setWidth 32
        response := [0, (computePrescale f.toNat).setWidth 32]
        pc := none }) ∧
    (f = 0 → exec (.computePrescale f) s = .next (rejectedWith s 3))

/-! ## Timing Mapper (42_timing_mapper.md) -/

/-- R130: under EXACT arithmetic, for every finite pattern, ComputeTiming is (0, 4095) for a value at most 0,
(4095, 0) for a value at least 1, and else (0, RHA(d * 4095)), which lies in [0, 4095], so that narrowing it to a
counter loses nothing; +infinity gives (4095, 0) and -infinity (0, 4095). -/
def Obligations.TimingIsTheThreeCasePolicy : Prop :=
  (∀ w : Word, isFinite w →
    computeTiming .exact w =
      if val32 w ≤ 0 then ⟨0, 4095⟩
      else if 1 ≤ val32 w then ⟨4095, 0⟩
      else ⟨0, BitVec.ofInt 16 (RHA (val32 w * 4095))⟩) ∧
  (∀ w : Word, isFinite w → 0 < val32 w → val32 w < 1 → 0 ≤ RHA (val32 w * 4095) ∧ RHA (val32 w * 4095) ≤ 4095) ∧
  (∀ arith, computeTiming arith 0x7F800000 = ⟨4095, 0⟩ ∧ computeTiming arith 0xFF800000 = ⟨0, 4095⟩)

/-- R33: both counters the mapper produces are in [0, 4095], for every pattern and in either arithmetic. At a NaN the
mapper gives no value (R130, R133): that the bound holds there too is the model's choice of a total function (log 19). -/
def Obligations.TimingIsTwelveBits : Prop :=
  ∀ (arith : DutyProductArith) (w : Word),
    (computeTiming arith w).on.toNat ≤ 4095 ∧ (computeTiming arith w).off.toNat ≤ 4095

/-- R251, R137, R132 (the spec's own derived corner cases): the duties just below 1 give the STOP pattern, as 0 does: 0x3F7FF800 to 0x3F7FFFFF, and 0x3F7FF7FF too
under BINARY32 only, while 1 gives (4095, 0); the smallest duties, 0x00000001 to 0x39000800, give (0, 0), and
0x39000801 gives (0, 1). -/
def Obligations.TimingAtTheEndsOfTheRange : Prop :=
  (∀ (arith : DutyProductArith) (w : Word), 0x3F7FF800 ≤ w.toNat → w.toNat ≤ 0x3F7FFFFF →
    computeTiming arith w = ⟨0, 4095⟩) ∧
  computeTiming .exact 0x3F7FF7FF = ⟨0, 4094⟩ ∧ computeTiming .binary32 0x3F7FF7FF = ⟨0, 4095⟩ ∧
  (∀ arith, computeTiming arith 0x00000000 = ⟨0, 4095⟩ ∧ computeTiming arith 0x3F800000 = ⟨4095, 0⟩) ∧
  (∀ w : Word, 1 ≤ w.toNat → w.toNat ≤ 0x39000800 → computeTiming .exact w = ⟨0, 0⟩) ∧
  computeTiming .exact 0x39000801 = ⟨0, 1⟩

/-- R132: the BINARY32 product gives an off count one above the EXACT one on the patterns 0x3F001001 + k * 0x1001,
k = 0 to 2046, and the same pair as EXACT on every other pattern that is not a NaN. -/
def Obligations.Binary32DiffersOnTheListedPatterns : Prop :=
  (∀ k : Nat, k ≤ 2046 →
    (computeTiming .exact (BitVec.ofNat 32 (0x3F001001 + k * 0x1001))).off.toNat = 2048 + k ∧
    (computeTiming .binary32 (BitVec.ofNat 32 (0x3F001001 + k * 0x1001))).off.toNat = 2049 + k) ∧
  (∀ w : Word, isNaN w = false → (∀ k : Nat, k ≤ 2046 → w.toNat ≠ 0x3F001001 + k * 0x1001) →
    computeTiming .binary32 w = computeTiming .exact w)

/-- R137, R97, R133: COMPUTE_TIMING answers Success with off in RESULT[27:16] and on in RESULT[11:0], the other bits
0, for every pattern that is not a NaN, whatever `cfg.initialized` is; for a NaN it answers InvalidDutyCycle and no
RESULT; it changes nothing else. -/
def Obligations.ComputeTimingCommand : Prop :=
  ∀ (s : State) (w : Word), alive s →
    (isNaN w = false → ∃ r : Word,
      r.toNat = (computeTiming s.params.dutyProductArith w).off.toNat * 2 ^ 16 +
        (computeTiming s.params.dutyProductArith w).on.toNat ∧
      (computeTiming s.params.dutyProductArith w).off.toNat < 2 ^ 12 ∧
      (computeTiming s.params.dutyProductArith w).on.toNat < 2 ^ 12 ∧
      exec (.computeTiming w) s = .next { s with status := 0, result := r, response := [0, r], pc := none }) ∧
    (isNaN w = true → exec (.computeTiming w) s = .next (rejectedWith s 4))

/-- R136, R67: the four bytes of a timing pair give its counters back, low byte first, and bits 7:4 of both high
bytes are 0, for all 12-bit counters. -/
def Obligations.EncodedTimingGivesTheCountersBack : Prop :=
  ∀ t : Timing, t.on.toNat ≤ 4095 → t.off.toNat ≤ 4095 →
    ∃ onL onH offL offH : Byte, encodeTiming t = [onL, onH, offL, offH] ∧
      t.on.toNat = onL.toNat + 256 * onH.toNat ∧ t.off.toNat = offL.toNat + 256 * offH.toNat ∧
      onH.toNat < 16 ∧ offH.toNat < 16

/-! ## INITIALIZE (43_device_sequencer.md R160) -/

/-- R160: on an instance with a transport that is not initialized, and with every transaction answered OK, INITIALIZE
emits its 13 events, sets the default frequency with its prescale, and leaves the instance initialized and AWAKE;
no channel record and nothing else changes. -/
def Obligations.InitializeBringsTheDeviceUp : Prop :=
  ∀ s : State, alive s → s.cfg.initialized = false → s.cfg.transportPresent = true → okFor s 11 →
    let f := s.params.defaultFrequencyHz.val
    let p := computePrescale f
    let dev := s.cfg.i2cAddress
    exec .initializeDevice s = .next
      { ended s
          (⟨.TI, .done⟩ :: ⟨.GC, .done⟩ :: prescaleEvents dev s.params.sleepMask p (byteAt s 2) (byteAt s 5) ++
            driverEvents dev s.params.outdrvMask s.params.outputDriverMode (byteAt s 7) ++
            wakeEvents dev s.params.sleepMask (byteAt s 9)) 11 0 with
        cfg := { withFrequency s (BitVec.ofNat 32 f) p with initialized := true }
        dsmState := .awake }

/-- R160: INITIALIZE on an initialized instance answers Success with no event and no state change; so a second
INITIALIZE after a successful one changes nothing at all. -/
def Obligations.InitializeIsIdempotent : Prop :=
  (∀ s : State, alive s → s.cfg.initialized = true → exec .initializeDevice s = .next (ended s [] 0 0)) ∧
  (∀ s t : State, exec .initializeDevice s = .next t → t.status = 0 → exec .initializeDevice t = .next t)

/-- R160, R214: INITIALIZE whose transaction of index j FAILs (steps 1 to 7 and 9 to 12) answers HardwareError, its
trace ending in that step, and leaves UNINIT; no other field changes. -/
def Obligations.FailedInitializeLeavesUninit : Prop :=
  ∀ (s : State) (j : Nat), alive s → s.cfg.initialized = false → s.cfg.transportPresent = true → j < 11 →
    failsAfter s j →
    let p := computePrescale s.params.defaultFrequencyHz.val
    let dev := s.cfg.i2cAddress
    exec .initializeDevice s = .next
      { ended s
          (cutAt (⟨.TI, .done⟩ :: ⟨.GC, .done⟩ ::
              prescaleEvents dev s.params.sleepMask p (byteAt s 2) (byteAt s 5) ++
              driverEvents dev s.params.outdrvMask s.params.outputDriverMode (byteAt s 7) ++
              wakeEvents dev s.params.sleepMask (byteAt s 9)) (if j < 7 then j else j + 1)) (j + 1) 6 with
        dsmState := .uninit }

/-! ## SET_FREQUENCY, SLEEP and WAKEUP (43_device_sequencer.md R161 to R163) -/

/-- R161, R155: SET_FREQUENCY of a frequency in [24, 1526] on a ready instance, every transaction answered OK: the six
events of PrescaleSeq, then the two frequency fields; it ends AWAKE even from ASLEEP, and nothing else changes. -/
def Obligations.SetFrequencyChangesTheFrequency : Prop :=
  ∀ (s : State) (f : Word), ready s → 24 ≤ f.toNat → f.toNat ≤ 1526 → okFor s 5 →
    let p := computePrescale f.toNat
    exec (.setFrequency f) s = .next
      { ended s (prescaleEvents s.cfg.i2cAddress s.params.sleepMask p (byteAt s 0) (byteAt s 3)) 5 0 with
        cfg := withFrequency s f p
        dsmState := .awake }

/-- R161, R152, R166: SET_FREQUENCY failing at its step j + 1, j = 0 to 4: HardwareError, the old frequency fields, and
`dsm_state` unchanged for steps 1 and 2, ASLEEP for steps 3 to 5. -/
def Obligations.FailedSetFrequencyKeepsTheFrequency : Prop :=
  ∀ (s : State) (f : Word) (j : Nat), ready s → 24 ≤ f.toNat → f.toNat ≤ 1526 → j < 5 → failsAfter s j →
    exec (.setFrequency f) s = .next
      { ended s
          (cutAt (prescaleEvents s.cfg.i2cAddress s.params.sleepMask (computePrescale f.toNat) (byteAt s 0)
            (byteAt s 3)) j) (j + 1) 6 with
        dsmState := if j < 2 then s.dsmState else .asleep }

/-- R162, R163, R153, R154, R152: on a ready instance, answered OK, SLEEP reads MODE1 and writes it back with SLEEP set
and ends ASLEEP; WAKEUP reads it, writes it back with SLEEP clear, waits out the settle delay and ends AWAKE; nothing
else changes, from either state. -/
def Obligations.SleepAndWakeupWriteTheSleepBit : Prop :=
  ∀ s : State, ready s → okFor s 2 →
    exec .sleep s = .next
      { ended s (sleepEvents s.cfg.i2cAddress s.params.sleepMask (byteAt s 0)) 2 0 with dsmState := .asleep } ∧
    exec .wakeup s = .next
      { ended s (wakeEvents s.cfg.i2cAddress s.params.sleepMask (byteAt s 0)) 2 0 with dsmState := .awake }

/-- R162, R163, R166: SLEEP and WAKEUP failing at step 1 or 2 answer HardwareError and leave `dsm_state` unchanged. -/
def Obligations.FailedSleepAndWakeupKeepTheState : Prop :=
  ∀ (s : State) (j : Nat), ready s → j < 2 → failsAfter s j →
    exec .sleep s = .next
      (ended s (cutAt (sleepEvents s.cfg.i2cAddress s.params.sleepMask (byteAt s 0)) j) (j + 1) 6) ∧
    exec .wakeup s = .next
      (ended s (cutAt (wakeEvents s.cfg.i2cAddress s.params.sleepMask (byteAt s 0)) j) (j + 1) 6)

/-! ## DEINITIALIZE and DESTROY (43_device_sequencer.md R164, R165) -/

/-- R164: DEINITIALIZE on a ready instance, every transaction answered OK: its 67 events, every `active` flag false,
not initialized, DEINIT; duties, counters and frequency fields keep their values. -/
def Obligations.DeinitializeStopsEveryChannel : Prop :=
  ∀ s : State, ready s → okFor s 67 →
    exec .deinitialize s = .next
      { ended s (deinitializeEvents s) 67 0 with
        cfg := { s.cfg with initialized := false }
        dsmState := .deinit
        channels := withActive s allChannels false }

/-- R164, R214, R215: DEINITIALIZE failing at step k: HardwareError, still initialized; exactly the channels below
(k - 1)/4 are stopped; `dsm_state` is ASLEEP if only step 67 failed and unchanged otherwise. -/
def Obligations.FailedDeinitializeStopsAPrefix : Prop :=
  ∀ (s : State) (k : Nat), ready s → 1 ≤ k → k ≤ 67 → failsAfter s (k - 1) →
    exec .deinitialize s = .next
      { ended s (cutAt (deinitializeEvents s) (k - 1)) k 6 with
        dsmState := if k = 67 then .asleep else s.dsmState
        channels := withActive s (allChannels.filter fun n => n.val < (k - 1) / 4) false }

/-- R165: DESTROY of an instance that is not initialized answers Success with no event and leaves DESTROYED; on an
initialized one whose transactions are all answered OK it does what DEINITIALIZE does and leaves DESTROYED. -/
def Obligations.DestroyEndsTheInstance : Prop :=
  (∀ s : State, alive s → s.cfg.initialized = false →
    exec .destroy s = .next { ended s [] 0 0 with dsmState := .destroyed }) ∧
  (∀ s : State, ready s → okFor s 67 →
    exec .destroy s = .next
      { ended s (deinitializeEvents s) 67 0 with
        cfg := { s.cfg with initialized := false }
        dsmState := .destroyed
        channels := withActive s allChannels false })

/-- R165: whenever DESTROY completes, with Success or with an error of the forced DEINITIALIZE, the instance is
DESTROYED; with the error of DEINITIALIZE it ends exactly as DEINITIALIZE does but for `dsm_state`. -/
def Obligations.DestroyAlwaysDestroys : Prop :=
  (∀ s t : State, exec .destroy s = .next t → t.dsmState = .destroyed) ∧
  (∀ s t : State, s.cfg.initialized = true → exec .deinitialize s = .next t →
    exec .destroy s = .next { t with dsmState := .destroyed })

/-! ## Single-channel commands (44_channel_facade.md R180 to R184) -/

/-- R181: SET_DUTY_CYCLE of a duty in [0, 1] on a channel of a ready instance, answered OK: the four writes of the
mapped timing, then that channel's record; every other channel and everything else is as before. -/
def Obligations.SetDutyCycleAppliesAndRecords : Prop :=
  ∀ (s : State) (n : Fin 16) (w : Word), ready s → dutyInRange w = true → okFor s 4 →
    exec (.setDutyCycle (BitVec.ofNat 8 n.val) w) s = .next
      { ended s (timingEvents s n (computeTiming s.params.dutyProductArith w)) 4 0 with
        channels := withRecord s n (dutyRecord s w) }

/-- R182: START writes the channel's stored timing again and sets `active`; duty, counters and everything else are as
before. -/
def Obligations.StartReappliesTheStoredTiming : Prop :=
  ∀ (s : State) (n : Fin 16), ready s → okFor s 4 →
    exec (.start (BitVec.ofNat 8 n.val)) s = .next
      { ended s (storedEvents s n) 4 0 with channels := withActive s [n] true }

/-- R183: STOP writes the STOP pattern and clears `active`; the stored duty and counters and everything else are as
before. -/
def Obligations.StopKeepsTheStoredDuty : Prop :=
  ∀ (s : State) (n : Fin 16), ready s → okFor s 4 →
    exec (.stop (BitVec.ofNat 8 n.val)) s = .next
      { ended s (stopEvents s n) 4 0 with channels := withActive s [n] false }

/-- R184: CONFIGURE_CHANNEL with valid operands on a ready instance, answered OK: PrescaleSeq, the frequency fields,
the four writes, the channel's record; AWAKE; channel 0 and every other channel as before. -/
def Obligations.ConfigureChannelSetsFrequencyThenDuty : Prop :=
  ∀ (s : State) (n : Fin 16) (f w : Word), ready s → 24 ≤ f.toNat → f.toNat ≤ 1526 → dutyInRange w = true →
    okFor s 9 →
    let p := computePrescale f.toNat
    exec (.configureChannel (BitVec.ofNat 8 n.val) f w) s = .next
      { ended s
          (prescaleEvents s.cfg.i2cAddress s.params.sleepMask p (byteAt s 0) (byteAt s 3) ++
            timingEvents s n (computeTiming s.params.dutyProductArith w)) 9 0 with
        cfg := withFrequency s f p
        dsmState := .awake
        channels := withRecord s n (dutyRecord s w) }

/-- R180, R213, R160, R219: the device and channel commands check initialization, then the channel, then the frequency,
then the duty, and answer the first failure with no event and no state change; INITIALIZE, which no such check stops,
answers InvalidArgument if no transport is attached. -/
def Obligations.ChecksComeInOrderWithoutEffect : Prop :=
  ∀ (s : State) (c : Byte) (f w : Word), alive s →
    (s.cfg.initialized = false →
      exec (.setFrequency f) s = .next (rejectedWith s 1) ∧ exec .sleep s = .next (rejectedWith s 1) ∧
      exec .wakeup s = .next (rejectedWith s 1) ∧ exec .deinitialize s = .next (rejectedWith s 1) ∧
      exec (.setDutyCycle c w) s = .next (rejectedWith s 1) ∧ exec (.start c) s = .next (rejectedWith s 1) ∧
      exec (.stop c) s = .next (rejectedWith s 1) ∧ exec (.configureChannel c f w) s = .next (rejectedWith s 1)) ∧
    (s.cfg.initialized = false → s.cfg.transportPresent = false →
      exec .initializeDevice s = .next (rejectedWith s 5)) ∧
    (s.cfg.initialized = true → 16 ≤ c.toNat →
      exec (.setDutyCycle c w) s = .next (rejectedWith s 2) ∧ exec (.start c) s = .next (rejectedWith s 2) ∧
      exec (.stop c) s = .next (rejectedWith s 2) ∧ exec (.configureChannel c f w) s = .next (rejectedWith s 2)) ∧
    (s.cfg.initialized = true → f.toNat < 24 ∨ 1526 < f.toNat →
      exec (.setFrequency f) s = .next (rejectedWith s 3) ∧
      (c.toNat < 16 → exec (.configureChannel c f w) s = .next (rejectedWith s 3))) ∧
    (s.cfg.initialized = true → c.toNat < 16 → dutyInRange w = false →
      exec (.setDutyCycle c w) s = .next (rejectedWith s 4) ∧
      (24 ≤ f.toNat → f.toNat ≤ 1526 → exec (.configureChannel c f w) s = .next (rejectedWith s 4)))

/-- R180, R15: CheckDuty accepts exactly the finite patterns with a value in [0, 1], both ends and -0.0 included; a
NaN or an infinity fails. -/
def Obligations.DutyCheckIsTheUnitInterval : Prop :=
  ∀ w : Word, dutyInRange w = true ↔ isFinite w ∧ 0 ≤ val32 w ∧ val32 w ≤ 1

/-- R181 to R183, R247: SET_DUTY_CYCLE, START and STOP whose write of index j FAILs answer HardwareError after the
writes before it; the channel's record, `active` included, and everything else is unchanged. -/
def Obligations.FailedChannelWriteKeepsTheRecord : Prop :=
  ∀ (s : State) (n : Fin 16) (w : Word) (j : Nat), ready s → j < 4 → failsAfter s j →
    (dutyInRange w = true → exec (.setDutyCycle (BitVec.ofNat 8 n.val) w) s = .next
      (ended s (cutAt (timingEvents s n (computeTiming s.params.dutyProductArith w)) j) (j + 1) 6)) ∧
    exec (.start (BitVec.ofNat 8 n.val)) s = .next (ended s (cutAt (storedEvents s n) j) (j + 1) 6) ∧
    exec (.stop (BitVec.ofNat 8 n.val)) s = .next (ended s (cutAt (stopEvents s n) j) (j + 1) 6)

/-- R184, R246: CONFIGURE_CHANNEL failing at a channel write (steps 7 to 10) has already applied and recorded the new
frequency and leaves the channel's record unchanged; failing at steps 1 to 5 it leaves both unchanged. -/
def Obligations.FailedConfigureChannelIsNotRolledBack : Prop :=
  ∀ (s : State) (n : Fin 16) (f w : Word) (j : Nat), ready s → 24 ≤ f.toNat → f.toNat ≤ 1526 →
    dutyInRange w = true → j < 9 → failsAfter s j →
    let p := computePrescale f.toNat
    exec (.configureChannel (BitVec.ofNat 8 n.val) f w) s = .next
      { ended s
          (cutAt (prescaleEvents s.cfg.i2cAddress s.params.sleepMask p (byteAt s 0) (byteAt s 3) ++
            timingEvents s n (computeTiming s.params.dutyProductArith w)) (if j < 5 then j else j + 1)) (j + 1) 6 with
        cfg := if j < 5 then s.cfg else withFrequency s f p
        dsmState := if j < 2 then s.dsmState else if j < 5 then .asleep else .awake }

/-- R183: SET_DUTY_CYCLE, STOP, START on one channel, every transaction answered OK: all three succeed, the last
writes exactly what the first wrote, and the record is the one the first left. -/
def Obligations.StopThenStartRestoresTheDuty : Prop :=
  ∀ (s : State) (n : Fin 16) (w : Word), ready s → dutyInRange w = true → okFor s 12 →
    ∃ t u v : State,
      exec (.setDutyCycle (BitVec.ofNat 8 n.val) w) s = .next t ∧ t.status = 0 ∧
      exec (.stop (BitVec.ofNat 8 n.val)) t = .next u ∧ u.status = 0 ∧
      exec (.start (BitVec.ofNat 8 n.val)) u = .next v ∧ v.status = 0 ∧
      v.channels = t.channels ∧ (v.channel n).dutyCycle = w ∧
      ∃ es, t.trace = s.trace ++ es ∧ v.trace = u.trace ++ es

/-! ## Batches (44_channel_facade.md R185 to R188) -/

/-- R185 to R188: a batch of valid elements on a ready instance, every transaction answered OK, applies its elements
in order and succeeds; a channel may appear more than once, and the last duty of a channel stays. -/
def Obligations.BatchAppliesEveryElement : Prop :=
  (∀ (s : State) (ns : List (Fin 16)), ready s → ns ≠ [] → okFor s (4 * ns.length) →
    exec (.startMultiple (ns.map fun n => BitVec.ofNat 8 n.val)) s = .next
      { ended s (ns.flatMap (storedEvents s)) (4 * ns.length) 0 with channels := withActive s ns true } ∧
    exec (.stopMultiple (ns.map fun n => BitVec.ofNat 8 n.val)) s = .next
      { ended s (ns.flatMap (stopEvents s)) (4 * ns.length) 0 with channels := withActive s ns false }) ∧
  (∀ (s : State) (es : List (Fin 16 × Word)), ready s → es ≠ [] → (∀ e ∈ es, dutyInRange e.2 = true) →
    okFor s (4 * es.length) →
    exec (.setDutyCycleMultiple (es.map fun e => (BitVec.ofNat 8 e.1.val, e.2))) s = .next
      { ended s (es.flatMap fun e => timingEvents s e.1 (computeTiming s.params.dutyProductArith e.2))
          (4 * es.length) 0 with
        channels := withDuties s es })

/-- R185, R219: an empty batch answers InvalidArgument on an initialized instance and NotInitialized, like any batch,
on one that is not; neither has an event or a state change. -/
def Obligations.EmptyAndUninitializedBatches : Prop :=
  ∀ (s : State) (chs : List Byte) (es : List (Byte × Word)), alive s →
    (s.cfg.initialized = false →
      exec (.startMultiple chs) s = .next (rejectedWith s 1) ∧
      exec (.stopMultiple chs) s = .next (rejectedWith s 1) ∧
      exec (.setDutyCycleMultiple es) s = .next (rejectedWith s 1)) ∧
    (s.cfg.initialized = true →
      exec (.startMultiple []) s = .next (rejectedWith s 5) ∧
      exec (.stopMultiple []) s = .next (rejectedWith s 5) ∧
      exec (.setDutyCycleMultiple []) s = .next (rejectedWith s 5))

/-- R185, R186: a batch stops at its first invalid element, whatever follows it: the valid elements before it stay
applied, it has no event of its own, and its error is the batch's. -/
def Obligations.BatchStopsAtTheFirstInvalidElement : Prop :=
  (∀ (s : State) (ns : List (Fin 16)) (c : Byte) (rest : List Byte), ready s → okFor s (4 * ns.length) →
    16 ≤ c.toNat →
    exec (.startMultiple ((ns.map fun n => BitVec.ofNat 8 n.val) ++ c :: rest)) s = .next
      { ended s (ns.flatMap (storedEvents s)) (4 * ns.length) 2 with channels := withActive s ns true } ∧
    exec (.stopMultiple ((ns.map fun n => BitVec.ofNat 8 n.val) ++ c :: rest)) s = .next
      { ended s (ns.flatMap (stopEvents s)) (4 * ns.length) 2 with channels := withActive s ns false }) ∧
  (∀ (s : State) (es : List (Fin 16 × Word)) (c : Byte) (w : Word) (rest : List (Byte × Word)), ready s →
    (∀ e ∈ es, dutyInRange e.2 = true) → okFor s (4 * es.length) → 16 ≤ c.toNat ∨ dutyInRange w = false →
    exec (.setDutyCycleMultiple ((es.map fun e => (BitVec.ofNat 8 e.1.val, e.2)) ++ (c, w) :: rest)) s = .next
      { ended s (es.flatMap fun e => timingEvents s e.1 (computeTiming s.params.dutyProductArith e.2))
          (4 * es.length) (if 16 ≤ c.toNat then 2 else 4) with
        channels := withDuties s es })

/-- R185, R214, R215: a batch whose transaction of index j FAILs answers HardwareError; the elements below j/4 stay
applied and every other record is unchanged. -/
def Obligations.BatchStopsAtAFailedTransaction : Prop :=
  (∀ (s : State) (ns : List (Fin 16)) (j : Nat), ready s → j < 4 * ns.length → failsAfter s j →
    exec (.startMultiple (ns.map fun n => BitVec.ofNat 8 n.val)) s = .next
      { ended s (cutAt (ns.flatMap (storedEvents s)) j) (j + 1) 6 with
        channels := withActive s (ns.take (j / 4)) true } ∧
    exec (.stopMultiple (ns.map fun n => BitVec.ofNat 8 n.val)) s = .next
      { ended s (cutAt (ns.flatMap (stopEvents s)) j) (j + 1) 6 with
        channels := withActive s (ns.take (j / 4)) false }) ∧
  (∀ (s : State) (es : List (Fin 16 × Word)) (j : Nat), ready s → (∀ e ∈ es, dutyInRange e.2 = true) →
    j < 4 * es.length → failsAfter s j →
    exec (.setDutyCycleMultiple (es.map fun e => (BitVec.ofNat 8 e.1.val, e.2))) s = .next
      { ended s
          (cutAt (es.flatMap fun e => timingEvents s e.1 (computeTiming s.params.dutyProductArith e.2)) j) (j + 1) 6
        with channels := withDuties s (es.take (j / 4)) })

/-! ## Stubs (44_channel_facade.md R189 to R195) -/

/-- R189: every stub answers NotSupported for every channel field, initialized or not, with no event and no state
change. -/
def Obligations.StubsAlwaysAnswerNotSupported : Prop :=
  ∀ (s : State) (c : Byte), alive s →
    exec (.setPhase c) s = .next (rejectedWith s 7) ∧ exec (.configureFade c) s = .next (rejectedWith s 7) ∧
    exec (.startFade c) s = .next (rejectedWith s 7) ∧
    exec (.configureComplementary c) s = .next (rejectedWith s 7) ∧
    exec (.setDeadTime c) s = .next (rejectedWith s 7) ∧ exec (.registerCallback c) s = .next (rejectedWith s 7)

/-! ## The whole machine -/

/-- R39, R240: what construction leaves, for all three arguments and every parameter; the values of STATUS and RESULT
are unspecified and not stated. -/
def Obligations.ConstructionState : Prop :=
  ∀ (p : Params) (a : Byte) (pin : Option Int) (tp : Bool),
    let s := State.construct p a pin tp
    s.params = p ∧
    s.cfg = { i2cAddress := a, outputEnablePin := pin, transportPresent := tp, initialized := false,
              currentFrequencyHz := 0, prescale := 0 } ∧
    s.dsmState = .uninit ∧ s.pc = none ∧ s.trace = [] ∧
    (∀ n, s.channel n = { active := false, dutyCycle := 0x00000000, onCount := 0, offCount := 4095 }) ∧
    State.reset.cfg.i2cAddress = 0x40 ∧ State.reset.cfg.outputEnablePin = none

/-- The invariant holds after construction, whatever its arguments, and so at reset. -/
def Obligations.InvariantHoldsAtConstruction : Prop :=
  (∀ (p : Params) (a : Byte) (pin : Option Int) (tp : Bool), Inv (State.construct p a pin tp)) ∧ Inv State.reset

/-- R22, R29, R33, R35, R27: every step that completes keeps the invariant, from every state that meets it (R29's
sentence is asked of every state but DESTROYED, which is the model's choice: log 15). -/
def Obligations.StepKeepsTheInvariant : Prop :=
  ∀ s t : State, Inv s → step s = .next t → Inv t

/-- R23 to R25, R10: no command writes the construction arguments or the parameters. -/
def Obligations.ConstructionArgumentsAreNeverWritten : Prop :=
  ∀ s t : State, step s = .next t →
    t.params = s.params ∧ t.cfg.i2cAddress = s.cfg.i2cAddress ∧ t.cfg.outputEnablePin = s.cfg.outputEnablePin ∧
    t.cfg.transportPresent = s.cfg.transportPresent

/-- R26: only a successful INITIALIZE sets `cfg.initialized`, and only a successful DEINITIALIZE, run as the command or
forced by DESTROY, clears it. -/
def Obligations.OnlyInitializeAndDeinitializeChangeInitialized : Prop :=
  ∀ (i : Instr) (s t : State), exec i s = .next t →
    (s.cfg.initialized = false → t.cfg.initialized = true → i = .initializeDevice ∧ t.status = 0) ∧
    (s.cfg.initialized = true → t.cfg.initialized = false →
      (i = .deinitialize ∨ i = .destroy) ∧ t.status = 0)

/-- R212: a command that completes ends with Success or an error of its row, its response is its STATUS word, followed
by RESULT exactly for a compute command that succeeded; so no code is above 7 (R210, R97). That the other commands
leave RESULT as it was is the model's reading of R31 (log 18). -/
def Obligations.StatusIsOneOfTheCommandsOwn : Prop :=
  ∀ (i : Instr) (s t : State), exec i s = .next t →
    t.status ∈ possibleStatus i ∧ t.status.toNat ≤ 7 ∧
    t.response = t.status.setWidth 32 ::
      (if t.status = 0 ∧ ((∃ f, i = .computePrescale f) ∨ ∃ w, i = .computeTiming w) then [t.result] else []) ∧
    ((∀ f, i ≠ .computePrescale f) → (∀ w, i ≠ .computeTiming w) → t.result = s.result)

/-- R213, R180: a command other than a batch that answers an error other than HardwareError has had no effect at all. -/
def Obligations.CheckErrorsHaveNoSideEffect : Prop :=
  ∀ (i : Instr) (s t : State), exec i s = .next t → isBatch i = false → t.status ≠ 0 → t.status ≠ 6 →
    t = rejectedWith s t.status

/-- R214, R150: the events of a command that completes all completed, but for the last one of a command that answers
HardwareError, which FAILed; the trace of earlier commands is kept (R73). With no transport a command emits nothing
(the model's reading of R60: log 12). -/
def Obligations.OnlyTheLastEventFails : Prop :=
  (∀ (i : Instr) (s t : State), s.cfg.transportPresent = true → exec i s = .next t →
    ∃ es, t.trace = s.trace ++ es ∧ (∀ e ∈ es.dropLast, succeeded e) ∧
      (t.status = 6 → ∃ e, es.getLast? = some e ∧ e.reply = .failed) ∧
      (t.status ≠ 6 → ∀ e ∈ es, succeeded e)) ∧
  (∀ (i : Instr) (s t : State), s.cfg.transportPresent = false → exec i s = .next t → t.trace = s.trace)

/-- R61, R248, R22: a hung transaction, and nothing else, stops a command. Whichever command faults, a transaction of its
own was never answered: that event is the last of the stuck trace, those before it in the command completed, `pc`
names its step, and no response was given. And in every command with transactions, whichever of them is the first not
answered OK, if it is never answered the command stops there: its events are cut at that one, and only what the
steps before it assigned has changed (`dsm_state` is RESETTING inside INITIALIZE, as R160 sets it). The fault's name and
that `pc` counts delays are the model's (logs 3 and 18). -/
def Obligations.OnlyAHungTransactionStops : Prop :=
  (∀ (i : Instr) (s : State) (r : Fault), exec i s = .fault r →
    ∃ (u : State) (es : List Entry) (e : Event), r = .transportHang u ∧
      u.trace = s.trace ++ es ++ [⟨e, .unanswered⟩] ∧ (∀ e ∈ es, succeeded e) ∧ u.pc = some (es.length + 1) ∧
      u.status = s.status ∧ u.result = s.result ∧ u.response = s.response) ∧
  (∀ (s : State) (j : Nat), alive s → s.cfg.initialized = false → s.cfg.transportPresent = true → j < 11 →
    hangsAfter s j →
    exec .initializeDevice s = .fault (.transportHang
      { hung s (bringUpEvents s (computePrescale s.params.defaultFrequencyHz.val)) (if j < 7 then j else j + 1) j with
        dsmState := .resetting })) ∧
  (∀ (s : State) (f : Word) (j : Nat), ready s → 24 ≤ f.toNat → f.toNat ≤ 1526 → j < 5 → hangsAfter s j →
    exec (.setFrequency f) s = .fault (.transportHang
      { hung s (prescaleEvents s.cfg.i2cAddress s.params.sleepMask (computePrescale f.toNat) (byteAt s 0)
          (byteAt s 3)) j j with
        dsmState := if j < 2 then s.dsmState else .asleep })) ∧
  (∀ (s : State) (j : Nat), ready s → j < 2 → hangsAfter s j →
    exec .sleep s = .fault (.transportHang
      (hung s (sleepEvents s.cfg.i2cAddress s.params.sleepMask (byteAt s 0)) j j)) ∧
    exec .wakeup s = .fault (.transportHang
      (hung s (wakeEvents s.cfg.i2cAddress s.params.sleepMask (byteAt s 0)) j j))) ∧
  (∀ (s : State) (j : Nat), ready s → j < 67 → hangsAfter s j →
    let u : State :=
      { hung s (deinitializeEvents s) j j with
        dsmState := if j = 66 then .asleep else s.dsmState
        channels := withActive s (allChannels.filter fun n => n.val < j / 4) false }
    exec .deinitialize s = .fault (.transportHang u) ∧ exec .destroy s = .fault (.transportHang u)) ∧
  (∀ (s : State) (n : Fin 16) (w : Word) (j : Nat), ready s → j < 4 → hangsAfter s j →
    (dutyInRange w = true → exec (.setDutyCycle (BitVec.ofNat 8 n.val) w) s = .fault (.transportHang
      (hung s (timingEvents s n (computeTiming s.params.dutyProductArith w)) j j))) ∧
    exec (.start (BitVec.ofNat 8 n.val)) s = .fault (.transportHang (hung s (storedEvents s n) j j)) ∧
    exec (.stop (BitVec.ofNat 8 n.val)) s = .fault (.transportHang (hung s (stopEvents s n) j j))) ∧
  (∀ (s : State) (n : Fin 16) (f w : Word) (j : Nat), ready s → 24 ≤ f.toNat → f.toNat ≤ 1526 →
    dutyInRange w = true → j < 9 → hangsAfter s j →
    let p := computePrescale f.toNat
    exec (.configureChannel (BitVec.ofNat 8 n.val) f w) s = .fault (.transportHang
      { hung s
          (prescaleEvents s.cfg.i2cAddress s.params.sleepMask p (byteAt s 0) (byteAt s 3) ++
            timingEvents s n (computeTiming s.params.dutyProductArith w)) (if j < 5 then j else j + 1) j with
        cfg := if j < 5 then s.cfg else withFrequency s f p
        dsmState := if j < 2 then s.dsmState else if j < 5 then .asleep else .awake })) ∧
  (∀ (s : State) (ns : List (Fin 16)) (rest : List Byte) (j : Nat), ready s → j < 4 * ns.length → hangsAfter s j →
    exec (.startMultiple ((ns.map fun n => BitVec.ofNat 8 n.val) ++ rest)) s = .fault (.transportHang
      { hung s (ns.flatMap (storedEvents s)) j j with channels := withActive s (ns.take (j / 4)) true }) ∧
    exec (.stopMultiple ((ns.map fun n => BitVec.ofNat 8 n.val) ++ rest)) s = .fault (.transportHang
      { hung s (ns.flatMap (stopEvents s)) j j with channels := withActive s (ns.take (j / 4)) false })) ∧
  (∀ (s : State) (es : List (Fin 16 × Word)) (rest : List (Byte × Word)) (j : Nat), ready s →
    (∀ e ∈ es, dutyInRange e.2 = true) → j < 4 * es.length → hangsAfter s j →
    exec (.setDutyCycleMultiple ((es.map fun e => (BitVec.ofNat 8 e.1.val, e.2)) ++ rest)) s = .fault (.transportHang
      { hung s (es.flatMap fun e => timingEvents s e.1 (computeTiming s.params.dutyProductArith e.2)) j j with
        channels := withDuties s (es.take (j / 4)) }))

/-- R59 to R61, R217: on an instance that is not destroyed every command completes with a response, unless one of the
transactions it may make is never answered: it makes at most as many as its trace has when all are answered OK. -/
def Obligations.EveryCommandCompletesUnlessHung : Prop :=
  ∀ (i : Instr) (s : State), alive s → (∀ k < transactionsOf i, s.upcoming k ≠ .hang) → ∃ t, exec i s = .next t

/-- R244, R57: from any trace in which every PRE_SCALE write came right after SLEEP was set, and had a value in
[3, 255], each step leaves such a trace. -/
def Obligations.PrescaleIsWrittenOnlyAsleep : Prop :=
  ∀ s t : State, everyEntry (prescaleGuarded s.params.sleepMask) s.trace → step s = .next t →
    everyEntry (prescaleGuarded t.params.sleepMask) t.trace

/-- R243: from any trace in which every clear of SLEEP was followed at once by the settle delay, each step leaves such
a trace: no transaction, of this command or a later one, comes between. -/
def Obligations.EveryWakeSettles : Prop :=
  ∀ s t : State, wakesSettle s.params.sleepMask s.trace → step s = .next t →
    wakesSettle t.params.sleepMask t.trace

/-- R151, R245: from any trace in which every mode register write came right after a read of the same register and
changed no bit but SLEEP or OUTDRV, each step leaves such a trace: RESTART and every other bit go back as read. -/
def Obligations.ModeWritesKeepTheOtherBits : Prop :=
  ∀ s t : State, everyEntry (modeWritePreserves s.params) s.trace → step s = .next t →
    everyEntry (modeWritePreserves t.params) t.trace

/-- R51, R58, R62 to R67, R72, R78: every transaction a step makes goes to `cfg.i2c_address`, or is the general call, and
touches only the registers of the map; no high byte has a bit in 7:4. Each event is one transport call of the bytes
the rules give: a read of one byte after its register's address, a write of address and value, the payload
{0x00, 0x06} to bus address 0x00, the transport's initialization and release; a delay is none. -/
def Obligations.TransactionsStayOnTheRegisterMap : Prop :=
  (∀ s t : State, step s = .next t →
    ∃ es, t.trace = s.trace ++ es ∧ ∀ e ∈ es, onRegisterMap s.cfg.i2cAddress e.event ∧
      (∀ dev bytes, transportCall e.event = some (.write dev bytes) → e.event = .GC ∨ dev = s.cfg.i2cAddress) ∧
      (∀ dev bytes n, transportCall e.event = some (.writeRead dev bytes n) → dev = s.cfg.i2cAddress)) ∧
  transportCall .TI = some .init ∧ transportCall .TD = some .deinit ∧
  transportCall .GC = some (.write 0x00 [0x00, 0x06]) ∧
  (∀ dev r : Byte, transportCall (.RD dev r) = some (.writeRead dev [r] 1)) ∧
  (∀ dev r v : Byte, transportCall (.WR dev r v) = some (.write dev [r, v])) ∧
  (∀ us : Nat, transportCall (.DLY us) = none)
end

