-- ==== Sys2Proof/Laws/Calculators.lean ====
section
/-! SUPPORT. The small lemmas of the calculators: integer rounding against `RHA` over the rationals, the clamp to a
byte, the exact value of a binary32 pattern, and rounding to binary32. -/

namespace Sys2Proof.Machine

/-! ## Rounding (00_scope.md R14) -/

/-- The integer form of R120 rounds the rational quotient half away from zero. -/
theorem roundHalfAway_eq_RHA (a : Int) {b : Nat} (hb : 0 < b) : roundHalfAway a b = RHA ((a : ℚ) / b) := by
  have hb' : (b : ℚ) ≠ 0 := by positivity
  have hbp : (0 : ℚ) < b := by positivity
  have floor_div (x : Int) (n : Nat) : ⌊(x : ℚ) / n⌋ = x / (n : Int) := Rat.floor_intCast_div_natCast x n
  have up : (a : ℚ) / b + 1 / 2 = ((2 * a + b : Int) : ℚ) / ((2 * b : Nat) : ℚ) := by push_cast; field_simp
  have down : -((a : ℚ) / b) + 1 / 2 = ((b - 2 * a : Int) : ℚ) / ((2 * b : Nat) : ℚ) := by
    push_cast; field_simp; ring
  have sign : (0 ≤ (a : ℚ) / b) ↔ 0 ≤ a := by
    rw [div_nonneg_iff]
    constructor
    · rintro (⟨h, -⟩ | ⟨-, h⟩)
      · exact_mod_cast h
      · exact absurd h (by linarith)
    · exact fun h => .inl ⟨by exact_mod_cast h, hbp.le⟩
  unfold roundHalfAway RHA
  simp only [sign, up, down, floor_div]
  push_cast
  rfl

/-- Rounding is monotone. -/
theorem RHA_mono {x y : ℚ} (h : x ≤ y) : RHA x ≤ RHA y := by
  unfold RHA
  split <;> split
  · exact Int.floor_le_floor (by linarith)
  · exfalso; linarith
  · have h1 : 0 ≤ ⌊y + 1 / 2⌋ := Int.floor_nonneg.2 (by linarith)
    have h2 : 0 ≤ ⌊-x + 1 / 2⌋ := Int.floor_nonneg.2 (by linarith)
    omega
  · have := Int.floor_le_floor (show -y + 1 / 2 ≤ -x + 1 / 2 by linarith)
    omega

/-! ## The prescale (41_frequency_calculator.md R120) -/

/-- The prescale byte is the clamped value itself: clamping to [3, 255] makes it fit. -/
theorem computePrescale_toNat (f : Nat) : ((computePrescale f).toNat : Int) = min 255 (max 3 (rawPrescale f)) := by
  simp only [computePrescale, clamp, prescaleMin, prescaleMax, BitVec.toNat_ofInt]
  push_cast
  omega

/-! ## binary32 (00_scope.md R15) -/

theorem expField_eq (w : Word) : expField w = w.toNat / 2 ^ 23 % 2 ^ 8 := by
  simp [expField, Nat.shiftRight_eq_div_pow]

theorem fracField_eq (w : Word) : fracField w = w.toNat % 2 ^ 23 := by
  simp [fracField]

theorem signBit_iff (w : Word) : signBit w = true ↔ w.toNat / 2 ^ 31 ≠ 0 := by
  have := w.isLt
  rw [signBit, BitVec.msb_eq_decide]
  simp

/-- The magnitude, in units of 2^-150, is the absolute value of the pattern; the sign is its bit 31. -/
theorem val32_eq (w : Word) :
    val32 w = (if signBit w = true then -1 else 1) * ((magnitude w : ℚ) / 2 ^ 150) := by
  have scale (e : Nat) : (2 : ℚ) ^ ((e : Int) - 150) = 2 ^ e / 2 ^ 150 := by
    rw [zpow_sub₀ (by norm_num)]; norm_cast
  have hs : (if signBit w = true then (-1 : ℚ) else 1) = if w.toNat / 2 ^ 31 = 0 then 1 else -1 := by
    by_cases h : w.toNat / 2 ^ 31 = 0
    · rw [if_neg (by rw [signBit_iff]; exact fun h' => h' h), if_pos h]
    · rw [if_pos ((signBit_iff w).2 h), if_neg h]
  unfold val32 magnitude significand
  rw [hs, expField_eq, fracField_eq]
  simp only
  generalize (if w.toNat / 2 ^ 31 = 0 then (1 : ℚ) else -1) = s
  by_cases he : w.toNat / 2 ^ 23 % 2 ^ 8 = 0
  · simp only [he, if_true]
    rw [show (-149 : Int) = ((1 : Nat) : Int) - 150 by norm_num, scale]
    push_cast; simp; ring
  · rw [if_neg he, if_neg he, scale, max_eq_left (by omega)]
    push_cast; ring

theorem isNaN_of_isFinite {w : Word} (h : isFinite w) : isNaN w = false := by
  unfold isNaN
  rw [expField_eq]
  rw [Bool.and_eq_false_iff]
  exact .inl (beq_eq_false_iff_ne.2 h)

/-- In the third case of the timing policy the magnitude is below 1. -/
theorem magnitude_lt {w : Word} (h0 : ¬ isZeroOrBelow w = true) (h1 : ¬ isOneOrAbove w = true) :
    magnitude w < unitScale := by
  simp [isZeroOrBelow, isOneOrAbove] at h0 h1
  exact h1 h0.1

/-- Rounding to binary32 goes to one of the two neighbouring multiples of its unit, up only from the upper half. -/
theorem roundToBinary32_cases {p k : Nat} (hk : max (p.log2 - 23) 1 = k) :
    roundToBinary32 p = p / 2 ^ k * 2 ^ k ∨
      (roundToBinary32 p = (p / 2 ^ k + 1) * 2 ^ k ∧ (p / 2 ^ k + 1) * 2 ^ k ≤ p + 2 ^ (k - 1)) := by
  have hr : roundToBinary32 p =
      (if 2 ^ (k - 1) < p % 2 ^ k ∨ (p % 2 ^ k = 2 ^ (k - 1) ∧ p / 2 ^ k % 2 = 1) then p / 2 ^ k + 1
        else p / 2 ^ k) * 2 ^ k := by
    simp only [roundToBinary32, Nat.shiftRight_eq_div_pow, hk]
  rw [hr]
  split
  · refine .inr ⟨rfl, ?_⟩
    have h1 := Nat.div_add_mod p (2 ^ k)
    have h2 : 2 ^ k = 2 * 2 ^ (k - 1) := by rw [← Nat.pow_succ']; congr 1; omega
    have h3 : (p / 2 ^ k + 1) * 2 ^ k = 2 ^ k * (p / 2 ^ k) + 2 ^ k := by ring
    omega
  · exact .inl rfl

/-- The third case's off count: the product in units of 2^-150, halves up (R130). -/
theorem roundHalfAway_natCast (p : Nat) :
    (roundHalfAway (p : Int) unitScale).toNat = (2 * p + unitScale) / (2 * unitScale) := by
  simp only [roundHalfAway, unitScale]
  rw [if_pos (by omega)]
  omega

/-- Rounding to binary32 does not pass 4095, which binary32 represents. -/
theorem roundToBinary32_le {p : Nat} (hp : p < counterMax * unitScale) :
    roundToBinary32 p ≤ counterMax * unitScale := by
  unfold roundToBinary32
  simp only [counterMax, unitScale] at *
  have hl : p.log2 ≤ 161 := by
    by_contra h
    have h0 : p ≠ 0 := by rintro rfl; simp at h
    have := Nat.log2_self_le h0
    have : 2 ^ 162 ≤ 2 ^ p.log2 := Nat.pow_le_pow_right (by norm_num) (by omega)
    omega
  generalize hk : max (p.log2 - 23) 1 = k
  have hk' : k ≤ 138 := by omega
  have hM : 4095 * 2 ^ 150 = (4095 * 2 ^ (150 - k)) * 2 ^ k := by
    rw [Nat.mul_assoc, ← Nat.pow_add]; congr 2; omega
  rw [hM] at hp ⊢
  have hq : p >>> k < 4095 * 2 ^ (150 - k) := by
    rw [Nat.shiftRight_eq_div_pow]; exact Nat.div_lt_of_lt_mul (by rw [Nat.mul_comm]; exact hp)
  apply Nat.mul_le_mul_right
  split <;> omega

end Sys2Proof.Machine
end

