-- ==== Sys2Proof/Laws/State.lean ====
section
/-! SUPPORT. The state's small lemmas: for each update of Machine/Ops.lean, what every field is after it (true by
rfl), and the reads of a channel and of an upcoming answer after an update. -/

namespace Sys2Proof.Machine

/-! ### setDsm -/

@[simp] theorem State.setDsm_params (s : State) (d : DsmState) : (s.setDsm d).params = s.params := rfl
@[simp] theorem State.setDsm_cfg (s : State) (d : DsmState) : (s.setDsm d).cfg = s.cfg := rfl
@[simp] theorem State.setDsm_dsmState (s : State) (d : DsmState) : (s.setDsm d).dsmState = d := rfl
@[simp] theorem State.setDsm_pc (s : State) (d : DsmState) : (s.setDsm d).pc = s.pc := rfl
@[simp] theorem State.setDsm_status (s : State) (d : DsmState) : (s.setDsm d).status = s.status := rfl
@[simp] theorem State.setDsm_result (s : State) (d : DsmState) : (s.setDsm d).result = s.result := rfl
@[simp] theorem State.setDsm_response (s : State) (d : DsmState) : (s.setDsm d).response = s.response := rfl
@[simp] theorem State.setDsm_channels (s : State) (d : DsmState) : (s.setDsm d).channels = s.channels := rfl
@[simp] theorem State.setDsm_trace (s : State) (d : DsmState) : (s.setDsm d).trace = s.trace := rfl
@[simp] theorem State.setDsm_stream (s : State) (d : DsmState) : (s.setDsm d).stream = s.stream := rfl
@[simp] theorem State.setDsm_hostOverlap (s : State) (d : DsmState) : (s.setDsm d).hostOverlap = s.hostOverlap := rfl
@[simp] theorem State.setDsm_answers (s : State) (d : DsmState) : (s.setDsm d).answers = s.answers := rfl
@[simp] theorem State.setDsm_draws (s : State) (d : DsmState) : (s.setDsm d).draws = s.draws := rfl

/-! ### setInitialized -/

@[simp] theorem State.setInitialized_params (s : State) (b : Bool) : (s.setInitialized b).params = s.params := rfl
@[simp] theorem State.setInitialized_cfg (s : State) (b : Bool) : (s.setInitialized b).cfg = { s.cfg with initialized := b } := rfl
@[simp] theorem State.setInitialized_dsmState (s : State) (b : Bool) : (s.setInitialized b).dsmState = s.dsmState := rfl
@[simp] theorem State.setInitialized_pc (s : State) (b : Bool) : (s.setInitialized b).pc = s.pc := rfl
@[simp] theorem State.setInitialized_status (s : State) (b : Bool) : (s.setInitialized b).status = s.status := rfl
@[simp] theorem State.setInitialized_result (s : State) (b : Bool) : (s.setInitialized b).result = s.result := rfl
@[simp] theorem State.setInitialized_response (s : State) (b : Bool) : (s.setInitialized b).response = s.response := rfl
@[simp] theorem State.setInitialized_channels (s : State) (b : Bool) : (s.setInitialized b).channels = s.channels := rfl
@[simp] theorem State.setInitialized_trace (s : State) (b : Bool) : (s.setInitialized b).trace = s.trace := rfl
@[simp] theorem State.setInitialized_stream (s : State) (b : Bool) : (s.setInitialized b).stream = s.stream := rfl
@[simp] theorem State.setInitialized_hostOverlap (s : State) (b : Bool) : (s.setInitialized b).hostOverlap = s.hostOverlap := rfl
@[simp] theorem State.setInitialized_answers (s : State) (b : Bool) : (s.setInitialized b).answers = s.answers := rfl
@[simp] theorem State.setInitialized_draws (s : State) (b : Bool) : (s.setInitialized b).draws = s.draws := rfl

/-! ### setFrequency -/

@[simp] theorem State.setFrequency_params (s : State) (f : Word) (p : Byte) : (s.setFrequency f p).params = s.params := rfl
@[simp] theorem State.setFrequency_cfg (s : State) (f : Word) (p : Byte) : (s.setFrequency f p).cfg = { s.cfg with currentFrequencyHz := f, prescale := p } := rfl
@[simp] theorem State.setFrequency_dsmState (s : State) (f : Word) (p : Byte) : (s.setFrequency f p).dsmState = s.dsmState := rfl
@[simp] theorem State.setFrequency_pc (s : State) (f : Word) (p : Byte) : (s.setFrequency f p).pc = s.pc := rfl
@[simp] theorem State.setFrequency_status (s : State) (f : Word) (p : Byte) : (s.setFrequency f p).status = s.status := rfl
@[simp] theorem State.setFrequency_result (s : State) (f : Word) (p : Byte) : (s.setFrequency f p).result = s.result := rfl
@[simp] theorem State.setFrequency_response (s : State) (f : Word) (p : Byte) : (s.setFrequency f p).response = s.response := rfl
@[simp] theorem State.setFrequency_channels (s : State) (f : Word) (p : Byte) : (s.setFrequency f p).channels = s.channels := rfl
@[simp] theorem State.setFrequency_trace (s : State) (f : Word) (p : Byte) : (s.setFrequency f p).trace = s.trace := rfl
@[simp] theorem State.setFrequency_stream (s : State) (f : Word) (p : Byte) : (s.setFrequency f p).stream = s.stream := rfl
@[simp] theorem State.setFrequency_hostOverlap (s : State) (f : Word) (p : Byte) : (s.setFrequency f p).hostOverlap = s.hostOverlap := rfl
@[simp] theorem State.setFrequency_answers (s : State) (f : Word) (p : Byte) : (s.setFrequency f p).answers = s.answers := rfl
@[simp] theorem State.setFrequency_draws (s : State) (f : Word) (p : Byte) : (s.setFrequency f p).draws = s.draws := rfl

/-! ### setChannel -/

@[simp] theorem State.setChannel_params (s : State) (n : Fin 16) (r : ChannelRecord) : (s.setChannel n r).params = s.params := rfl
@[simp] theorem State.setChannel_cfg (s : State) (n : Fin 16) (r : ChannelRecord) : (s.setChannel n r).cfg = s.cfg := rfl
@[simp] theorem State.setChannel_dsmState (s : State) (n : Fin 16) (r : ChannelRecord) : (s.setChannel n r).dsmState = s.dsmState := rfl
@[simp] theorem State.setChannel_pc (s : State) (n : Fin 16) (r : ChannelRecord) : (s.setChannel n r).pc = s.pc := rfl
@[simp] theorem State.setChannel_status (s : State) (n : Fin 16) (r : ChannelRecord) : (s.setChannel n r).status = s.status := rfl
@[simp] theorem State.setChannel_result (s : State) (n : Fin 16) (r : ChannelRecord) : (s.setChannel n r).result = s.result := rfl
@[simp] theorem State.setChannel_response (s : State) (n : Fin 16) (r : ChannelRecord) : (s.setChannel n r).response = s.response := rfl
@[simp] theorem State.setChannel_channels (s : State) (n : Fin 16) (r : ChannelRecord) : (s.setChannel n r).channels = s.channels.set n.val r n.isLt := rfl
@[simp] theorem State.setChannel_trace (s : State) (n : Fin 16) (r : ChannelRecord) : (s.setChannel n r).trace = s.trace := rfl
@[simp] theorem State.setChannel_stream (s : State) (n : Fin 16) (r : ChannelRecord) : (s.setChannel n r).stream = s.stream := rfl
@[simp] theorem State.setChannel_hostOverlap (s : State) (n : Fin 16) (r : ChannelRecord) : (s.setChannel n r).hostOverlap = s.hostOverlap := rfl
@[simp] theorem State.setChannel_answers (s : State) (n : Fin 16) (r : ChannelRecord) : (s.setChannel n r).answers = s.answers := rfl
@[simp] theorem State.setChannel_draws (s : State) (n : Fin 16) (r : ChannelRecord) : (s.setChannel n r).draws = s.draws := rfl

/-! ### setActive -/

@[simp] theorem State.setActive_params (s : State) (n : Fin 16) (b : Bool) : (s.setActive n b).params = s.params := rfl
@[simp] theorem State.setActive_cfg (s : State) (n : Fin 16) (b : Bool) : (s.setActive n b).cfg = s.cfg := rfl
@[simp] theorem State.setActive_dsmState (s : State) (n : Fin 16) (b : Bool) : (s.setActive n b).dsmState = s.dsmState := rfl
@[simp] theorem State.setActive_pc (s : State) (n : Fin 16) (b : Bool) : (s.setActive n b).pc = s.pc := rfl
@[simp] theorem State.setActive_status (s : State) (n : Fin 16) (b : Bool) : (s.setActive n b).status = s.status := rfl
@[simp] theorem State.setActive_result (s : State) (n : Fin 16) (b : Bool) : (s.setActive n b).result = s.result := rfl
@[simp] theorem State.setActive_response (s : State) (n : Fin 16) (b : Bool) : (s.setActive n b).response = s.response := rfl
@[simp] theorem State.setActive_channels (s : State) (n : Fin 16) (b : Bool) : (s.setActive n b).channels = (s.setChannel n { s.channel n with active := b }).channels := rfl
@[simp] theorem State.setActive_trace (s : State) (n : Fin 16) (b : Bool) : (s.setActive n b).trace = s.trace := rfl
@[simp] theorem State.setActive_stream (s : State) (n : Fin 16) (b : Bool) : (s.setActive n b).stream = s.stream := rfl
@[simp] theorem State.setActive_hostOverlap (s : State) (n : Fin 16) (b : Bool) : (s.setActive n b).hostOverlap = s.hostOverlap := rfl
@[simp] theorem State.setActive_answers (s : State) (n : Fin 16) (b : Bool) : (s.setActive n b).answers = s.answers := rfl
@[simp] theorem State.setActive_draws (s : State) (n : Fin 16) (b : Bool) : (s.setActive n b).draws = s.draws := rfl

/-! ### setDutyRecord -/

@[simp] theorem State.setDutyRecord_params (s : State) (n : Fin 16) (w : Word) (t : Timing) : (s.setDutyRecord n w t).params = s.params := rfl
@[simp] theorem State.setDutyRecord_cfg (s : State) (n : Fin 16) (w : Word) (t : Timing) : (s.setDutyRecord n w t).cfg = s.cfg := rfl
@[simp] theorem State.setDutyRecord_dsmState (s : State) (n : Fin 16) (w : Word) (t : Timing) : (s.setDutyRecord n w t).dsmState = s.dsmState := rfl
@[simp] theorem State.setDutyRecord_pc (s : State) (n : Fin 16) (w : Word) (t : Timing) : (s.setDutyRecord n w t).pc = s.pc := rfl
@[simp] theorem State.setDutyRecord_status (s : State) (n : Fin 16) (w : Word) (t : Timing) : (s.setDutyRecord n w t).status = s.status := rfl
@[simp] theorem State.setDutyRecord_result (s : State) (n : Fin 16) (w : Word) (t : Timing) : (s.setDutyRecord n w t).result = s.result := rfl
@[simp] theorem State.setDutyRecord_response (s : State) (n : Fin 16) (w : Word) (t : Timing) : (s.setDutyRecord n w t).response = s.response := rfl
@[simp] theorem State.setDutyRecord_channels (s : State) (n : Fin 16) (w : Word) (t : Timing) : (s.setDutyRecord n w t).channels = (s.setChannel n { active := true, dutyCycle := w, onCount := t.on, offCount := t.off }).channels := rfl
@[simp] theorem State.setDutyRecord_trace (s : State) (n : Fin 16) (w : Word) (t : Timing) : (s.setDutyRecord n w t).trace = s.trace := rfl
@[simp] theorem State.setDutyRecord_stream (s : State) (n : Fin 16) (w : Word) (t : Timing) : (s.setDutyRecord n w t).stream = s.stream := rfl
@[simp] theorem State.setDutyRecord_hostOverlap (s : State) (n : Fin 16) (w : Word) (t : Timing) : (s.setDutyRecord n w t).hostOverlap = s.hostOverlap := rfl
@[simp] theorem State.setDutyRecord_answers (s : State) (n : Fin 16) (w : Word) (t : Timing) : (s.setDutyRecord n w t).answers = s.answers := rfl
@[simp] theorem State.setDutyRecord_draws (s : State) (n : Fin 16) (w : Word) (t : Timing) : (s.setDutyRecord n w t).draws = s.draws := rfl

/-! ### setPc -/

@[simp] theorem State.setPc_params (s : State) (k : Option Nat) : (s.setPc k).params = s.params := rfl
@[simp] theorem State.setPc_cfg (s : State) (k : Option Nat) : (s.setPc k).cfg = s.cfg := rfl
@[simp] theorem State.setPc_dsmState (s : State) (k : Option Nat) : (s.setPc k).dsmState = s.dsmState := rfl
@[simp] theorem State.setPc_pc (s : State) (k : Option Nat) : (s.setPc k).pc = k := rfl
@[simp] theorem State.setPc_status (s : State) (k : Option Nat) : (s.setPc k).status = s.status := rfl
@[simp] theorem State.setPc_result (s : State) (k : Option Nat) : (s.setPc k).result = s.result := rfl
@[simp] theorem State.setPc_response (s : State) (k : Option Nat) : (s.setPc k).response = s.response := rfl
@[simp] theorem State.setPc_channels (s : State) (k : Option Nat) : (s.setPc k).channels = s.channels := rfl
@[simp] theorem State.setPc_trace (s : State) (k : Option Nat) : (s.setPc k).trace = s.trace := rfl
@[simp] theorem State.setPc_stream (s : State) (k : Option Nat) : (s.setPc k).stream = s.stream := rfl
@[simp] theorem State.setPc_hostOverlap (s : State) (k : Option Nat) : (s.setPc k).hostOverlap = s.hostOverlap := rfl
@[simp] theorem State.setPc_answers (s : State) (k : Option Nat) : (s.setPc k).answers = s.answers := rfl
@[simp] theorem State.setPc_draws (s : State) (k : Option Nat) : (s.setPc k).draws = s.draws := rfl

/-! ### advance -/

@[simp] theorem State.advance_params (s : State) : (s.advance).params = s.params := rfl
@[simp] theorem State.advance_cfg (s : State) : (s.advance).cfg = s.cfg := rfl
@[simp] theorem State.advance_dsmState (s : State) : (s.advance).dsmState = s.dsmState := rfl
@[simp] theorem State.advance_pc (s : State) : (s.advance).pc = s.pc.map (· + 1) := rfl
@[simp] theorem State.advance_status (s : State) : (s.advance).status = s.status := rfl
@[simp] theorem State.advance_result (s : State) : (s.advance).result = s.result := rfl
@[simp] theorem State.advance_response (s : State) : (s.advance).response = s.response := rfl
@[simp] theorem State.advance_channels (s : State) : (s.advance).channels = s.channels := rfl
@[simp] theorem State.advance_trace (s : State) : (s.advance).trace = s.trace := rfl
@[simp] theorem State.advance_stream (s : State) : (s.advance).stream = s.stream := rfl
@[simp] theorem State.advance_hostOverlap (s : State) : (s.advance).hostOverlap = s.hostOverlap := rfl
@[simp] theorem State.advance_answers (s : State) : (s.advance).answers = s.answers := rfl
@[simp] theorem State.advance_draws (s : State) : (s.advance).draws = s.draws := rfl

/-! ### record -/

@[simp] theorem State.record_params (s : State) (e : Entry) : (s.record e).params = s.params := rfl
@[simp] theorem State.record_cfg (s : State) (e : Entry) : (s.record e).cfg = s.cfg := rfl
@[simp] theorem State.record_dsmState (s : State) (e : Entry) : (s.record e).dsmState = s.dsmState := rfl
@[simp] theorem State.record_pc (s : State) (e : Entry) : (s.record e).pc = s.pc := rfl
@[simp] theorem State.record_status (s : State) (e : Entry) : (s.record e).status = s.status := rfl
@[simp] theorem State.record_result (s : State) (e : Entry) : (s.record e).result = s.result := rfl
@[simp] theorem State.record_response (s : State) (e : Entry) : (s.record e).response = s.response := rfl
@[simp] theorem State.record_channels (s : State) (e : Entry) : (s.record e).channels = s.channels := rfl
@[simp] theorem State.record_trace (s : State) (e : Entry) : (s.record e).trace = s.trace ++ [e] := rfl
@[simp] theorem State.record_stream (s : State) (e : Entry) : (s.record e).stream = s.stream := rfl
@[simp] theorem State.record_hostOverlap (s : State) (e : Entry) : (s.record e).hostOverlap = s.hostOverlap := rfl
@[simp] theorem State.record_answers (s : State) (e : Entry) : (s.record e).answers = s.answers := rfl
@[simp] theorem State.record_draws (s : State) (e : Entry) : (s.record e).draws = s.draws := rfl

/-! ### drawn -/

@[simp] theorem State.drawn_params (s : State) : (s.drawn).params = s.params := rfl
@[simp] theorem State.drawn_cfg (s : State) : (s.drawn).cfg = s.cfg := rfl
@[simp] theorem State.drawn_dsmState (s : State) : (s.drawn).dsmState = s.dsmState := rfl
@[simp] theorem State.drawn_pc (s : State) : (s.drawn).pc = s.pc := rfl
@[simp] theorem State.drawn_status (s : State) : (s.drawn).status = s.status := rfl
@[simp] theorem State.drawn_result (s : State) : (s.drawn).result = s.result := rfl
@[simp] theorem State.drawn_response (s : State) : (s.drawn).response = s.response := rfl
@[simp] theorem State.drawn_channels (s : State) : (s.drawn).channels = s.channels := rfl
@[simp] theorem State.drawn_trace (s : State) : (s.drawn).trace = s.trace := rfl
@[simp] theorem State.drawn_stream (s : State) : (s.drawn).stream = s.stream := rfl
@[simp] theorem State.drawn_hostOverlap (s : State) : (s.drawn).hostOverlap = s.hostOverlap := rfl
@[simp] theorem State.drawn_answers (s : State) : (s.drawn).answers = s.answers.drop 1 := rfl
@[simp] theorem State.drawn_draws (s : State) : (s.drawn).draws = s.draws + 1 := rfl

/-! ### setStream -/

@[simp] theorem State.setStream_params (s : State) (ws : List Word) : (s.setStream ws).params = s.params := rfl
@[simp] theorem State.setStream_cfg (s : State) (ws : List Word) : (s.setStream ws).cfg = s.cfg := rfl
@[simp] theorem State.setStream_dsmState (s : State) (ws : List Word) : (s.setStream ws).dsmState = s.dsmState := rfl
@[simp] theorem State.setStream_pc (s : State) (ws : List Word) : (s.setStream ws).pc = s.pc := rfl
@[simp] theorem State.setStream_status (s : State) (ws : List Word) : (s.setStream ws).status = s.status := rfl
@[simp] theorem State.setStream_result (s : State) (ws : List Word) : (s.setStream ws).result = s.result := rfl
@[simp] theorem State.setStream_response (s : State) (ws : List Word) : (s.setStream ws).response = s.response := rfl
@[simp] theorem State.setStream_channels (s : State) (ws : List Word) : (s.setStream ws).channels = s.channels := rfl
@[simp] theorem State.setStream_trace (s : State) (ws : List Word) : (s.setStream ws).trace = s.trace := rfl
@[simp] theorem State.setStream_stream (s : State) (ws : List Word) : (s.setStream ws).stream = ws := rfl
@[simp] theorem State.setStream_hostOverlap (s : State) (ws : List Word) : (s.setStream ws).hostOverlap = s.hostOverlap := rfl
@[simp] theorem State.setStream_answers (s : State) (ws : List Word) : (s.setStream ws).answers = s.answers := rfl
@[simp] theorem State.setStream_draws (s : State) (ws : List Word) : (s.setStream ws).draws = s.draws := rfl

/-! ### hostSend -/

@[simp] theorem State.hostSend_params (s : State) (ws : List Word) : (s.hostSend ws).params = s.params := rfl
@[simp] theorem State.hostSend_cfg (s : State) (ws : List Word) : (s.hostSend ws).cfg = s.cfg := rfl
@[simp] theorem State.hostSend_dsmState (s : State) (ws : List Word) : (s.hostSend ws).dsmState = s.dsmState := rfl
@[simp] theorem State.hostSend_pc (s : State) (ws : List Word) : (s.hostSend ws).pc = s.pc := rfl
@[simp] theorem State.hostSend_status (s : State) (ws : List Word) : (s.hostSend ws).status = s.status := rfl
@[simp] theorem State.hostSend_result (s : State) (ws : List Word) : (s.hostSend ws).result = s.result := rfl
@[simp] theorem State.hostSend_response (s : State) (ws : List Word) : (s.hostSend ws).response = s.response := rfl
@[simp] theorem State.hostSend_channels (s : State) (ws : List Word) : (s.hostSend ws).channels = s.channels := rfl
@[simp] theorem State.hostSend_trace (s : State) (ws : List Word) : (s.hostSend ws).trace = s.trace := rfl
@[simp] theorem State.hostSend_stream (s : State) (ws : List Word) : (s.hostSend ws).stream = s.stream ++ ws := rfl
@[simp] theorem State.hostSend_hostOverlap (s : State) (ws : List Word) : (s.hostSend ws).hostOverlap = s.hostOverlap := rfl
@[simp] theorem State.hostSend_answers (s : State) (ws : List Word) : (s.hostSend ws).answers = s.answers := rfl
@[simp] theorem State.hostSend_draws (s : State) (ws : List Word) : (s.hostSend ws).draws = s.draws := rfl

/-! ### respond -/

@[simp] theorem State.respond_params (s : State) (e : Status) (r : Option Word) : (s.respond e r).params = s.params := rfl
@[simp] theorem State.respond_cfg (s : State) (e : Status) (r : Option Word) : (s.respond e r).cfg = s.cfg := rfl
@[simp] theorem State.respond_dsmState (s : State) (e : Status) (r : Option Word) : (s.respond e r).dsmState = s.dsmState := rfl
@[simp] theorem State.respond_pc (s : State) (e : Status) (r : Option Word) : (s.respond e r).pc = none := rfl
@[simp] theorem State.respond_status (s : State) (e : Status) (r : Option Word) : (s.respond e r).status = statusCode e := rfl
@[simp] theorem State.respond_result (s : State) (e : Status) (r : Option Word) : (s.respond e r).result = r.getD s.result := rfl
@[simp] theorem State.respond_response (s : State) (e : Status) (r : Option Word) : (s.respond e r).response = responseWords e r := rfl
@[simp] theorem State.respond_channels (s : State) (e : Status) (r : Option Word) : (s.respond e r).channels = s.channels := rfl
@[simp] theorem State.respond_trace (s : State) (e : Status) (r : Option Word) : (s.respond e r).trace = s.trace := rfl
@[simp] theorem State.respond_stream (s : State) (e : Status) (r : Option Word) : (s.respond e r).stream = s.stream := rfl
@[simp] theorem State.respond_hostOverlap (s : State) (e : Status) (r : Option Word) : (s.respond e r).hostOverlap = s.hostOverlap := rfl
@[simp] theorem State.respond_answers (s : State) (e : Status) (r : Option Word) : (s.respond e r).answers = s.answers := rfl
@[simp] theorem State.respond_draws (s : State) (e : Status) (r : Option Word) : (s.respond e r).draws = s.draws := rfl

/-! ### Reads of a channel -/

theorem State.channel_eq (s : State) (n : Fin 16) : s.channel n = s.channels[n.val]'n.isLt := rfl

@[simp] theorem State.channel_setChannel_same (s : State) (n : Fin 16) (r : ChannelRecord) :
    (s.setChannel n r).channel n = r := by
  simp [State.channel]

theorem State.channel_setChannel_of_ne (s : State) {n m : Fin 16} (r : ChannelRecord) (h : n ≠ m) :
    (s.setChannel n r).channel m = s.channel m := by
  have : n.val ≠ m.val := fun h' => h (Fin.ext h')
  simp [State.channel, Vector.getElem_set_ne, this]

/-- A channel after an update of a channel. -/
theorem State.channel_setChannel (s : State) (n m : Fin 16) (r : ChannelRecord) :
    (s.setChannel n r).channel m = if n = m then r else s.channel m := by
  split
  · next h => subst h; simp
  · next h => exact s.channel_setChannel_of_ne r h

theorem State.channel_setActive (s : State) (n m : Fin 16) (b : Bool) :
    (s.setActive n b).channel m = if n = m then { s.channel n with active := b } else s.channel m :=
  s.channel_setChannel n m _

theorem State.channel_setDutyRecord (s : State) (n m : Fin 16) (w : Word) (t : Timing) :
    (s.setDutyRecord n w t).channel m =
      if n = m then { active := true, dutyCycle := w, onCount := t.on, offCount := t.off } else s.channel m :=
  s.channel_setChannel n m _

/-- Two Channel Stores are equal when every channel is. -/
theorem channels_ext {s t : State} (h : ∀ n, s.channel n = t.channel n) : s.channels = t.channels :=
  Vector.ext fun i hi => h ⟨i, hi⟩

/-- A read of a channel depends on the Channel Store only. -/
theorem State.channel_congr {s t : State} (h : s.channels = t.channels) (n : Fin 16) : s.channel n = t.channel n := by
  simp [State.channel, h]

/-! ### Upcoming answers -/

@[simp] theorem State.upcoming_drawn (s : State) (k : Nat) : s.drawn.upcoming k = s.upcoming (k + 1) := by
  simp [State.upcoming, Nat.add_assoc, Nat.add_comm 1 k]

/-- An upcoming answer depends on the inputs and the draw count only. -/
theorem State.upcoming_congr {s t : State} (ha : s.answers = t.answers) (hd : s.draws = t.draws) (k : Nat) :
    s.upcoming k = t.upcoming k := by
  simp [State.upcoming, ha, hd]

end Sys2Proof.Machine
end

