-- ==== Sys2Proof/Laws/Ops.lean ====
section
/-! SUPPORT. One lemma for each shared operation: everything it can do. `after` is the state once a list of events
has completed, `stopped` the state once one more event has not; every bus operation leads to one of the two. `cut` is both together,
for a FAIL and for a hang alike, so each law of a stopped run is said once for the two. -/

namespace Sys2Proof.Machine

/-! ## The two states a run of transactions leads to -/

/-- The events `es` have completed, `k` of them drawing an answer. -/
def State.after (s : State) (es : List Entry) (k : Nat) : State :=
  { s with
    trace := s.trace ++ es
    answers := s.answers.drop k
    draws := s.draws + k
    pc := s.pc.map (· + es.length) }

/-- One more transaction was made and did not complete: `pc` stays at its step. -/
def State.stopped (s : State) (e : Entry) : State := s.drawn.record e

/-- The two ways a transaction stops its command: it FAILs or it is never answered. The laws of the two are one. -/
inductive Stop
  | fail
  | hang
  deriving DecidableEq, Repr

/-- The environment's answer that stops the command so. -/
def Stop.answer : Stop → Answer
  | .fail => .fail
  | .hang => .hang

/-- The reply its event gets. -/
def Stop.reply : Stop → Reply
  | .fail => .failed
  | .hang => .unanswered

/-- How its run of steps ends. -/
def Stop.flow {α : Type} : Stop → State → Flow α
  | .fail, s => .raise .hardwareError s
  | .hang, s => .hang s

/-- The next `n` transactions are answered OK and the one after them stops the command. `failsAfter` and `hangsAfter`
are its two cases. -/
abbrev stopsAfter (x : Stop) (s : State) (n : Nat) : Prop := okFor s n ∧ s.upcoming n = x.answer

theorem failsAfter.stops {s : State} {n : Nat} (h : failsAfter s n) : stopsAfter .fail s n := h

theorem hangsAfter.stops {s : State} {n : Nat} (h : hangsAfter s n) : stopsAfter .hang s n := h

/-- Of the events `es`, those before index `i` completed, `j` of them drawing an answer, and the one of index `i`
stopped the command. -/
def State.cut (s : State) (x : Stop) (es : List Entry) (i j : Nat) : State :=
  { s with
    trace := s.trace ++ cutWith x.reply es i
    answers := s.answers.drop (j + 1)
    draws := s.draws + (j + 1)
    pc := s.pc.map (· + i) }

variable {x : Stop}

@[simp] theorem State.after_params (s : State) (es : List Entry) (k : Nat) : (s.after es k).params = s.params := rfl
@[simp] theorem State.after_cfg (s : State) (es : List Entry) (k : Nat) : (s.after es k).cfg = s.cfg := rfl
@[simp] theorem State.after_dsmState (s : State) (es : List Entry) (k : Nat) :
    (s.after es k).dsmState = s.dsmState := rfl
@[simp] theorem State.after_pc (s : State) (es : List Entry) (k : Nat) :
    (s.after es k).pc = s.pc.map (· + es.length) := rfl
@[simp] theorem State.after_status (s : State) (es : List Entry) (k : Nat) : (s.after es k).status = s.status := rfl
@[simp] theorem State.after_result (s : State) (es : List Entry) (k : Nat) : (s.after es k).result = s.result := rfl
@[simp] theorem State.after_response (s : State) (es : List Entry) (k : Nat) :
    (s.after es k).response = s.response := rfl
@[simp] theorem State.after_channels (s : State) (es : List Entry) (k : Nat) :
    (s.after es k).channels = s.channels := rfl
@[simp] theorem State.after_channel (s : State) (es : List Entry) (k : Nat) (n : Fin 16) :
    (s.after es k).channel n = s.channel n := rfl
@[simp] theorem State.after_trace (s : State) (es : List Entry) (k : Nat) :
    (s.after es k).trace = s.trace ++ es := rfl
@[simp] theorem State.after_stream (s : State) (es : List Entry) (k : Nat) : (s.after es k).stream = s.stream := rfl
@[simp] theorem State.after_hostOverlap (s : State) (es : List Entry) (k : Nat) :
    (s.after es k).hostOverlap = s.hostOverlap := rfl
@[simp] theorem State.after_answers (s : State) (es : List Entry) (k : Nat) :
    (s.after es k).answers = s.answers.drop k := rfl
@[simp] theorem State.after_draws (s : State) (es : List Entry) (k : Nat) :
    (s.after es k).draws = s.draws + k := rfl

@[simp] theorem State.after_nil (s : State) : s.after [] 0 = s := by
  cases s; simp [State.after]

/-- Two runs of events are one. -/
@[simp] theorem State.after_after (s : State) (a b : List Entry) (j k : Nat) :
    (s.after a j).after b k = s.after (a ++ b) (j + k) := by
  simp [State.after, Nat.add_assoc, Option.map_map, Function.comp_def]

@[simp] theorem State.upcoming_after (s : State) (es : List Entry) (j k : Nat) :
    (s.after es j).upcoming k = s.upcoming (j + k) := by
  simp [State.upcoming, Nat.add_assoc]

@[simp] theorem State.upcoming_setDsm (s : State) (d : DsmState) (k : Nat) :
    (s.setDsm d).upcoming k = s.upcoming k := rfl
@[simp] theorem State.upcoming_setPc (s : State) (p : Option Nat) (k : Nat) :
    (s.setPc p).upcoming k = s.upcoming k := rfl
@[simp] theorem State.upcoming_setFrequency (s : State) (f : Word) (p : Byte) (k : Nat) :
    (s.setFrequency f p).upcoming k = s.upcoming k := rfl
@[simp] theorem State.upcoming_setChannel (s : State) (n : Fin 16) (r : ChannelRecord) (k : Nat) :
    (s.setChannel n r).upcoming k = s.upcoming k := rfl
@[simp] theorem State.upcoming_setActive (s : State) (n : Fin 16) (b : Bool) (k : Nat) :
    (s.setActive n b).upcoming k = s.upcoming k := rfl

/-! ### The cut state -/

theorem cutWith_append_left {r : Reply} {a : List Entry} {i : Nat} (b : List Entry) (h : i < a.length) :
    cutWith r (a ++ b) i = cutWith r a i := by
  simp [cutWith, List.take_append_of_le_length (Nat.le_of_lt h), List.getElem?_append_left h]

theorem cutAt_append_left {a : List Entry} {i : Nat} (b : List Entry) (h : i < a.length) :
    cutAt (a ++ b) i = cutAt a i := cutWith_append_left b h

theorem hungAt_append_left {a : List Entry} {i : Nat} (b : List Entry) (h : i < a.length) :
    hungAt (a ++ b) i = hungAt a i := cutWith_append_left b h

theorem cutWith_append_right (r : Reply) (a b : List Entry) (i : Nat) :
    cutWith r (a ++ b) (a.length + i) = a ++ cutWith r b i := by
  simp [cutWith, List.take_append, List.getElem?_append_right]

/-- A stop in the second of two runs of events. -/
theorem State.after_cut (s : State) (a b : List Entry) (k i j : Nat) :
    (s.after a k).cut x b i j = s.cut x (a ++ b) (a.length + i) (k + j) := by
  simp [State.after, State.cut, cutWith_append_right, List.append_assoc, Nat.add_assoc, Option.map_map,
    Function.comp_def]

/-- A stop in the first of two runs of events. -/
theorem State.cut_append_left (s : State) {a : List Entry} (b : List Entry) {i : Nat} (j : Nat) (h : i < a.length) :
    s.cut x (a ++ b) i j = s.cut x a i j := by
  simp [State.cut, cutWith_append_left b h]

@[simp] theorem State.cut_params (s : State) (es : List Entry) (i j : Nat) : (s.cut x es i j).params = s.params := rfl
@[simp] theorem State.cut_cfg (s : State) (es : List Entry) (i j : Nat) : (s.cut x es i j).cfg = s.cfg := rfl
@[simp] theorem State.cut_dsmState (s : State) (es : List Entry) (i j : Nat) :
    (s.cut x es i j).dsmState = s.dsmState := rfl
@[simp] theorem State.cut_channels (s : State) (es : List Entry) (i j : Nat) :
    (s.cut x es i j).channels = s.channels := rfl
@[simp] theorem State.cut_channel (s : State) (es : List Entry) (i j : Nat) (n : Fin 16) :
    (s.cut x es i j).channel n = s.channel n := rfl
@[simp] theorem State.setDsm_cut (s : State) (d : DsmState) (es : List Entry) (i j : Nat) :
    (s.setDsm d).cut x es i j = (s.cut x es i j).setDsm d := rfl
@[simp] theorem State.setFrequency_cut (s : State) (f : Word) (p : Byte) (es : List Entry) (i j : Nat) :
    (s.setFrequency f p).cut x es i j = (s.cut x es i j).setFrequency f p := rfl
@[simp] theorem State.setChannel_cut (s : State) (n : Fin 16) (r : ChannelRecord) (es : List Entry) (i j : Nat) :
    (s.setChannel n r).cut x es i j = (s.cut x es i j).setChannel n r := rfl
@[simp] theorem State.setActive_cut (s : State) (n : Fin 16) (b : Bool) (es : List Entry) (i j : Nat) :
    (s.setActive n b).cut x es i j = (s.cut x es i j).setActive n b := rfl
@[simp] theorem State.setDutyRecord_cut (s : State) (n : Fin 16) (w : Word) (t : Timing) (es : List Entry)
    (i j : Nat) : (s.setDutyRecord n w t).cut x es i j = (s.cut x es i j).setDutyRecord n w t := rfl

/-! ### Events commute with assignments: `after` goes innermost -/

@[simp] theorem State.setDsm_after (s : State) (d : DsmState) (es : List Entry) (k : Nat) :
    (s.setDsm d).after es k = (s.after es k).setDsm d := rfl
@[simp] theorem State.setFrequency_after (s : State) (f : Word) (p : Byte) (es : List Entry) (k : Nat) :
    (s.setFrequency f p).after es k = (s.after es k).setFrequency f p := rfl
@[simp] theorem State.setChannel_after (s : State) (n : Fin 16) (r : ChannelRecord) (es : List Entry) (k : Nat) :
    (s.setChannel n r).after es k = (s.after es k).setChannel n r := rfl
@[simp] theorem State.setActive_after (s : State) (n : Fin 16) (b : Bool) (es : List Entry) (k : Nat) :
    (s.setActive n b).after es k = (s.after es k).setActive n b := rfl
@[simp] theorem State.setDutyRecord_after (s : State) (n : Fin 16) (w : Word) (t : Timing) (es : List Entry)
    (k : Nat) : (s.setDutyRecord n w t).after es k = (s.after es k).setDutyRecord n w t := rfl
@[simp] theorem State.upcoming_setDutyRecord (s : State) (n : Fin 16) (w : Word) (t : Timing) (k : Nat) :
    (s.setDutyRecord n w t).upcoming k = s.upcoming k := rfl
@[simp] theorem State.setDsm_setDsm (s : State) (d d' : DsmState) : (s.setDsm d).setDsm d' = s.setDsm d' := rfl

/-! ## Answers known in advance -/

/-- The answers still to come depend on the two answer fields alone. -/
theorem upcoming_of_fields {s t : State} {j : Nat} (ha : t.answers = s.answers.drop j) (hd : t.draws = s.draws + j)
    (k : Nat) : t.upcoming k = s.upcoming (j + k) := by
  unfold State.upcoming
  rw [ha, hd, List.getElem?_drop, Nat.add_assoc]

theorem okFor.mono {s : State} {m n : Nat} (h : okFor s n) (hm : m ≤ n) : okFor s m :=
  fun k hk => h k (Nat.lt_of_lt_of_le hk hm)

/-- The answers of a later run of transactions. -/
theorem okFor.after {s : State} {n j m : Nat} (es : List Entry) (h : okFor s n) (hm : j + m ≤ n) :
    okFor (s.after es j) m := fun k hk => by
  simpa using h (j + k) (by omega)

theorem stopsAfter.after {s : State} {n j m : Nat} (es : List Entry) (h : stopsAfter x s n) (hm : j + m = n) :
    stopsAfter x (s.after es j) m :=
  ⟨okFor.after es h.1 (Nat.le_of_eq hm), by simpa [hm] using h.2⟩

/-- An OK answer is its byte. -/
theorem upcoming_eq_ok {s : State} {k : Nat} (h : isOk (s.upcoming k) = true) :
    s.upcoming k = .ok (byteAt s k) := by
  unfold byteAt
  cases hk : s.upcoming k <;> simp_all [isOk, answerByte]

@[simp] theorem byteAt_after (s : State) (es : List Entry) (j k : Nat) :
    byteAt (s.after es j) k = byteAt s (j + k) := by simp [byteAt]

/-- The three outcomes of an answer. -/
theorem answer_cases (a : Answer) : (∃ b, a = .ok b) ∨ a = .fail ∨ a = .hang := by
  cases a <;> simp

/-! ## Running steps -/

@[simp] theorem Cmd.pure_apply {α : Type} (a : α) (s : State) : Cmd.pure a s = .done a s := rfl
@[simp] theorem Cmd.raise_apply {α : Type} (e : Status) (s : State) : (Cmd.raise e : Cmd α) s = .raise e s := rfl
@[simp] theorem Cmd.update_apply (f : State → State) (s : State) : Cmd.update f s = .done () (f s) := rfl

theorem Cmd.andThen_done {α β : Type} {c : Cmd α} {f : α → Cmd β} {s t : State} {a : α} (h : c s = .done a t) :
    c.andThen f s = f a t := by simp [Cmd.andThen, h]

theorem Cmd.andThen_raise {α β : Type} {c : Cmd α} {f : α → Cmd β} {s t : State} {e : Status}
    (h : c s = .raise e t) : c.andThen f s = .raise e t := by simp [Cmd.andThen, h]

theorem Cmd.andThen_hang {α β : Type} {c : Cmd α} {f : α → Cmd β} {s t : State} (h : c s = .hang t) :
    c.andThen f s = .hang t := by simp [Cmd.andThen, h]

theorem Cmd.andThen_stop {α β : Type} {c : Cmd α} {f : α → Cmd β} {s t : State} (h : c s = x.flow t) :
    c.andThen f s = x.flow t := by
  cases x
  · exact Cmd.andThen_raise h
  · exact Cmd.andThen_hang h

/-- What a sequence can do: the first part completes and the second goes on, or the first part's end is that of both. -/
theorem Cmd.andThen_cases {α β : Type} (c : Cmd α) (f : α → Cmd β) (s : State) :
    (∃ a t, c s = .done a t ∧ c.andThen f s = f a t) ∨
    (∃ e t, c s = .raise e t ∧ c.andThen f s = .raise e t) ∨
    (∃ t, c s = .hang t ∧ c.andThen f s = .hang t) := by
  cases h : c s with
  | done a t => exact .inl ⟨a, t, rfl, Cmd.andThen_done h⟩
  | raise e t => exact .inr (.inl ⟨e, t, rfl, Cmd.andThen_raise h⟩)
  | hang t => exact .inr (.inr ⟨t, rfl, Cmd.andThen_hang h⟩)

@[simp] theorem Cmd.pure_andThen {α β : Type} (a : α) (f : α → Cmd β) : (Cmd.pure a).andThen f = f a := rfl

theorem Cmd.andThen_assoc {α β γ : Type} (c : Cmd α) (f : α → Cmd β) (g : β → Cmd γ) :
    (c.andThen f).andThen g = c.andThen fun a => (f a).andThen g := by
  funext s
  simp only [Cmd.andThen]
  cases c s <;> rfl

theorem Cmd.forEach_append {α : Type} (c : α → Cmd Unit) (l l' : List α) :
    Cmd.forEach c (l ++ l') = (Cmd.forEach c l).andThen fun _ => Cmd.forEach c l' := by
  induction l with
  | nil => rfl
  | cons a l ih => simp only [List.cons_append, Cmd.forEach, ih, Cmd.andThen_assoc]

/-! ## Bus primitives -/

/-- A transaction answered OK (20_memory.md R59). -/
theorem transact_ok {s : State} {b : Byte} (e : Event) (ht : s.cfg.transportPresent = true)
    (h : s.upcoming 0 = .ok b) : transact e s = .done b (s.after [⟨e, okReply e b⟩] 1) := by
  simp [transact, ht, h, State.after, State.advance, State.record, State.drawn]

/-- A transaction that FAILs raises HardwareError at once, and one that never returns stops there; either way it is
the last event (20_memory.md R60, R61). -/
theorem transact_stop {s : State} (e : Event) (r : Reply) (ht : s.cfg.transportPresent = true)
    (h : s.upcoming 0 = x.answer) : transact e s = x.flow (s.cut x [⟨e, r⟩] 0 0) := by
  cases x <;>
    simp [transact, ht, h, State.cut, cutWith, State.drawn, State.record, Stop.answer, Stop.flow, Stop.reply]

/-- A transaction that never returns (20_memory.md R61). -/
theorem transact_hang {s : State} (e : Event) (ht : s.cfg.transportPresent = true) (h : s.upcoming 0 = .hang) :
    transact e s = .hang (s.stopped ⟨e, .unanswered⟩) := by
  simp [transact, ht, h, State.stopped]

/-- With no transport a primitive raises HardwareError and nothing else happens (20_memory.md R60). -/
theorem transact_noTransport {s : State} (e : Event) (ht : s.cfg.transportPresent = false) :
    transact e s = .raise .hardwareError s := by
  simp [transact, ht]

/-- Everything a transaction can do. -/
theorem transact_cases (e : Event) (s : State) :
    (s.cfg.transportPresent = true ∧ ∃ b, s.upcoming 0 = .ok b ∧
        transact e s = .done b (s.after [⟨e, okReply e b⟩] 1)) ∨
    (s.cfg.transportPresent = true ∧ s.upcoming 0 = .fail ∧
        transact e s = .raise .hardwareError (s.stopped ⟨e, .failed⟩)) ∨
    (s.cfg.transportPresent = true ∧ s.upcoming 0 = .hang ∧
        transact e s = .hang (s.stopped ⟨e, .unanswered⟩)) ∨
    (s.cfg.transportPresent = false ∧ transact e s = .raise .hardwareError s) := by
  cases ht : s.cfg.transportPresent with
  | false => exact .inr (.inr (.inr ⟨rfl, transact_noTransport e ht⟩))
  | true =>
    rcases answer_cases (s.upcoming 0) with ⟨b, h⟩ | h | h
    · exact .inl ⟨rfl, b, h, transact_ok e ht h⟩
    · exact .inr (.inl ⟨rfl, h, by simp [transact, ht, h, State.stopped]⟩)
    · exact .inr (.inr (.inl ⟨rfl, h, transact_hang e ht h⟩))

theorem memRead_ok {s : State} {b : Byte} (reg : Byte) (ht : s.cfg.transportPresent = true)
    (h : s.upcoming 0 = .ok b) : memRead reg s = .done b (s.after [rd s.cfg.i2cAddress reg b] 1) :=
  transact_ok _ ht h

theorem memRead_stop {s : State} (reg b : Byte) (ht : s.cfg.transportPresent = true) (h : s.upcoming 0 = x.answer) :
    memRead reg s = x.flow (s.cut x [rd s.cfg.i2cAddress reg b] 0 0) :=
  transact_stop _ _ ht h

theorem memWrite_ok {s : State} {b : Byte} (reg v : Byte) (ht : s.cfg.transportPresent = true)
    (h : s.upcoming 0 = .ok b) : memWrite reg v s = .done () (s.after [wr s.cfg.i2cAddress reg v] 1) :=
  Cmd.andThen_done (transact_ok _ ht h)

theorem memWrite_stop {s : State} (reg v : Byte) (ht : s.cfg.transportPresent = true) (h : s.upcoming 0 = x.answer) :
    memWrite reg v s = x.flow (s.cut x [wr s.cfg.i2cAddress reg v] 0 0) :=
  Cmd.andThen_stop (transact_stop _ _ ht h)

theorem generalCallReset_ok {s : State} {b : Byte} (ht : s.cfg.transportPresent = true) (h : s.upcoming 0 = .ok b) :
    generalCallReset s = .done () (s.after [⟨.GC, .done⟩] 1) := Cmd.andThen_done (transact_ok _ ht h)

theorem generalCallReset_stop {s : State} (ht : s.cfg.transportPresent = true) (h : s.upcoming 0 = x.answer) :
    generalCallReset s = x.flow (s.cut x [⟨.GC, .done⟩] 0 0) := Cmd.andThen_stop (transact_stop _ _ ht h)

theorem busInit_ok {s : State} {b : Byte} (ht : s.cfg.transportPresent = true) (h : s.upcoming 0 = .ok b) :
    busInit s = .done () (s.after [⟨.TI, .done⟩] 1) := Cmd.andThen_done (transact_ok _ ht h)

theorem busInit_stop {s : State} (ht : s.cfg.transportPresent = true) (h : s.upcoming 0 = x.answer) :
    busInit s = x.flow (s.cut x [⟨.TI, .done⟩] 0 0) := Cmd.andThen_stop (transact_stop _ _ ht h)

theorem busDeinit_ok {s : State} {b : Byte} (ht : s.cfg.transportPresent = true) (h : s.upcoming 0 = .ok b) :
    busDeinit s = .done () (s.after [⟨.TD, .done⟩] 1) := Cmd.andThen_done (transact_ok _ ht h)

theorem busDeinit_stop {s : State} (ht : s.cfg.transportPresent = true) (h : s.upcoming 0 = x.answer) :
    busDeinit s = x.flow (s.cut x [⟨.TD, .done⟩] 0 0) := Cmd.andThen_stop (transact_stop _ _ ht h)

/-- A delay always completes and draws no answer (20_memory.md R66). -/
@[simp] theorem delay_apply (s : State) : delay settleUs s = .done () (s.after [settle] 0) := by
  simp [delay, State.after, State.advance, State.record, settle, settleUs]

/-! ## Checks -/

@[simp] theorem require_true (e : Status) (s : State) : require true e s = .done () s := rfl
@[simp] theorem require_false (e : Status) (s : State) : require false e s = .raise e s := rfl

/-- A check completes with no effect or raises with no effect. -/
theorem require_cases (b : Bool) (e : Status) (s : State) :
    (b = true ∧ require b e s = .done () s) ∨ (b = false ∧ require b e s = .raise e s) := by
  cases b <;> simp

theorem checkInit_ok {s : State} (h : s.cfg.initialized = true) : checkInit s = .done () s := by
  simp [checkInit, h]

theorem checkInit_raise {s : State} (h : s.cfg.initialized = false) : checkInit s = .raise .notInitialized s := by
  simp [checkInit, h]

theorem checkChannel_ok {c : Byte} (h : c.toNat < 16) (s : State) :
    checkChannel c s = .done ⟨c.toNat, h⟩ s := by simp [checkChannel, h]

theorem checkChannel_raise {c : Byte} (h : 16 ≤ c.toNat) (s : State) :
    checkChannel c s = .raise .invalidChannel s := by
  simp [checkChannel, Nat.not_lt.mpr h]

/-- The 8-bit index of a valid channel passes the check as that channel. -/
@[simp] theorem checkChannel_ofNat (n : Fin 16) (s : State) :
    checkChannel (BitVec.ofNat 8 n.val) s = .done n s := by
  have h : (BitVec.ofNat 8 n.val).toNat = n.val := by simp; omega
  have h16 : (BitVec.ofNat 8 n.val).toNat < 16 := by omega
  rw [checkChannel_ok h16]
  congr 1
  exact Fin.ext h

theorem checkFreq_ok {f : Word} (h : frequencyInRange f = true) (s : State) : checkFreq f s = .done () s := by
  simp [checkFreq, h]

theorem checkDuty_ok {w : Word} (h : dutyInRange w = true) (s : State) : checkDuty w s = .done () s := by
  simp [checkDuty, h]

/-! ## Sub-sequences of the sequencer, when every transaction is answered OK -/

@[simp] theorem modifiedByte_set (t m : Byte) : modifiedByte t m 0#8 = t ||| m :=
  BitVec.and_allOnes

@[simp] theorem modifiedByte_clear (t m : Byte) : modifiedByte t 0#8 m = t &&& ~~~m := by
  simp [modifiedByte]

/-- The state after the bookkeeping of R152. -/
def State.noted (s : State) (track : Bool) (d : DsmState) : State := if track then s.setDsm d else s

@[simp] theorem noteDsm_apply (track : Bool) (d : DsmState) (s : State) :
    noteDsm track d s = .done () (s.noted track d) := rfl

@[simp] theorem State.noted_true (s : State) (d : DsmState) : s.noted true d = s.setDsm d := rfl
@[simp] theorem State.noted_false (s : State) (d : DsmState) : s.noted false d = s := rfl
@[simp] theorem State.noted_params (s : State) (b : Bool) (d : DsmState) : (s.noted b d).params = s.params := by
  cases b <;> rfl
@[simp] theorem State.noted_cfg (s : State) (b : Bool) (d : DsmState) : (s.noted b d).cfg = s.cfg := by
  cases b <;> rfl
@[simp] theorem State.upcoming_noted (s : State) (b : Bool) (d : DsmState) (k : Nat) :
    (s.noted b d).upcoming k = s.upcoming k := by cases b <;> rfl
@[simp] theorem State.noted_after (s : State) (b : Bool) (d : DsmState) (es : List Entry) (k : Nat) :
    (s.noted b d).after es k = (s.after es k).noted b d := by cases b <;> rfl
@[simp] theorem State.noted_cut (s : State) (b : Bool) (d : DsmState) (es : List Entry) (i j : Nat) :
    (s.noted b d).cut x es i j = (s.cut x es i j).noted b d := by cases b <;> rfl
theorem okFor.noted {s : State} {n : Nat} (b : Bool) (d : DsmState) (h : okFor s n) : okFor (s.noted b d) n :=
  fun k hk => by simpa using h k hk
theorem stopsAfter.noted {s : State} {n : Nat} (b : Bool) (d : DsmState) (h : stopsAfter x s n) :
    stopsAfter x (s.noted b d) n := ⟨h.1.noted b d, by simpa using h.2⟩
@[simp] theorem State.noted_noted (s : State) (b : Bool) (d d' : DsmState) :
    (s.noted b d).noted b d' = s.noted b d' := by cases b <;> rfl

/-- The events of `ModifyMode(r, set, clear)` (R151). -/
def modeEvents (dev reg set clear t : Byte) : List Entry := [rd dev reg t, wr dev reg (modifiedByte t set clear)]

theorem modifyMode_ok {s : State} (reg set clear : Byte) (ht : s.cfg.transportPresent = true) (h : okFor s 2) :
    modifyMode reg set clear s = .done () (s.after (modeEvents s.cfg.i2cAddress reg set clear (byteAt s 0)) 2) := by
  have h0 := upcoming_eq_ok (h 0 (by omega))
  have h1 := upcoming_eq_ok (h 1 (by omega))
  rw [modifyMode, Cmd.andThen_done (memRead_ok reg ht h0)]
  rw [memWrite_ok (b := byteAt s 1) _ _ (by simpa using ht) (by simpa using h1)]
  simp [modeEvents]

theorem modifyMode_stop {s : State} (reg set clear : Byte) {j : Nat} (hj : j < 2)
    (ht : s.cfg.transportPresent = true) (h : stopsAfter x s j) :
    modifyMode reg set clear s =
      x.flow (s.cut x (modeEvents s.cfg.i2cAddress reg set clear (byteAt s 0)) j j) := by
  interval_cases j
  · rw [modifyMode, Cmd.andThen_stop (memRead_stop reg (byteAt s 0) ht h.2)]
    rfl
  · have h0 := upcoming_eq_ok (h.1 0 (by omega))
    rw [modifyMode, Cmd.andThen_done (memRead_ok reg ht h0)]
    rw [memWrite_stop _ _ (by simpa using ht) (by simpa using h.2), State.after_cut]
    rfl

theorem sleepSeq_ok {s : State} (track : Bool) (ht : s.cfg.transportPresent = true) (h : okFor s 2) :
    sleepSeq track s =
      .done () ((s.after (sleepEvents s.cfg.i2cAddress s.params.sleepMask (byteAt s 0)) 2).noted track .asleep) := by
  rw [sleepSeq, Cmd.andThen_done (modifyMode_ok _ _ _ ht h)]
  simp [sleepEvents, modeEvents, regMode1]

theorem sleepSeq_stop {s : State} (track : Bool) {j : Nat} (hj : j < 2) (ht : s.cfg.transportPresent = true)
    (h : stopsAfter x s j) :
    sleepSeq track s =
      x.flow (s.cut x (sleepEvents s.cfg.i2cAddress s.params.sleepMask (byteAt s 0)) j j) := by
  rw [sleepSeq, Cmd.andThen_stop (modifyMode_stop _ _ _ hj ht h)]
  simp [sleepEvents, modeEvents, regMode1]

theorem wakeSeq_ok {s : State} (track : Bool) (ht : s.cfg.transportPresent = true) (h : okFor s 2) :
    wakeSeq track s =
      .done () ((s.after (wakeEvents s.cfg.i2cAddress s.params.sleepMask (byteAt s 0)) 2).noted track .awake) := by
  rw [wakeSeq, Cmd.andThen_done (modifyMode_ok _ _ _ ht h), Cmd.andThen_done (noteDsm_apply _ _ _)]
  simp [wakeEvents, modeEvents, regMode1]

theorem wakeSeq_stop {s : State} (track : Bool) {j : Nat} (hj : j < 2) (ht : s.cfg.transportPresent = true)
    (h : stopsAfter x s j) :
    wakeSeq track s =
      x.flow (s.cut x (wakeEvents s.cfg.i2cAddress s.params.sleepMask (byteAt s 0)) j j) := by
  rw [wakeSeq, Cmd.andThen_stop (modifyMode_stop _ _ _ hj ht h)]
  have : wakeEvents s.cfg.i2cAddress s.params.sleepMask (byteAt s 0) =
      modeEvents s.cfg.i2cAddress regMode1 0 s.params.sleepMask (byteAt s 0) ++ [settle] := by
    simp [wakeEvents, modeEvents, regMode1]
  rw [this, State.cut_append_left _ _ _ (by simpa [modeEvents] using hj)]

theorem prescaleSeq_ok {s : State} (track : Bool) (p : Byte) (ht : s.cfg.transportPresent = true) (h : okFor s 5) :
    prescaleSeq track p s =
      .done () ((s.after (prescaleEvents s.cfg.i2cAddress s.params.sleepMask p (byteAt s 0) (byteAt s 3)) 5).noted
        track .awake) := by
  have h2 := upcoming_eq_ok (h 2 (by omega))
  rw [prescaleSeq, Cmd.andThen_done (sleepSeq_ok track ht (h.mono (by omega))),
    Cmd.andThen_done (memWrite_ok (b := byteAt s 2) _ _ (by simpa using ht) (by simpa using h2)),
    wakeSeq_ok track (by simpa using ht) (fun k hk => by simpa [Nat.add_assoc] using h (3 + k) (by omega))]
  simp [prescaleEvents, regPreScale, byteAt]

/-- `PrescaleSeq` stopped at its transaction of index `j`: ASLEEP is recorded once the SLEEP write has succeeded. -/
theorem prescaleSeq_stop {s : State} (track : Bool) (p : Byte) {j : Nat} (hj : j < 5)
    (ht : s.cfg.transportPresent = true) (h : stopsAfter x s j) :
    prescaleSeq track p s =
      x.flow
        ((s.cut x (prescaleEvents s.cfg.i2cAddress s.params.sleepMask p (byteAt s 0) (byteAt s 3)) j j).noted
          (track && decide (2 ≤ j)) .asleep) := by
  have hsplit : prescaleEvents s.cfg.i2cAddress s.params.sleepMask p (byteAt s 0) (byteAt s 3) =
      sleepEvents s.cfg.i2cAddress s.params.sleepMask (byteAt s 0) ++ ([wr s.cfg.i2cAddress regPreScale p] ++
        wakeEvents s.cfg.i2cAddress s.params.sleepMask (byteAt s 3)) := rfl
  rw [hsplit]
  by_cases hj2 : j < 2
  · rw [prescaleSeq, Cmd.andThen_stop (sleepSeq_stop track hj2 ht h),
      State.cut_append_left _ _ _ (by simpa [sleepEvents] using hj2)]
    simp [Nat.not_le.mpr hj2]
  · obtain ⟨i, rfl⟩ : ∃ i, j = 2 + i := ⟨j - 2, by omega⟩
    have hf := h.after (sleepEvents s.cfg.i2cAddress s.params.sleepMask (byteAt s 0)) (j := 2) (m := i) rfl
    have hcut := State.after_cut (x := x) s (sleepEvents s.cfg.i2cAddress s.params.sleepMask (byteAt s 0))
      ([wr s.cfg.i2cAddress regPreScale p] ++ wakeEvents s.cfg.i2cAddress s.params.sleepMask (byteAt s 3)) 2 i i
    rw [show (sleepEvents s.cfg.i2cAddress s.params.sleepMask (byteAt s 0)).length = 2 from rfl] at hcut
    rw [← hcut, prescaleSeq, Cmd.andThen_done (sleepSeq_ok track ht (h.1.mono (m := 2) (by omega))),
      show (track && decide (2 ≤ 2 + i)) = track by simp, ← State.noted_cut]
    have hb : byteAt s 3 =
        byteAt ((s.after (sleepEvents s.cfg.i2cAddress s.params.sleepMask (byteAt s 0)) 2).noted track .asleep) 1 := by
      simp [byteAt]
    rw [hb]
    generalize hu : (s.after (sleepEvents s.cfg.i2cAddress s.params.sleepMask (byteAt s 0)) 2).noted track
      .asleep = u
    have hcfg : u.cfg = s.cfg := by rw [← hu]; simp
    have hpar : u.params = s.params := by rw [← hu]; simp
    replace hf : stopsAfter x u i := hu ▸ hf.noted track .asleep
    rw [← hcfg, ← hpar]
    cases i with
    | zero =>
      rw [State.cut_append_left _ _ _ (by simp), Cmd.andThen_stop (memWrite_stop _ _ (hcfg ▸ ht) hf.2)]
    | succ i =>
      have h0 := upcoming_eq_ok (hf.1 0 (by omega))
      have hf' := hf.after [wr u.cfg.i2cAddress regPreScale p] (j := 1) (m := i) (by omega)
      rw [Cmd.andThen_done (memWrite_ok _ _ (hcfg ▸ ht) h0), wakeSeq_stop track (by omega) (hcfg ▸ ht) hf']
      simp [State.after_cut, byteAt, Nat.add_comm]

theorem driverSeq_ok {s : State} (ht : s.cfg.transportPresent = true) (h : okFor s 2) :
    driverSeq s =
      .done () (s.after (driverEvents s.cfg.i2cAddress s.params.outdrvMask s.params.outputDriverMode (byteAt s 0)) 2) := by
  unfold driverSeq
  cases hm : s.params.outputDriverMode <;>
    simp [modifyMode_ok _ _ _ ht h, driverEvents, modeEvents, regMode2]

theorem driverSeq_stop {s : State} {j : Nat} (hj : j < 2) (ht : s.cfg.transportPresent = true) (h : stopsAfter x s j) :
    driverSeq s = x.flow
      (s.cut x (driverEvents s.cfg.i2cAddress s.params.outdrvMask s.params.outputDriverMode (byteAt s 0)) j j) := by
  unfold driverSeq
  cases hm : s.params.outputDriverMode <;>
    simp [modifyMode_stop _ _ _ hj ht h, driverEvents, modeEvents, regMode2]

/-! ## Lists of register writes -/

/-- The entries of a list of register writes, all completed. -/
def writeEntries (dev : Byte) (ws : List (Byte × Byte)) : List Entry := ws.map fun w => wr dev w.1 w.2

@[simp] theorem writeEntries_length (dev : Byte) (ws : List (Byte × Byte)) :
    (writeEntries dev ws).length = ws.length := by simp [writeEntries]

theorem writeAll_ok {s : State} (ws : List (Byte × Byte)) (ht : s.cfg.transportPresent = true)
    (h : okFor s ws.length) : writeAll ws s = .done () (s.after (writeEntries s.cfg.i2cAddress ws) ws.length) := by
  unfold writeAll
  induction ws generalizing s with
  | nil => simp [Cmd.forEach, writeEntries]
  | cons w ws ih =>
    have h0 := upcoming_eq_ok (h 0 (by simp))
    rw [Cmd.forEach, Cmd.andThen_done (memWrite_ok _ _ ht h0)]
    rw [ih (by simpa using ht) (h.after _ (by simp; omega))]
    simp [writeEntries, Nat.add_comm]

/-- A list of writes stopped at its write of index `k`: the writes before it have completed (R214). -/
theorem writeAll_stop {s : State} (ws : List (Byte × Byte)) {k : Nat} (hk : k < ws.length)
    (ht : s.cfg.transportPresent = true) (h : stopsAfter x s k) :
    writeAll ws s = x.flow (s.cut x (writeEntries s.cfg.i2cAddress ws) k k) := by
  unfold writeAll
  induction ws generalizing s k with
  | nil => simp at hk
  | cons w ws ih =>
    have hsplit : writeEntries s.cfg.i2cAddress (w :: ws) =
        [wr s.cfg.i2cAddress w.1 w.2] ++ writeEntries s.cfg.i2cAddress ws := rfl
    cases k with
    | zero =>
      rw [Cmd.forEach, Cmd.andThen_stop (memWrite_stop _ _ ht h.2), hsplit, State.cut_append_left _ _ _ (by simp)]
    | succ k =>
      have h0 := upcoming_eq_ok (h.1 0 (by omega))
      rw [Cmd.forEach, Cmd.andThen_done (memWrite_ok _ _ ht h0)]
      rw [ih (by simpa using hk) (by simpa using ht) (h.after _ (by omega)), State.after_cut, hsplit]
      simp [Nat.add_comm]

@[simp] theorem channelWrites_length (n : Fin 16) (t : Timing) : (channelWrites n t).length = 4 := rfl

/-- The four writes of a timing pair, in the numbers of the spec's rules R53, R67 and R156. -/
theorem channelWrites_entries (dev : Byte) (n : Fin 16) (t : Timing) :
    writeEntries dev (channelWrites n t) = channelEvents dev n t.on.toNat t.off.toNat := by
  have hlow : ∀ v : Half, lowByte v = BitVec.ofNat 8 v.toNat := fun v => by
    apply BitVec.eq_of_toNat_eq; simp [lowByte]
  have hhigh : ∀ v : Half, highByte v = BitVec.ofNat 8 (v.toNat / 256 % 16) := fun v => by
    apply BitVec.eq_of_toNat_eq
    simp [highByte, Nat.shiftRight_eq_div_pow]
  have h0 : ledBase n = BitVec.ofNat 8 (0x06 + 4 * n.val) := by revert n; decide
  have h1 : ledBase n + 1 = BitVec.ofNat 8 (0x07 + 4 * n.val) := by revert n; decide
  have h2 : ledBase n + 2 = BitVec.ofNat 8 (0x08 + 4 * n.val) := by revert n; decide
  have h3 : ledBase n + 3 = BitVec.ofNat 8 (0x09 + 4 * n.val) := by revert n; decide
  simp only [writeEntries, channelWrites, channelEvents, List.map_cons, List.map_nil, hlow, hhigh, h1, h2, h3]
  simp only [h0]

theorem writeChannelTiming_ok {s : State} (n : Fin 16) (t : Timing) (ht : s.cfg.transportPresent = true)
    (h : okFor s 4) : writeChannelTiming n t s = .done () (s.after (timingEvents s n t) 4) := by
  rw [writeChannelTiming, writeAll_ok (channelWrites n t) ht h, channelWrites_entries]
  rfl

theorem writeChannelTiming_stop {s : State} (n : Fin 16) (t : Timing) {j : Nat} (hj : j < 4)
    (ht : s.cfg.transportPresent = true) (h : stopsAfter x s j) :
    writeChannelTiming n t s = x.flow (s.cut x (timingEvents s n t) j j) := by
  rw [writeChannelTiming, writeAll_stop (channelWrites n t) hj ht h, channelWrites_entries]
  rfl

/-! ## A command's end -/

theorem runCommand_destroyed {c : Cmd (Option Word)} {s : State} (h : s.dsmState = .destroyed) :
    runCommand c s = .refused .destroyed := by simp [runCommand, h]

theorem runCommand_done {c : Cmd (Option Word)} {s t : State} {r : Option Word} (ha : alive s)
    (h : c (s.setPc (some 1)) = .done r t) : runCommand c s = .next (t.respond .success r) := by
  simp [runCommand, show s.dsmState ≠ .destroyed from ha, h]

theorem runCommand_raise {c : Cmd (Option Word)} {s t : State} {e : Status} (ha : alive s)
    (h : c (s.setPc (some 1)) = .raise e t) : runCommand c s = .next (t.respond e none) := by
  simp [runCommand, show s.dsmState ≠ .destroyed from ha, h, takeError]

theorem runCommand_hang {c : Cmd (Option Word)} {s t : State} (ha : alive s)
    (h : c (s.setPc (some 1)) = .hang t) : runCommand c s = .fault (.transportHang t) := by
  simp [runCommand, show s.dsmState ≠ .destroyed from ha, h]

/-- Everything a command can end in (60_exceptions.md R214 to R217, R227; 20_memory.md R61). -/
theorem runCommand_cases (c : Cmd (Option Word)) (s : State) :
    (s.dsmState = .destroyed ∧ runCommand c s = .refused .destroyed) ∨
    (alive s ∧ ∃ r t, c (s.setPc (some 1)) = .done r t ∧ runCommand c s = .next (t.respond .success r)) ∨
    (alive s ∧ ∃ e t, c (s.setPc (some 1)) = .raise e t ∧ runCommand c s = .next (t.respond e none)) ∨
    (alive s ∧ ∃ t, c (s.setPc (some 1)) = .hang t ∧ runCommand c s = .fault (.transportHang t)) := by
  by_cases hd : s.dsmState = .destroyed
  · exact .inl ⟨hd, runCommand_destroyed hd⟩
  · cases h : c (s.setPc (some 1)) with
    | done r t => exact .inr (.inl ⟨hd, r, t, rfl, runCommand_done hd h⟩)
    | raise e t => exact .inr (.inr (.inl ⟨hd, e, t, rfl, runCommand_raise hd h⟩))
    | hang t => exact .inr (.inr (.inr ⟨hd, t, rfl, runCommand_hang hd h⟩))

theorem Cmd.noResult_done {c : Cmd Unit} {s t : State} (h : c s = .done () t) : c.noResult s = .done none t :=
  Cmd.andThen_done h

theorem Cmd.noResult_raise {c : Cmd Unit} {s t : State} {e : Status} (h : c s = .raise e t) :
    c.noResult s = .raise e t := Cmd.andThen_raise h

theorem Cmd.noResult_hang {c : Cmd Unit} {s t : State} (h : c s = .hang t) : c.noResult s = .hang t :=
  Cmd.andThen_hang h

end Sys2Proof.Machine
end

