-- ==== Sys2Proof/Laws/Frames.lean ====
section
/-! SUPPORT. Relations that every part of a command keeps. `Cmd.Keeps R c` says that the state `c` leaves, however it
ends, is related by `R` to the state it began in; it composes along the commands' own structure, so that a frame or an
invariant of a whole command is proved from what its assignments and its transactions keep. -/

namespace Sys2Proof.Machine

/-- The state a run of steps has reached, however it ended. -/
def Flow.state {α : Type} : Flow α → State
  | .done _ s => s
  | .raise _ s => s
  | .hang s => s

@[simp] theorem Flow.state_done {α : Type} (a : α) (s : State) : (Flow.done a s).state = s := rfl
@[simp] theorem Flow.state_raise {α : Type} (e : Status) (s : State) : (Flow.raise e s : Flow α).state = s := rfl
@[simp] theorem Flow.state_hang {α : Type} (s : State) : (Flow.hang s : Flow α).state = s := rfl

/-- However `c` ends, the state it leaves is related to the one it began in. -/
def Cmd.Keeps {α : Type} (R : State → State → Prop) (c : Cmd α) : Prop := ∀ s, R s (c s).state

/-- A relation a run of steps can be followed along. -/
structure IsFrame (R : State → State → Prop) : Prop where
  refl : ∀ s, R s s
  trans : ∀ {s t u}, R s t → R t u → R s u

/-- A frame that every transaction and every delay keeps. -/
structure IsBusFrame (R : State → State → Prop) : Prop extends IsFrame R where
  event : ∀ s e r, R s ((s.drawn.record ⟨e, r⟩).advance)
  stopped : ∀ s e, R s (s.stopped e)
  delay : ∀ s us, R s ((s.record ⟨.DLY us, .done⟩).advance)

variable {α β : Type} {R : State → State → Prop}

theorem Cmd.keeps_pure (hR : IsFrame R) (a : α) : (Cmd.pure a).Keeps R := fun s => hR.refl s
theorem Cmd.keeps_raise (hR : IsFrame R) (e : Status) : (Cmd.raise e : Cmd α).Keeps R := fun s => hR.refl s

theorem Cmd.keeps_update {f : State → State} (h : ∀ s, R s (f s)) : (Cmd.update f).Keeps R := h

theorem Cmd.Keeps.andThen (hR : IsFrame R) {c : Cmd α} {f : α → Cmd β} (hc : c.Keeps R) (hf : ∀ a, (f a).Keeps R) :
    (c.andThen f).Keeps R := fun s => by
  have hs := hc s
  rcases Cmd.andThen_cases c f s with ⟨a, t, h, h'⟩ | ⟨e, t, h, h'⟩ | ⟨t, h, h'⟩ <;> rw [h'] <;> rw [h] at hs
  · exact hR.trans hs (hf a t)
  · exact hs
  · exact hs

theorem Cmd.keeps_forEach (hR : IsFrame R) {c : α → Cmd Unit} (hc : ∀ a, (c a).Keeps R) (l : List α) :
    (Cmd.forEach c l).Keeps R := by
  induction l with
  | nil => exact Cmd.keeps_pure hR ()
  | cons a l ih => exact (hc a).andThen hR fun _ => ih

theorem Cmd.Keeps.onRaise (hR : IsFrame R) {c : Cmd α} {f : State → State} (hc : c.Keeps R) (hf : ∀ s, R s (f s)) :
    (c.onRaise f).Keeps R := fun s => by
  have hs := hc s
  unfold Cmd.onRaise
  cases h : c s with
  | done a t => simpa [h] using hs
  | raise e t => rw [h] at hs; exact hR.trans hs (hf t)
  | hang t => simpa [h] using hs

theorem Cmd.Keeps.atEnd (hR : IsFrame R) {c : Cmd α} {f : State → State} (hc : c.Keeps R) (hf : ∀ s, R s (f s)) :
    (c.atEnd f).Keeps R := fun s => by
  have hs := hc s
  unfold Cmd.atEnd
  cases h : c s with
  | done a t => rw [h] at hs; exact hR.trans hs (hf t)
  | raise e t => rw [h] at hs; exact hR.trans hs (hf t)
  | hang t => simpa [h] using hs

theorem Cmd.Keeps.noResult (hR : IsFrame R) {c : Cmd Unit} (hc : c.Keeps R) : c.noResult.Keeps R :=
  hc.andThen hR fun _ => Cmd.keeps_pure hR none

theorem keeps_require (hR : IsFrame R) (b : Bool) (e : Status) : (require b e).Keeps R := fun s => by
  rcases require_cases b e s with ⟨_, h⟩ | ⟨_, h⟩ <;> rw [h] <;> exact hR.refl s

theorem keeps_checkInit (hR : IsFrame R) : checkInit.Keeps R := fun s => keeps_require hR _ _ s

theorem keeps_checkChannel (hR : IsFrame R) (c : Byte) : (checkChannel c).Keeps R := fun s => by
  unfold checkChannel
  split <;> exact hR.refl s

theorem keeps_transact (hR : IsBusFrame R) (e : Event) : (transact e).Keeps R := fun s => by
  unfold transact
  split
  · split
    · exact hR.event s e _
    · exact hR.stopped s _
    · exact hR.stopped s _
  · exact hR.refl s

theorem keeps_memRead (hR : IsBusFrame R) (reg : Byte) : (memRead reg).Keeps R := fun s => keeps_transact hR _ s

theorem keeps_memWrite (hR : IsBusFrame R) (reg v : Byte) : (memWrite reg v).Keeps R := fun s =>
  (keeps_transact hR _).andThen hR.toIsFrame (fun _ => Cmd.keeps_pure hR.toIsFrame ()) s

theorem keeps_generalCallReset (hR : IsBusFrame R) : generalCallReset.Keeps R :=
  (keeps_transact hR _).andThen hR.toIsFrame fun _ => Cmd.keeps_pure hR.toIsFrame ()

theorem keeps_busInit (hR : IsBusFrame R) : busInit.Keeps R :=
  (keeps_transact hR _).andThen hR.toIsFrame fun _ => Cmd.keeps_pure hR.toIsFrame ()

theorem keeps_busDeinit (hR : IsBusFrame R) : busDeinit.Keeps R :=
  (keeps_transact hR _).andThen hR.toIsFrame fun _ => Cmd.keeps_pure hR.toIsFrame ()

theorem keeps_delay (hR : IsBusFrame R) (us : Nat) : (delay us).Keeps R := fun s => hR.delay s us

theorem keeps_writeAll (hR : IsBusFrame R) (ws : List (Byte × Byte)) : (writeAll ws).Keeps R :=
  Cmd.keeps_forEach (c := fun w : Byte × Byte => memWrite w.1 w.2) hR.toIsFrame (fun w => keeps_memWrite hR w.1 w.2) ws

theorem keeps_modifyMode (hR : IsBusFrame R) (reg set clear : Byte) : (modifyMode reg set clear).Keeps R :=
  (keeps_memRead hR reg).andThen hR.toIsFrame fun _ => keeps_memWrite hR reg _

theorem keeps_driverSeq (hR : IsBusFrame R) : driverSeq.Keeps R := fun s => by
  unfold driverSeq
  cases s.params.outputDriverMode <;> exact keeps_modifyMode hR _ _ _ s

/-- The sub-sequences keep a bus frame that the bookkeeping of R152 keeps. -/
theorem keeps_noteDsm (hR : IsFrame R) (track : Bool) (d : DsmState) (h : track = true → ∀ s, R s (s.setDsm d)) :
    (noteDsm track d).Keeps R := fun s => by
  cases track
  · exact hR.refl s
  · exact h rfl s

theorem keeps_sleepSeq (hR : IsBusFrame R) (track : Bool) (h : track = true → ∀ s, R s (s.setDsm .asleep)) :
    (sleepSeq track).Keeps R := fun s =>
  (keeps_modifyMode hR _ _ _).andThen hR.toIsFrame (fun _ => keeps_noteDsm hR.toIsFrame track _ h) s

theorem keeps_wakeSeq (hR : IsBusFrame R) (track : Bool) (h : track = true → ∀ s, R s (s.setDsm .awake)) :
    (wakeSeq track).Keeps R := fun s =>
  (keeps_modifyMode hR _ _ _).andThen hR.toIsFrame
    (fun _ => (keeps_noteDsm hR.toIsFrame track _ h).andThen hR.toIsFrame fun _ => keeps_delay hR _) s

theorem keeps_prescaleSeq (hR : IsBusFrame R) (track : Bool) (p : Byte)
    (hs : track = true → ∀ s, R s (s.setDsm .asleep)) (hw : track = true → ∀ s, R s (s.setDsm .awake)) :
    (prescaleSeq track p).Keeps R :=
  (keeps_sleepSeq hR track hs).andThen hR.toIsFrame fun _ =>
    (keeps_memWrite hR _ _).andThen hR.toIsFrame fun _ => keeps_wakeSeq hR track hw

theorem keeps_writeChannelTiming (hR : IsBusFrame R) (n : Fin 16) (t : Timing) : (writeChannelTiming n t).Keeps R :=
  keeps_writeAll hR _

/-! ## The commands -/

/-- A frame that every sequence of bus events and every assignment but that of `initialized` keeps. The sequences are
taken whole, so that a relation which speaks of neighbouring events (a write right after a read) is one too. -/
structure IsSequenceFrame (R : State → State → Prop) : Prop extends IsFrame R where
  transportInit : busInit.Keeps R
  reset : generalCallReset.Keeps R
  transportDeinit : busDeinit.Keeps R
  sleep : (sleepSeq true).Keeps R
  wake : ∀ track, (wakeSeq track).Keeps R
  frequency : ∀ track f, (prescaleSeq track (computePrescale f)).Keeps R
  driver : driverSeq.Keeps R
  timing : ∀ n t, (writeChannelTiming n t).Keeps R
  setDsm : ∀ s d, R s (s.setDsm d)
  setFrequency : ∀ s f p, R s (s.setFrequency f p)
  setChannel : ∀ s n r, R s (s.setChannel n r)

/-- A sequence frame that the assignments of `initialized` keep too. -/
structure IsCommandFrame (R : State → State → Prop) : Prop extends IsSequenceFrame R where
  setInitialized : ∀ s b, R s (s.setInitialized b)

/-- A frame that every single event keeps, and every assignment, is a sequence frame. -/
theorem IsBusFrame.toSequenceFrame (hR : IsBusFrame R) (setDsm : ∀ s d, R s (s.setDsm d))
    (setFrequency : ∀ s f p, R s (s.setFrequency f p)) (setChannel : ∀ s n r, R s (s.setChannel n r)) :
    IsSequenceFrame R where
  toIsFrame := hR.toIsFrame
  transportInit := keeps_busInit hR
  reset := keeps_generalCallReset hR
  transportDeinit := keeps_busDeinit hR
  sleep := keeps_sleepSeq hR true fun _ s => setDsm s _
  wake track := keeps_wakeSeq hR track fun _ s => setDsm s _
  frequency track _ := keeps_prescaleSeq hR track _ (fun _ s => setDsm s _) (fun _ s => setDsm s _)
  driver := keeps_driverSeq hR
  timing := keeps_writeChannelTiming hR
  setDsm := setDsm
  setFrequency := setFrequency
  setChannel := setChannel

theorem IsBusFrame.toCommandFrame (hR : IsBusFrame R) (setDsm : ∀ s d, R s (s.setDsm d))
    (setInitialized : ∀ s b, R s (s.setInitialized b)) (setFrequency : ∀ s f p, R s (s.setFrequency f p))
    (setChannel : ∀ s n r, R s (s.setChannel n r)) : IsCommandFrame R where
  toIsSequenceFrame := hR.toSequenceFrame setDsm setFrequency setChannel
  setInitialized := setInitialized

theorem keeps_bringUp (hR : IsCommandFrame R) (f : Nat) : (bringUp f).Keeps R := by
  have hF := hR.toIsFrame
  refine hR.transportInit.andThen hF fun _ => hR.reset.andThen hF fun _ => (hR.frequency _ _).andThen hF fun _ =>
    hR.driver.andThen hF fun _ => (hR.wake _).andThen hF fun _ => Cmd.keeps_update fun s => ?_
  exact hF.trans (hF.trans (hR.setFrequency s _ _) (hR.setInitialized _ true)) (hR.setDsm _ .awake)

theorem keeps_initializeSteps (hR : IsCommandFrame R) : initializeSteps.Keeps R := fun s => by
  have hF := hR.toIsFrame
  unfold initializeSteps
  split
  · exact hF.refl s
  · split
    · exact hF.trans (hR.setDsm s _) ((keeps_bringUp hR _).onRaise hF (fun t => hR.setDsm t _) _)
    · exact hF.refl s

theorem keeps_changeFrequency (hR : IsSequenceFrame R) (f : Word) : (changeFrequency f).Keeps R :=
  (hR.frequency _ _).andThen hR.toIsFrame
    fun _ => Cmd.keeps_update fun s => hR.setFrequency s _ _

theorem keeps_stopChannel (hR : IsSequenceFrame R) (n : Fin 16) : (stopChannel n).Keeps R :=
  (hR.timing _ _).andThen hR.toIsFrame
    fun _ => Cmd.keeps_update fun s => hR.setChannel s _ _

theorem keeps_startChannel (hR : IsSequenceFrame R) (n : Fin 16) : (startChannel n).Keeps R := fun s =>
  (hR.timing _ _).andThen hR.toIsFrame
    (fun _ => Cmd.keeps_update fun s => hR.setChannel s _ _) s

theorem keeps_applyDuty (hR : IsSequenceFrame R) (n : Fin 16) (w : Word) : (applyDuty n w).Keeps R := fun s =>
  (hR.timing _ _).andThen hR.toIsFrame
    (fun _ => Cmd.keeps_update fun s => hR.setChannel s _ _) s

theorem keeps_deinitializeSteps (hR : IsCommandFrame R) : deinitializeSteps.Keeps R :=
  (Cmd.keeps_forEach hR.toIsFrame (keeps_stopChannel hR.toIsSequenceFrame) _).andThen hR.toIsFrame fun _ =>
    hR.sleep.andThen hR.toIsFrame fun _ =>
    hR.transportDeinit.andThen hR.toIsFrame fun _ =>
    Cmd.keeps_update fun s => hR.trans (hR.setInitialized s _) (hR.setDsm _ _)

theorem keeps_destroySteps (hR : IsCommandFrame R) : destroySteps.Keeps R := fun s => by
  unfold destroySteps
  split
  · exact (keeps_deinitializeSteps hR).atEnd hR.toIsFrame (fun t => hR.setDsm t _) s
  · exact (Cmd.keeps_pure hR.toIsFrame ()).atEnd hR.toIsFrame (fun t => hR.setDsm t _) s

theorem keeps_setDutyCycleSteps (hR : IsSequenceFrame R) (c : Byte) (w : Word) : (setDutyCycleSteps c w).Keeps R :=
  (keeps_checkInit hR.toIsFrame).andThen hR.toIsFrame fun _ =>
    (keeps_checkChannel hR.toIsFrame c).andThen hR.toIsFrame fun n =>
    (keeps_require hR.toIsFrame _ _).andThen hR.toIsFrame fun _ => keeps_applyDuty hR n w

theorem keeps_startSteps (hR : IsSequenceFrame R) (c : Byte) : (startSteps c).Keeps R :=
  (keeps_checkInit hR.toIsFrame).andThen hR.toIsFrame fun _ =>
    (keeps_checkChannel hR.toIsFrame c).andThen hR.toIsFrame fun n => keeps_startChannel hR n

theorem keeps_stopSteps (hR : IsSequenceFrame R) (c : Byte) : (stopSteps c).Keeps R :=
  (keeps_checkInit hR.toIsFrame).andThen hR.toIsFrame fun _ =>
    (keeps_checkChannel hR.toIsFrame c).andThen hR.toIsFrame fun n => keeps_stopChannel hR n

theorem keeps_configureChannelSteps (hR : IsSequenceFrame R) (c : Byte) (f w : Word) :
    (configureChannelSteps c f w).Keeps R :=
  (keeps_checkInit hR.toIsFrame).andThen hR.toIsFrame fun _ =>
    (keeps_checkChannel hR.toIsFrame c).andThen hR.toIsFrame fun n =>
    (keeps_require hR.toIsFrame _ _).andThen hR.toIsFrame fun _ =>
    (keeps_require hR.toIsFrame _ _).andThen hR.toIsFrame fun _ =>
    (keeps_changeFrequency hR f).andThen hR.toIsFrame fun _ => keeps_applyDuty hR n w

theorem keeps_batch (hR : IsSequenceFrame R) {op : α → Cmd Unit} (hop : ∀ a, (op a).Keeps R) (l : List α) :
    (batch op l).Keeps R :=
  (keeps_checkInit hR.toIsFrame).andThen hR.toIsFrame fun _ =>
    (keeps_require hR.toIsFrame _ _).andThen hR.toIsFrame fun _ => Cmd.keeps_forEach hR.toIsFrame hop l

/-- The steps of a command: what `exec` runs between the refusal of a destroyed instance and the response. -/
def stepsOf : Instr → Cmd (Option Word)
  | .computePrescale f => computePrescaleSteps f
  | .computeTiming w => computeTimingSteps w
  | .initializeDevice => initializeSteps.noResult
  | .setFrequency f => (checkInit.andThen fun _ => (checkFreq f).andThen fun _ => changeFrequency f).noResult
  | .sleep => (checkInit.andThen fun _ => sleepSeq true).noResult
  | .wakeup => (checkInit.andThen fun _ => wakeSeq true).noResult
  | .deinitialize => (checkInit.andThen fun _ => deinitializeSteps).noResult
  | .destroy => destroySteps.noResult
  | .setDutyCycle c w => (setDutyCycleSteps c w).noResult
  | .start c => (startSteps c).noResult
  | .stop c => (stopSteps c).noResult
  | .configureChannel c f w => (configureChannelSteps c f w).noResult
  | .startMultiple chs => (batch startSteps chs).noResult
  | .stopMultiple chs => (batch stopSteps chs).noResult
  | .setDutyCycleMultiple es => (batch (fun e => setDutyCycleSteps e.1 e.2) es).noResult
  | .setPhase c | .configureFade c | .startFade c | .configureComplementary c | .setDeadTime c
  | .registerCallback c => stub c

/-- Every command is `runCommand` of its steps. -/
theorem exec_eq_runCommand (i : Instr) (s : State) : exec i s = runCommand (stepsOf i) s := by
  cases i <;> rfl

/-- The steps of every command keep a command frame. -/
theorem keeps_stepsOf (hR : IsCommandFrame R) (i : Instr) : (stepsOf i).Keeps R := by
  have hS := hR.toIsSequenceFrame
  have hF := hR.toIsFrame
  cases i with
  | computePrescale f => exact (keeps_require hF _ _).andThen hF fun _ => Cmd.keeps_pure hF _
  | computeTiming w => exact fun s => (keeps_require hF _ _).andThen hF (fun _ => Cmd.keeps_pure hF _) s
  | initializeDevice => exact (keeps_initializeSteps hR).noResult hF
  | setFrequency f =>
    exact ((keeps_checkInit hF).andThen hF fun _ => (keeps_require hF _ _).andThen hF fun _ =>
      keeps_changeFrequency hS f).noResult hF
  | sleep => exact ((keeps_checkInit hF).andThen hF fun _ => hR.sleep).noResult hF
  | wakeup => exact ((keeps_checkInit hF).andThen hF fun _ => hR.wake _).noResult hF
  | deinitialize => exact ((keeps_checkInit hF).andThen hF fun _ => keeps_deinitializeSteps hR).noResult hF
  | destroy => exact (keeps_destroySteps hR).noResult hF
  | setDutyCycle c w => exact (keeps_setDutyCycleSteps hS c w).noResult hF
  | start c => exact (keeps_startSteps hS c).noResult hF
  | stop c => exact (keeps_stopSteps hS c).noResult hF
  | configureChannel c f w => exact (keeps_configureChannelSteps hS c f w).noResult hF
  | startMultiple chs => exact (keeps_batch hS (keeps_startSteps hS) chs).noResult hF
  | stopMultiple chs => exact (keeps_batch hS (keeps_stopSteps hS) chs).noResult hF
  | setDutyCycleMultiple es => exact (keeps_batch hS (fun e => keeps_setDutyCycleSteps hS e.1 e.2) es).noResult hF
  | setPhase c => exact Cmd.keeps_raise hF _
  | configureFade c => exact Cmd.keeps_raise hF _
  | startFade c => exact Cmd.keeps_raise hF _
  | configureComplementary c => exact Cmd.keeps_raise hF _
  | setDeadTime c => exact Cmd.keeps_raise hF _
  | registerCallback c => exact Cmd.keeps_raise hF _

/-- Everything `exec` can answer, with the state its steps left. -/
theorem exec_cases (i : Instr) (s : State) :
    (s.dsmState = .destroyed ∧ exec i s = .refused .destroyed) ∨
    (alive s ∧ ∃ r t, stepsOf i (s.setPc (some 1)) = .done r t ∧ exec i s = .next (t.respond .success r)) ∨
    (alive s ∧ ∃ e t, stepsOf i (s.setPc (some 1)) = .raise e t ∧ exec i s = .next (t.respond e none)) ∨
    (alive s ∧ ∃ t, stepsOf i (s.setPc (some 1)) = .hang t ∧ exec i s = .fault (.transportHang t)) := by
  rw [exec_eq_runCommand]
  exact runCommand_cases _ _

/-- A completed command leaves the state its steps reached, with the response written. -/
theorem exec_next {i : Instr} {s t : State} (h : exec i s = .next t) :
    alive s ∧ ∃ e r, t = ((stepsOf i (s.setPc (some 1))).state).respond e r := by
  rcases exec_cases i s with ⟨_, h'⟩ | ⟨ha, r, u, hu, h'⟩ | ⟨ha, e, u, hu, h'⟩ | ⟨_, u, _, h'⟩ <;> rw [h'] at h
  · cases h
  · cases h; exact ⟨ha, .success, r, by rw [hu]; rfl⟩
  · cases h; exact ⟨ha, e, none, by rw [hu]; rfl⟩
  · cases h

/-- What the steps of a command keep, the completed command keeps, if setting `pc` and writing the response do. -/
theorem exec_keeps (hR : IsCommandFrame R) (hpc : ∀ s k, R s (s.setPc k)) (hresp : ∀ s e r, R s (s.respond e r))
    {i : Instr} {s t : State} (h : exec i s = .next t) : R s t := by
  obtain ⟨_, e, r, rfl⟩ := exec_next h
  exact hR.trans (hR.trans (hpc s _) (keeps_stepsOf hR i _)) (hresp _ e r)

/-- Everything a step can answer. -/
theorem step_cases (s : State) :
    (s.hostOverlap = true ∧ step s = .refused .notSerialised) ∨
    (s.hostOverlap = false ∧ decode s.stream = .incomplete ∧ step s = .fault .awaitingWord) ∨
    (s.hostOverlap = false ∧ ∃ why rest, decode s.stream = .reject why rest ∧
      step s = runRejected (s.setStream rest)) ∨
    (s.hostOverlap = false ∧ ∃ i rest, decode s.stream = .command i rest ∧
      step s = exec i (s.setStream rest)) := by
  unfold step fetchAndRun
  cases ho : s.hostOverlap with
  | true => simp
  | false => cases hd : decode s.stream <;> simp [runDecoded]

/-- An encoding that selects no command completes with NotSupported and no other effect, on an instance that is not
destroyed. -/
theorem runRejected_eq {s : State} (ha : alive s) :
    runRejected s = .next ((s.setPc (some 1)).respond .notSupported none) :=
  runCommand_raise ha rfl

/-- A completed step is a completed command, or an encoding that selects none, on the rest of the stream. -/
theorem step_next {s t : State} (h : step s = .next t) :
    s.hostOverlap = false ∧ ∃ rest,
      (∃ why, decode s.stream = .reject why rest ∧ alive s ∧
        t = ((s.setStream rest).setPc (some 1)).respond .notSupported none) ∨
      (∃ i, decode s.stream = .command i rest ∧ exec i (s.setStream rest) = .next t) := by
  rcases step_cases s with ⟨_, h'⟩ | ⟨_, _, h'⟩ | ⟨ho, why, rest, hd, h'⟩ | ⟨ho, i, rest, hd, h'⟩ <;> rw [h'] at h
  · cases h
  · cases h
  · by_cases ha : alive (s.setStream rest)
    · rw [runRejected_eq ha] at h
      cases h
      exact ⟨ho, rest, .inl ⟨why, hd, ha, rfl⟩⟩
    · rw [runRejected, runCommand_destroyed (not_not.mp ha)] at h
      cases h
  · exact ⟨ho, rest, .inr ⟨i, hd, h⟩⟩

/-- What every command keeps, every step keeps, if taking words off the stream does too. -/
theorem step_keeps (hR : IsCommandFrame R) (hpc : ∀ s k, R s (s.setPc k)) (hresp : ∀ s e r, R s (s.respond e r))
    (hst : ∀ s ws, R s (s.setStream ws)) {s t : State} (h : step s = .next t) : R s t := by
  obtain ⟨_, rest, ⟨_, _, _, rfl⟩ | ⟨i, _, h⟩⟩ := step_next h
  · exact hR.trans (hst s rest) (hR.trans (hpc _ _) (hresp _ _ _))
  · exact hR.trans (hst s rest) (exec_keeps hR hpc hresp h)

end Sys2Proof.Machine
end

