-- ==== Sys2Proof/Laws/Commands.lean ====
section
/-! SUPPORT. What the parts of the commands do, when every transaction is answered OK and when one FAILs or is
never answered; what a loop over channels does; and how the states they reach end. -/

namespace Sys2Proof.Machine

variable {x : Stop}

/-! ## Endings -/

theorem respond_after (s : State) (k : Option Nat) (es : List Entry) (j : Nat) (e : Status) :
    ((s.setPc k).after es j).respond e none = ended s es j (statusCode e) := rfl

theorem respond_cut (s : State) (k : Option Nat) (es : List Entry) (i j : Nat) (e : Status) :
    ((s.setPc k).cut .fail es i j).respond e none = ended s (cutAt es i) (j + 1) (statusCode e) := rfl

theorem hung_cut (s : State) (es : List Entry) (i j : Nat) :
    (s.setPc (some 1)).cut .hang es i j = hung s es i j := by
  simp [State.cut, hung, State.setPc, Stop.reply, Nat.add_comm]

/-- A command that raises before any event has no effect but its response. -/
theorem runCommand_rejected {c : Cmd (Option Word)} {s : State} {e : Status} (ha : alive s)
    (h : c (s.setPc (some 1)) = .raise e (s.setPc (some 1))) :
    runCommand c s = .next (rejectedWith s (statusCode e)) := by
  rw [runCommand_raise ha h]
  simp [rejectedWith, ended, State.respond, responseWords, statusWord, State.setPc]

theorem Cmd.onRaise_done {α : Type} {c : Cmd α} {f : State → State} {s t : State} {a : α} (h : c s = .done a t) :
    c.onRaise f s = .done a t := by simp [Cmd.onRaise, h]

theorem Cmd.onRaise_raise {α : Type} {c : Cmd α} {f : State → State} {s t : State} {e : Status}
    (h : c s = .raise e t) : c.onRaise f s = .raise e (f t) := by simp [Cmd.onRaise, h]

theorem Cmd.onRaise_hang {α : Type} {c : Cmd α} {f : State → State} {s t : State} (h : c s = .hang t) :
    c.onRaise f s = .hang t := by simp [Cmd.onRaise, h]

theorem Cmd.atEnd_done {α : Type} {c : Cmd α} {f : State → State} {s t : State} {a : α} (h : c s = .done a t) :
    c.atEnd f s = .done a (f t) := by simp [Cmd.atEnd, h]

theorem Cmd.atEnd_raise {α : Type} {c : Cmd α} {f : State → State} {s t : State} {e : Status}
    (h : c s = .raise e t) : c.atEnd f s = .raise e (f t) := by simp [Cmd.atEnd, h]

theorem Cmd.atEnd_hang {α : Type} {c : Cmd α} {f : State → State} {s t : State} (h : c s = .hang t) :
    c.atEnd f s = .hang t := by simp [Cmd.atEnd, h]

theorem frequencyInRange_iff (f : Word) : frequencyInRange f = true ↔ 24 ≤ f.toNat ∧ f.toNat ≤ 1526 := by
  rw [frequencyInRange, Bool.and_eq_true, decide_eq_true_iff, decide_eq_true_iff]
  rfl

theorem checkFreq_raise {f : Word} (h : frequencyInRange f = false) (s : State) :
    checkFreq f s = .raise .invalidFrequency s := by simp [checkFreq, h]

theorem checkDuty_raise {w : Word} (h : dutyInRange w = false) (s : State) :
    checkDuty w s = .raise .invalidDutyCycle s := by simp [checkDuty, h]

/-! ## INITIALIZE -/

theorem bringUp_ok {s : State} (f : Nat) (ht : s.cfg.transportPresent = true) (h : okFor s 11) :
    bringUp f s = .done ()
      ((((s.after (bringUpEvents s (computePrescale f)) 11).setFrequency (BitVec.ofNat 32 f)
        (computePrescale f)).setInitialized true).setDsm .awake) := by
  have g0 := upcoming_eq_ok (h 0 (by omega))
  have g1 := upcoming_eq_ok (h 1 (by omega))
  rw [bringUp, Cmd.andThen_done (busInit_ok (b := byteAt s 0) ht g0),
    Cmd.andThen_done (generalCallReset_ok (b := byteAt s 1) (by simpa using ht) (by simpa using g1)),
    Cmd.andThen_done (prescaleSeq_ok _ _ (by simpa using ht)
      (fun k hk => by simpa [Nat.add_assoc] using h (2 + k) (by omega))),
    Cmd.andThen_done (driverSeq_ok (by simpa using ht)
      (fun k hk => by simpa [Nat.add_assoc] using h (7 + k) (by omega))),
    Cmd.andThen_done (wakeSeq_ok _ (by simpa using ht)
      (fun k hk => by simpa [Nat.add_assoc] using h (9 + k) (by omega)))]
  simp [bringUpEvents, List.append_assoc, byteAt]

theorem bringUp_stop {s : State} (f : Nat) {j : Nat} (hj : j < 11) (ht : s.cfg.transportPresent = true)
    (h : stopsAfter x s j) :
    bringUp f s = x.flow
      (s.cut x (bringUpEvents s (computePrescale f)) (if j < 7 then j else j + 1) j) := by
  have hev : bringUpEvents s (computePrescale f) = [⟨.TI, .done⟩] ++ ([⟨.GC, .done⟩] ++
      (prescaleEvents s.cfg.i2cAddress s.params.sleepMask (computePrescale f) (byteAt s 2) (byteAt s 5) ++
      (driverEvents s.cfg.i2cAddress s.params.outdrvMask s.params.outputDriverMode (byteAt s 7) ++
      wakeEvents s.cfg.i2cAddress s.params.sleepMask (byteAt s 9)))) := by
    simp [bringUpEvents]
  rw [hev, bringUp]
  by_cases h0 : j = 0
  · subst h0
    rw [Cmd.andThen_stop (busInit_stop ht h.2)]
    rfl
  obtain ⟨i, rfl⟩ : ∃ i, j = i + 1 := ⟨j - 1, by omega⟩
  have g0 := upcoming_eq_ok (h.1 0 (by omega))
  rw [Cmd.andThen_done (busInit_ok (b := byteAt s 0) ht g0)]
  by_cases h1 : i = 0
  · subst h1
    rw [Cmd.andThen_stop (generalCallReset_stop (by simpa using ht) (by simpa using h.2)), State.after_cut]
    rfl
  obtain ⟨i, rfl⟩ : ∃ i', i = i' + 1 := ⟨i - 1, by omega⟩
  have g1 := upcoming_eq_ok (h.1 1 (by omega))
  rw [Cmd.andThen_done (generalCallReset_ok (b := byteAt s 1) (by simpa using ht) (by simpa using g1)),
    State.after_after]
  have hf := h.after ([⟨.TI, .done⟩] ++ [⟨.GC, .done⟩]) (j := 1 + 1) (m := i) (by omega)
  rw [← List.append_assoc]
  have step1 : ∀ (es : List Entry) (k : Nat), s.cut x (([⟨.TI, .done⟩] ++ [⟨.GC, .done⟩]) ++ es) (k + 2) (i + 2) =
      (s.after ([⟨.TI, .done⟩] ++ [⟨.GC, .done⟩]) (1 + 1)).cut x es k i := fun es k => by
    rw [State.after_cut]; simp [Nat.add_comm]
  by_cases h2 : i < 5
  · rw [Cmd.andThen_stop (prescaleSeq_stop false _ h2 (by simpa using ht) hf),
      if_pos (show i + 1 + 1 < 7 by omega), step1,
      State.cut_append_left _ _ _ (by simp [prescaleEvents, sleepEvents, wakeEvents]; omega)]
    simp
  · obtain ⟨i, rfl⟩ : ∃ i', i = 5 + i' := ⟨i - 5, by omega⟩
    rw [Cmd.andThen_done (prescaleSeq_ok false _ (by simpa using ht) (hf.1.mono (by omega))), State.noted_false,
      if_neg (show ¬ 5 + i + 1 + 1 < 7 by omega), show 5 + i + 1 + 1 + 1 = (6 + i) + 2 by omega,
      show 5 + i + 1 + 1 = (5 + i) + 2 by omega, step1]
    generalize hu : s.after ([⟨.TI, .done⟩] ++ [⟨.GC, .done⟩]) (1 + 1) = u at hf ⊢
    have hcfg : u.cfg = s.cfg := by rw [← hu]; rfl
    have hpar : u.params = s.params := by rw [← hu]; rfl
    have hb : ∀ k, byteAt s (k + 2) = byteAt u k := fun k => by rw [← hu]; simp [byteAt, Nat.add_comm]
    rw [hb 0, hb 3, hb 5, hb 7, ← hcfg, ← hpar]
    have ht' : u.cfg.transportPresent = true := hcfg ▸ ht
    generalize hes : prescaleEvents u.cfg.i2cAddress u.params.sleepMask (computePrescale f) (byteAt u 0) (byteAt u 3)
      = es
    have hlen : es.length = 6 := by rw [← hes]; rfl
    have hf' := hf.after es (j := 5) (m := i) rfl
    rw [show 6 + i = es.length + i by omega, ← State.after_cut u es _ 5 i i]
    have hb' : ∀ k, byteAt u (k + 5) = byteAt (u.after es 5) k := fun k => by simp [byteAt, Nat.add_comm]
    rw [hb' 0, hb' 2]
    have ht'' : (u.after es 5).cfg.transportPresent = true := ht'
    by_cases h3 : i < 2
    · rw [Cmd.andThen_stop (driverSeq_stop h3 ht'' hf'),
        State.cut_append_left _ _ _ (by simpa [driverEvents] using h3)]
      rfl
    · obtain ⟨i, rfl⟩ : ∃ i', i = 2 + i' := ⟨i - 2, by omega⟩
      rw [Cmd.andThen_done (driverSeq_ok ht'' (hf'.1.mono (by omega)))]
      have hf'' := hf'.after (driverEvents u.cfg.i2cAddress u.params.outdrvMask u.params.outputDriverMode
        (byteAt (u.after es 5) 0)) (j := 2) (m := i) rfl
      simp only [State.after_cfg, State.after_params]
      rw [Cmd.andThen_stop (wakeSeq_stop false (j := i) (by omega) (by exact ht'') hf'')]
      rw [State.after_cut]
      simp [byteAt, driverEvents]

/-! ## The frequency change -/

theorem changeFrequency_ok {s : State} (f : Word) (ht : s.cfg.transportPresent = true) (h : okFor s 5) :
    changeFrequency f s = .done ()
      (((s.after (prescaleEvents s.cfg.i2cAddress s.params.sleepMask (computePrescale f.toNat) (byteAt s 0)
        (byteAt s 3)) 5).setDsm .awake).setFrequency f (computePrescale f.toNat)) := by
  rw [changeFrequency, Cmd.andThen_done (prescaleSeq_ok true _ ht h)]
  rfl

theorem changeFrequency_stop {s : State} (f : Word) {j : Nat} (hj : j < 5) (ht : s.cfg.transportPresent = true)
    (h : stopsAfter x s j) :
    changeFrequency f s = x.flow
      ((s.cut x (prescaleEvents s.cfg.i2cAddress s.params.sleepMask (computePrescale f.toNat) (byteAt s 0)
        (byteAt s 3)) j j).setDsm (if j < 2 then s.dsmState else .asleep)) := by
  rw [changeFrequency, Cmd.andThen_stop (prescaleSeq_stop true _ hj ht h)]
  by_cases hj2 : j < 2
  · simp only [hj2, Nat.not_le.mpr hj2, if_true, decide_false, Bool.and_false, State.noted_false]
    rfl
  · simp [hj2, Nat.not_lt.mp hj2]

/-! ## Channel updates -/

/-- The Channel Store changed by a function, everything else as it was. -/
def State.withChannels (s : State) (g : Vector ChannelRecord 16 → Vector ChannelRecord 16) : State :=
  { s with channels := g s.channels }

@[simp] theorem State.withChannels_cfg (s : State) (g : Vector ChannelRecord 16 → Vector ChannelRecord 16) :
    (s.withChannels g).cfg = s.cfg := rfl
@[simp] theorem State.withChannels_params (s : State) (g : Vector ChannelRecord 16 → Vector ChannelRecord 16) :
    (s.withChannels g).params = s.params := rfl
@[simp] theorem State.withChannels_dsmState (s : State) (g : Vector ChannelRecord 16 → Vector ChannelRecord 16) :
    (s.withChannels g).dsmState = s.dsmState := rfl
@[simp] theorem State.withChannels_channels (s : State) (g : Vector ChannelRecord 16 → Vector ChannelRecord 16) :
    (s.withChannels g).channels = g s.channels := rfl
@[simp] theorem State.upcoming_withChannels (s : State) (g : Vector ChannelRecord 16 → Vector ChannelRecord 16)
    (k : Nat) : (s.withChannels g).upcoming k = s.upcoming k := rfl

/-- The Channel Store with `active <- b` for one channel. -/
def activeSet (b : Bool) (n : Fin 16) (v : Vector ChannelRecord 16) : Vector ChannelRecord 16 :=
  v.set n.val { v[n.val]'n.isLt with active := b } n.isLt

/-- The Channel Store with one duty recorded. -/
def dutySet (arith : DutyProductArith) (e : Fin 16 × Word) (v : Vector ChannelRecord 16) : Vector ChannelRecord 16 :=
  v.set e.1.val { active := true, dutyCycle := e.2, onCount := (computeTiming arith e.2).on,
                  offCount := (computeTiming arith e.2).off } e.1.isLt

theorem stopChannel_ok {s : State} (n : Fin 16) (ht : s.cfg.transportPresent = true) (h : okFor s 4) :
    stopChannel n s = .done () ((s.after (stopEvents s n) 4).withChannels (activeSet false n)) := by
  rw [stopChannel, Cmd.andThen_done (writeChannelTiming_ok n _ ht h)]
  rfl

theorem stopChannel_stop {s : State} (n : Fin 16) {j : Nat} (hj : j < 4) (ht : s.cfg.transportPresent = true)
    (h : stopsAfter x s j) : stopChannel n s = x.flow (s.cut x (stopEvents s n) j j) := by
  rw [stopChannel, Cmd.andThen_stop (writeChannelTiming_stop n _ hj ht h)]
  rfl

theorem startChannel_ok {s : State} (n : Fin 16) (ht : s.cfg.transportPresent = true) (h : okFor s 4) :
    startChannel n s = .done () ((s.after (storedEvents s n) 4).withChannels (activeSet true n)) := by
  rw [startChannel, Cmd.andThen_done (writeChannelTiming_ok n _ ht h)]
  rfl

theorem startChannel_stop {s : State} (n : Fin 16) {j : Nat} (hj : j < 4) (ht : s.cfg.transportPresent = true)
    (h : stopsAfter x s j) : startChannel n s = x.flow (s.cut x (storedEvents s n) j j) := by
  rw [startChannel, Cmd.andThen_stop (writeChannelTiming_stop n _ hj ht h)]
  rfl

theorem applyDuty_ok {s : State} (n : Fin 16) (w : Word) (ht : s.cfg.transportPresent = true) (h : okFor s 4) :
    applyDuty n w s = .done ()
      ((s.after (timingEvents s n (computeTiming s.params.dutyProductArith w)) 4).withChannels
        (dutySet s.params.dutyProductArith (n, w))) := by
  rw [applyDuty, Cmd.andThen_done (writeChannelTiming_ok n _ ht h)]
  rfl

theorem applyDuty_stop {s : State} (n : Fin 16) (w : Word) {j : Nat} (hj : j < 4)
    (ht : s.cfg.transportPresent = true) (h : stopsAfter x s j) :
    applyDuty n w s = x.flow
      (s.cut x (timingEvents s n (computeTiming s.params.dutyProductArith w)) j j) := by
  rw [applyDuty, Cmd.andThen_stop (writeChannelTiming_stop n _ hj ht h)]

/-! ## Loops over channels -/

/-- The Channel Store after a loop. -/
def storeFold {α : Type} (g : α → Vector ChannelRecord 16 → Vector ChannelRecord 16) (l : List α)
    (v : Vector ChannelRecord 16) : Vector ChannelRecord 16 := l.foldl (fun v a => g a v) v

/-- What an element of a loop does: four writes and an update of the Channel Store, from every state with `P`. -/
structure ElementSteps {α : Type} (op : α → Cmd Unit) (P : State → Prop) (ev : α → List Entry)
    (g : α → Vector ChannelRecord 16 → Vector ChannelRecord 16) (l : List α) : Prop where
  len : ∀ a, (ev a).length = 4
  ok : ∀ u a, a ∈ l → P u → okFor u 4 → op a u = .done () ((u.after (ev a) 4).withChannels (g a))
  stop : ∀ x u a j, a ∈ l → P u → j < 4 → stopsAfter x u j → op a u = x.flow (u.cut x (ev a) j j)
  keeps : ∀ u a, a ∈ l → P u → P ((u.after (ev a) 4).withChannels (g a))

theorem ElementSteps.tail {α : Type} {op : α → Cmd Unit} {P : State → Prop} {ev : α → List Entry}
    {g : α → Vector ChannelRecord 16 → Vector ChannelRecord 16} {a : α} {l : List α}
    (h : ElementSteps op P ev g (a :: l)) : ElementSteps op P ev g l where
  len := h.len
  ok u b hb := h.ok u b (List.mem_cons_of_mem _ hb)
  stop x u b j hb := h.stop x u b j (List.mem_cons_of_mem _ hb)
  keeps u b hb := h.keeps u b (List.mem_cons_of_mem _ hb)

theorem forEach_ok {α : Type} {op : α → Cmd Unit} {P : State → Prop} {ev : α → List Entry}
    {g : α → Vector ChannelRecord 16 → Vector ChannelRecord 16} {l : List α} (h : ElementSteps op P ev g l) {s : State}
    (hs : P s) (hok : okFor s (4 * l.length)) :
    Cmd.forEach op l s = .done () ((s.after (l.flatMap ev) (4 * l.length)).withChannels (storeFold g l)) := by
  induction l generalizing s with
  | nil => simp [Cmd.forEach, storeFold, State.withChannels]
  | cons a l ih =>
    have h1 := h.ok s a (by simp) hs (hok.mono (by rw [List.length_cons]; omega))
    rw [Cmd.forEach, Cmd.andThen_done h1]
    have hok' : okFor ((s.after (ev a) 4).withChannels (g a)) (4 * l.length) :=
      hok.after (ev a) (by simp only [List.length_cons]; omega)
    rw [ih h.tail (h.keeps s a (by simp) hs) hok']
    congr 1
    change ((s.after (ev a) 4).after (l.flatMap ev) (4 * l.length)).withChannels (storeFold g (a :: l)) = _
    rw [State.after_after, List.flatMap_cons, List.length_cons, Nat.mul_add, Nat.add_comm 4]

theorem forEach_stop {α : Type} {op : α → Cmd Unit} {P : State → Prop} {ev : α → List Entry}
    {g : α → Vector ChannelRecord 16 → Vector ChannelRecord 16} {l : List α} (h : ElementSteps op P ev g l) {s : State}
    {j : Nat} (hs : P s) (hj : j < 4 * l.length) (hf : stopsAfter x s j) :
    Cmd.forEach op l s = x.flow
      ((s.cut x (l.flatMap ev) j j).withChannels (storeFold g (l.take (j / 4)))) := by
  induction l generalizing s j with
  | nil => simp at hj
  | cons a l ih =>
    rw [Cmd.forEach, List.flatMap_cons]
    by_cases hj4 : j < 4
    · rw [Cmd.andThen_stop (h.stop x s a j (by simp) hs hj4 hf),
        State.cut_append_left _ _ _ (by rw [h.len a]; exact hj4), Nat.div_eq_of_lt hj4]
      rfl
    · obtain ⟨i, rfl⟩ : ∃ i, j = 4 + i := ⟨j - 4, by omega⟩
      have h1 := h.ok s a (by simp) hs (hf.1.mono (by omega))
      rw [Cmd.andThen_done h1]
      have hf' : stopsAfter x ((s.after (ev a) 4).withChannels (g a)) i := hf.after (ev a) rfl
      rw [ih h.tail (h.keeps s a (by simp) hs) (by simp at hj; omega) hf']
      congr 1
      have hdiv : (4 + i) / 4 = i / 4 + 1 := by omega
      rw [hdiv, List.take_succ_cons]
      change ((s.after (ev a) 4).cut x (l.flatMap ev) i i).withChannels (storeFold g (a :: l.take (i / 4))) = _
      rw [State.after_cut, h.len a]

/-! ### The Channel Store after a loop -/

theorem storeFold_active (b : Bool) (s : State) (ns : List (Fin 16)) :
    storeFold (activeSet b) ns s.channels = withActive s ns b := by
  suffices h : ∀ (v : Vector ChannelRecord 16), storeFold (activeSet b) ns v =
      Vector.ofFn fun m => if m ∈ ns then { v[m.val]'m.isLt with active := b } else v[m.val]'m.isLt from h _
  intro v
  induction ns generalizing v with
  | nil => ext1 m hm; simp [storeFold]
  | cons n ns ih =>
    rw [storeFold, List.foldl_cons, ← storeFold, ih]
    congr 1
    funext m
    by_cases hmn : m = n
    · subst hmn; simp [activeSet]
    · have : n.val ≠ m.val := fun h => hmn (Fin.ext h.symm)
      simp [activeSet, this, hmn]

theorem storeFold_duty (s : State) (es : List (Fin 16 × Word)) :
    storeFold (dutySet s.params.dutyProductArith) es s.channels = withDuties s es := by
  unfold withDuties
  induction es using List.reverseRecOn with
  | nil => ext1 m hm; simp [storeFold, State.channel]
  | append_singleton es e ih =>
    rw [storeFold, List.foldl_append, List.foldl_cons, List.foldl_nil, ← storeFold, ih]
    ext1 m hm
    by_cases hme : e.1.val = m
    · subst hme
      simp [dutySet, dutyRecord]
    · have h1 : ¬ e.1 = ⟨m, hm⟩ := fun h => hme (by rw [h])
      simp [dutySet, hme, h1]

/-- The elements of STOP's, START's and the duty update's loops, on a ready instance. -/
theorem stopElements (s : State) (l : List (Fin 16)) (ht : s.cfg.transportPresent = true) :
    ElementSteps stopChannel (fun u => u.cfg = s.cfg) (stopEvents s) (activeSet false) l where
  len _ := rfl
  ok u a _ hu h := by rw [stopChannel_ok a (hu ▸ ht) h, stopEvents, hu]; rfl
  stop x u a j _ hu hj h := by rw [stopChannel_stop a hj (hu ▸ ht) h, stopEvents, hu]; rfl
  keeps u a _ hu := hu

/-- The elements of START's loop, from every state whose stored timings are those of `s`. -/
theorem startElements (s : State) (l : List (Fin 16)) (ht : s.cfg.transportPresent = true) :
    ElementSteps startChannel (fun u => u.cfg = s.cfg ∧ ∀ n, (u.channel n).timing = (s.channel n).timing)
      (storedEvents s) (activeSet true) l where
  len _ := rfl
  ok u a _ hu h := by
    rw [startChannel_ok a (hu.1 ▸ ht) h]
    have : storedEvents u a = storedEvents s a := by
      have hc := hu.2 a
      simp only [ChannelRecord.timing, Timing.mk.injEq] at hc
      simp only [storedEvents, hu.1, hc]
    rw [this]
  stop x u a j _ hu hj h := by
    rw [startChannel_stop a hj (hu.1 ▸ ht) h]
    have : storedEvents u a = storedEvents s a := by
      have hc := hu.2 a
      simp only [ChannelRecord.timing, Timing.mk.injEq] at hc
      simp only [storedEvents, hu.1, hc]
    rw [this]
  keeps u a _ hu := by
    refine ⟨hu.1, fun n => ?_⟩
    rw [← hu.2 n]
    by_cases h : n = a
    · subst h; simp [State.channel, State.withChannels, activeSet, ChannelRecord.timing]
    · have : a.val ≠ n.val := fun e => h (Fin.ext e.symm)
      simp [State.channel, State.withChannels, activeSet, ChannelRecord.timing, this]

/-- The elements of the duty update's loop. -/
theorem dutyElements (s : State) (l : List (Fin 16 × Word)) (ht : s.cfg.transportPresent = true) :
    ElementSteps (fun e => applyDuty e.1 e.2) (fun u => u.cfg = s.cfg ∧ u.params = s.params)
      (fun e => timingEvents s e.1 (computeTiming s.params.dutyProductArith e.2))
      (dutySet s.params.dutyProductArith) l where
  len _ := rfl
  ok u a _ hu h := by rw [applyDuty_ok a.1 a.2 (hu.1 ▸ ht) h, timingEvents, hu.1, hu.2]; rfl
  stop x u a j _ hu hj h := by rw [applyDuty_stop a.1 a.2 hj (hu.1 ▸ ht) h, timingEvents, hu.1, hu.2]; rfl
  keeps u a _ hu := hu

/-! ## The steps of INITIALIZE, DEINITIALIZE and DESTROY -/

/-- A command on an initialized instance: its first check passes. -/
theorem checkInit_andThen {c : Cmd Unit} {s : State} {f : Flow Unit} (hi : s.cfg.initialized = true) (h : c s = f) :
    (checkInit.andThen fun _ => c) s = f := by
  rw [Cmd.andThen_done (checkInit_ok hi), h]

theorem initializeSteps_run {s : State} (hi : s.cfg.initialized = false) (ht : s.cfg.transportPresent = true) :
    initializeSteps s =
      (bringUp s.params.defaultFrequencyHz.val).onRaise (·.setDsm .uninit) (s.setDsm .resetting) := by
  simp [initializeSteps, hi, ht]

theorem destroySteps_run {s : State} (hi : s.cfg.initialized = true) :
    destroySteps s = deinitializeSteps.atEnd (·.setDsm .destroyed) s := by
  simp [destroySteps, hi]

/-- DEINITIALIZE's steps, every transaction answered OK. -/
theorem deinitializeSteps_ok {s : State} (ht : s.cfg.transportPresent = true) (hok : okFor s 67) :
    deinitializeSteps s = .done ()
      (((((s.after (deinitializeEvents s) 67).withChannels fun _ => withActive s allChannels false).setDsm
        .asleep).setInitialized false).setDsm .deinit) := by
  have hl : allChannels.length = 16 := rfl
  have hel := stopElements s allChannels ht
  have h1 := forEach_ok hel rfl (hok.mono (by rw [hl]; omega))
  rw [hl] at h1
  rw [deinitializeSteps, Cmd.andThen_done h1, deinitializeEvents]
  have hok1 : ∀ ev g, okFor ((s.after ev (4*16)).withChannels g) 3 := fun ev g =>
    hok.after (j := 64) (m := 3) ev (by omega)
  have hb : ∀ ev g, byteAt ((s.after ev (4*16)).withChannels g) 0 = byteAt s 64 := fun ev g => byteAt_after s ev 64 0
  rw [← storeFold_active]
  generalize allChannels.flatMap (stopEvents s) = ev at *
  generalize storeFold (activeSet false) allChannels = g at *
  specialize hok1 ev g; specialize hb ev g
  have g2 := upcoming_eq_ok (hok1 2 (by omega))
  rw [Cmd.andThen_done (sleepSeq_ok true (by exact ht) (hok1.mono (by omega)))]
  rw [Cmd.andThen_done (busDeinit_ok (b := byteAt _ 2) (by simpa using ht) (by simpa using g2)), hb]
  simp [State.after, State.withChannels, State.setDsm, State.setInitialized, List.append_assoc, Nat.add_assoc,
    Option.map_map, Function.comp_def]

/-- DEINITIALIZE's steps, stopped at the transaction of index `j`. -/
theorem deinitializeSteps_stop {s : State} {j : Nat} (hj : j < 67) (ht : s.cfg.transportPresent = true)
    (hok : stopsAfter x s j) :
    deinitializeSteps s = x.flow
      (((s.cut x (deinitializeEvents s) j j).withChannels fun _ =>
        withActive s (allChannels.filter fun n => n.val < j / 4) false).setDsm
          (if j = 66 then .asleep else s.dsmState)) := by
  have hl : allChannels.length = 16 := rfl
  have hel := stopElements s allChannels ht
  have hlen : (allChannels.flatMap (stopEvents s)).length = 64 := rfl
  have htake : ∀ k < 17, allChannels.take k = allChannels.filter fun n => n.val < k := by decide
  rw [deinitializeSteps]
  by_cases h64 : j < 64
  · rw [Cmd.andThen_stop (forEach_stop hel rfl (by rw [hl]; omega) hok), ← htake _ (by omega), ← storeFold_active,
      deinitializeEvents, List.append_assoc, State.cut_append_left _ _ _ (by rw [hlen]; exact h64), if_neg (by omega)]
    rfl
  · obtain ⟨i, rfl⟩ : ∃ i, j = 64 + i := ⟨j - 64, by omega⟩
    have hfl : (allChannels.filter fun n => n.val < (64 + i)/4) = allChannels := by
      rw [← htake _ (by omega)]; exact List.take_of_length_le (by rw [hl]; omega)
    have h1 := forEach_ok hel rfl (hok.1.mono (by rw [hl]; omega))
    rw [hl] at h1
    rw [Cmd.andThen_done h1, hfl, ← storeFold_active]
    have hcut : s.cut x (deinitializeEvents s) (64 + i) (64 + i) = (s.after (allChannels.flatMap (stopEvents s)) 64).cut x
      (sleepEvents s.cfg.i2cAddress s.params.sleepMask (byteAt s 64) ++ [⟨.TD, .done⟩]) i i := by
      rw [State.after_cut, hlen, deinitializeEvents, List.append_assoc]
    rw [hcut]
    clear hlen hcut hel h1 hfl
    generalize allChannels.flatMap (stopEvents s) = ev
    generalize storeFold (activeSet false) allChannels = g
    have hf1 : stopsAfter x ((s.after ev (4*16)).withChannels g) i := hok.after (j := 64) ev rfl
    have hb : byteAt s 64 = byteAt ((s.after ev (4*16)).withChannels g) 0 := (byteAt_after s ev 64 0).symm
    rw [hb]
    by_cases h2 : i < 2
    · rw [Cmd.andThen_stop (sleepSeq_stop true h2 (by exact ht) hf1),
        State.cut_append_left _ _ _ (by simpa [sleepEvents] using h2), if_neg (by omega)]
      rfl
    · obtain rfl : i = 2 := by omega
      rw [Cmd.andThen_done (sleepSeq_ok true (by exact ht) (hf1.1.mono (by omega)))]
      rw [Cmd.andThen_stop (busDeinit_stop (by simpa using ht) (by simpa using hf1.2))]
      rw [State.noted_cut, State.after_cut ((s.after ev (4*16)).withChannels g)]
      rfl

end Sys2Proof.Machine
end

