-- ==== Sys2Proof/Laws/Decode.lean ====
section
/-! SUPPORT. The small lemmas of the decoder and the encoder: the fields of a header word, the rows of the table, the
elements of a batch, and what one row does with the words after the header. -/

namespace Sys2Proof

/-! ## Header words (30_encoding.md R91) -/

@[simp] theorem opcField_headerWord (c ch n : Byte) : opcField (headerWord c ch n) = c := by
  apply BitVec.eq_of_getElem_eq
  intro i hi
  simp only [opcField, headerWord, BitVec.getElem_extractLsb', BitVec.getLsbD_or, BitVec.getLsbD_shiftLeft,
    BitVec.getLsbD_setWidth]
  have h1 : ¬ 24 + i - 16 < 8 := by omega
  have h2 : ¬ 24 + i - 8 < 8 := by omega
  rw [BitVec.getLsbD_of_ge ch _ (by omega), BitVec.getLsbD_of_ge n _ (by omega)]
  simp [hi, show 24 + i < 32 by omega, show i < 32 by omega]

@[simp] theorem chField_headerWord (c ch n : Byte) : chField (headerWord c ch n) = ch := by
  apply BitVec.eq_of_getElem_eq
  intro i hi
  simp only [chField, headerWord, BitVec.getElem_extractLsb', BitVec.getLsbD_or, BitVec.getLsbD_shiftLeft,
    BitVec.getLsbD_setWidth]
  rw [BitVec.getLsbD_of_ge n _ (by omega)]
  simp [hi, show 16 + i < 32 by omega, show 16 + i < 24 by omega, show i < 32 by omega]

@[simp] theorem nField_headerWord (c ch n : Byte) : nField (headerWord c ch n) = n := by
  apply BitVec.eq_of_getElem_eq
  intro i hi
  simp only [nField, headerWord, BitVec.getElem_extractLsb', BitVec.getLsbD_or, BitVec.getLsbD_shiftLeft,
    BitVec.getLsbD_setWidth]
  simp [hi, show 8 + i < 32 by omega, show 8 + i < 24 by omega, show 8 + i < 16 by omega, show i < 32 by omega]

/-- A word with RSV 0 is the header word of its fields. -/
theorem headerWord_of_fields {w : Word} (h : w.extractLsb' 0 8 = 0#8) :
    headerWord (opcField w) (chField w) (nField w) = w := by
  apply BitVec.eq_of_getElem_eq
  intro i hi
  have hb : ∀ k, k < 8 → w.getLsbD k = false := fun k hk => by
    have := congrArg (·.getLsbD k) h
    simpa [hk] using this
  simp only [opcField, chField, nField, headerWord, BitVec.getElem_or, BitVec.getElem_shiftLeft,
    BitVec.getElem_setWidth, BitVec.getLsbD_extractLsb']
  rw [← BitVec.getLsbD_eq_getElem]
  by_cases h8 : i < 8
  · simp [h8, hb i h8, show i < 24 by omega, show i < 16 by omega]
  · by_cases h16 : i < 16
    · simp [h8, h16, show i < 24 by omega, show i - 8 < 8 by omega, show 8 + (i - 8) = i by omega]
    · by_cases h24 : i < 24
      · simp [h8, h16, h24, show ¬ i - 8 < 8 by omega, show i - 16 < 8 by omega, show 16 + (i - 16) = i by omega]
      · simp [h8, h16, h24, show ¬ i - 8 < 8 by omega, show ¬ i - 16 < 8 by omega, show i - 24 < 8 by omega,
          show 24 + (i - 24) = i by omega]

/-! ## Channel element words (R92) -/

@[simp] theorem chwIndex_chwWord (c : Byte) : chwIndex (chwWord c) = c := by
  apply BitVec.eq_of_toNat_eq
  simp [chwIndex, chwWord]
  omega

@[simp] theorem chwReservedClear_chwWord (c : Byte) : chwReservedClear (chwWord c) = true := by
  have h : (chwWord c).extractLsb' 8 24 = 0#24 := by
    apply BitVec.eq_of_toNat_eq
    have := c.isLt
    simp [chwWord, Nat.shiftRight_eq_div_pow]
    omega
  simpa [chwReservedClear] using h

theorem chwReservedClear_iff (w : Word) : chwReservedClear w = true ↔ w.toNat < 256 := by
  have hw := w.isLt
  have h0 : (0#24 : BitVec 24).toNat = 0 := rfl
  rw [chwReservedClear, beq_iff_eq, ← BitVec.toNat_inj]
  simp only [BitVec.extractLsb'_toNat, Nat.shiftRight_eq_div_pow, BitVec.ofNat_eq_ofNat, h0]
  omega

theorem chwWord_chwIndex {w : Word} (h : chwReservedClear w = true) : chwWord (chwIndex w) = w := by
  have := (chwReservedClear_iff w).1 h
  apply BitVec.eq_of_toNat_eq
  simp [chwIndex, chwWord]
  omega

@[simp] theorem batchChannels_map (chs : List Byte) : batchChannels (chs.map chwWord) = some chs := by
  induction chs with
  | nil => rfl
  | cons c cs ih => simp [batchChannels, ih]

@[simp] theorem batchPairs_pairWords (es : List (Byte × Word)) : batchPairs (pairWords es) = some es := by
  induction es with
  | nil => rfl
  | cons e es ih => simp [pairWords, batchPairs, ih]

@[simp] theorem pairWords_length (es : List (Byte × Word)) : (pairWords es).length = 2 * es.length := by
  induction es with
  | nil => rfl
  | cons e es ih => simp [pairWords, ih]; omega

/-- The channels read from words are those whose words they are. -/
theorem batchChannels_some {ws : List Word} {chs : List Byte} (h : batchChannels ws = some chs) :
    ws = chs.map chwWord := by
  induction ws generalizing chs with
  | nil => simp only [batchChannels, Option.some.injEq] at h; subst h; rfl
  | cons w ws ih =>
    unfold batchChannels at h
    split at h
    · rename_i hc
      obtain ⟨cs, hcs, rfl⟩ := Option.map_eq_some_iff.1 h
      rw [List.map_cons, chwWord_chwIndex hc, ← ih hcs]
    · cases h

theorem batchPairs_some : ∀ {ws : List Word} {es : List (Byte × Word)}, batchPairs ws = some es → ws = pairWords es
  | [], es, h => by simp only [batchPairs, Option.some.injEq] at h; subst h; rfl
  | [_], es, h => by cases h
  | w :: d :: ws, es, h => by
    unfold batchPairs at h
    split at h
    · rename_i hc
      obtain ⟨cs, hcs, rfl⟩ := Option.map_eq_some_iff.1 h
      rw [pairWords, chwWord_chwIndex hc, ← batchPairs_some hcs]
    · cases h

/-- A batch with an element word that has a reserved bit set has no channels. -/
theorem batchChannels_none {ws : List Word} (h : ∃ w ∈ ws, chwReservedClear w = false) : batchChannels ws = none := by
  cases hb : batchChannels ws with
  | none => rfl
  | some chs =>
    obtain ⟨w, hw, hr⟩ := h
    rw [batchChannels_some hb] at hw
    obtain ⟨c, _, rfl⟩ := List.mem_map.1 hw
    simp at hr

theorem batchPairs_none {es : List (Word × Word)} (h : ∃ e ∈ es, chwReservedClear e.1 = false) :
    batchPairs (es.flatMap fun e => [e.1, e.2]) = none := by
  induction es with
  | nil => simp at h
  | cons e es ih =>
    simp only [List.flatMap_cons, List.cons_append, List.nil_append, batchPairs]
    split
    · rename_i hc
      obtain ⟨x, hx, hr⟩ := h
      rcases List.mem_cons.1 hx with rfl | hx
      · rw [hc] at hr; cases hr
      · rw [ih ⟨x, hx, hr⟩]; rfl
    · rfl

/-! ## Rows of the table (R94, R95) -/

/-- A header has one row: the OPCs of the table are distinct. -/
theorem lookupRow_of_mem {r : OpRow} (hr : r ∈ opcodeTable) {w0 : Word} (h : opcField w0 = r.code) :
    lookupRow w0 = some r := by
  have hall : ∀ r ∈ opcodeTable, (opcodeTable.find? fun x => x.code == r.code) = some r := by decide
  rw [lookupRow, h]
  exact hall r hr

theorem lookupRow_some {w0 : Word} {r : OpRow} (h : lookupRow w0 = some r) :
    r ∈ opcodeTable ∧ opcField w0 = r.code := by
  unfold lookupRow at h
  have hc := List.find?_some h
  exact ⟨List.mem_of_find?_eq_some h, (beq_iff_eq.1 hc).symm⟩

/-- What `decode` makes of a header that has a row. -/
theorem decode_row {w0 : Word} {ws : List Word} {r : OpRow} (h : lookupRow w0 = some r) :
    decode (w0 :: ws) =
      if ws.length < argWordsOf r w0 then .incomplete
      else if r.selects w0 then
        match buildInstr r.op w0 (ws.take (argWordsOf r w0)) with
        | some i => .command i (ws.drop (argWordsOf r w0))
        | none => .reject .reservedElementBits (ws.drop (argWordsOf r w0))
      else .reject .reservedHeaderBits (ws.drop (argWordsOf r w0)) := by
  rw [decode, h] <;> rfl

/-- A header whose row selects it, with as many words after it as the row asks for. -/
theorem decode_selected {w0 : Word} {args rest : List Word} {r : OpRow} {i : Instr} (h : lookupRow w0 = some r)
    (hlen : args.length = argWordsOf r w0) (hs : r.selects w0 = true) (hb : buildInstr r.op w0 args = some i) :
    decode (w0 :: (args ++ rest)) = .command i rest := by
  rw [decode_row h, ← hlen, if_neg (by simp), if_pos hs]
  simp [hb]

/-! ### The masks of R95, field by field -/

theorem bitVec_eq_iff {n : Nat} (x y : BitVec n) : x = y ↔ ∀ i : Fin n, x.getLsbD i = y.getLsbD i :=
  ⟨fun h _ => h ▸ rfl, fun h => BitVec.eq_of_getLsbD_eq fun i hi => h ⟨i, hi⟩⟩

theorem mask_full (w : Word) (c : Byte) :
    w &&& 0xFFFFFFFF = c.setWidth 32 <<< 24 ↔
      opcField w = c ∧ chField w = 0 ∧ nField w = 0 ∧ w.extractLsb' 0 8 = 0#8 := by
  simp only [bitVec_eq_iff, opcField, chField, nField, Fin.forall_fin_succ, BitVec.getLsbD_and,
    BitVec.getLsbD_shiftLeft, BitVec.getLsbD_setWidth, BitVec.getLsbD_extractLsb', BitVec.ofNat_eq_ofNat,
    BitVec.getLsbD_zero]
  simp
  tauto

theorem mask_channel (w : Word) (c : Byte) :
    w &&& 0xFF00FFFF = c.setWidth 32 <<< 24 ↔ opcField w = c ∧ nField w = 0 ∧ w.extractLsb' 0 8 = 0#8 := by
  simp only [bitVec_eq_iff, opcField, nField, Fin.forall_fin_succ, BitVec.getLsbD_and,
    BitVec.getLsbD_shiftLeft, BitVec.getLsbD_setWidth, BitVec.getLsbD_extractLsb', BitVec.ofNat_eq_ofNat,
    BitVec.getLsbD_zero]
  simp
  tauto

theorem mask_batch (w : Word) (c : Byte) :
    w &&& 0xFFFF00FF = c.setWidth 32 <<< 24 ↔ opcField w = c ∧ chField w = 0 ∧ w.extractLsb' 0 8 = 0#8 := by
  simp only [bitVec_eq_iff, opcField, chField, Fin.forall_fin_succ, BitVec.getLsbD_and,
    BitVec.getLsbD_shiftLeft, BitVec.getLsbD_setWidth, BitVec.getLsbD_extractLsb', BitVec.ofNat_eq_ofNat,
    BitVec.getLsbD_zero]
  simp
  tauto

/-- The fields a format does not use. -/
def Format.unusedClear (fmt : Format) (w : Word) : Prop :=
  match fmt with
  | .z | .f | .d => chField w = 0 ∧ nField w = 0
  | .c | .cd | .cfd => nField w = 0
  | .b | .bd => chField w = 0

/-- A header selects a row exactly when it has the row's OPC and 0 in RSV and in the fields its format does not use. -/
theorem selects_iff (r : OpRow) (w : Word) :
    r.selects w = true ↔ opcField w = r.code ∧ r.format.unusedClear w ∧ w.extractLsb' 0 8 = 0#8 := by
  rw [OpRow.selects, OpRow.pattern, beq_iff_eq]
  cases r.format <;> simp only [Format.unusedClear, and_assoc]
  · exact mask_full w r.code
  · exact mask_full w r.code
  · exact mask_full w r.code
  · exact mask_channel w r.code
  · exact mask_channel w r.code
  · exact mask_channel w r.code
  · exact mask_batch w r.code
  · exact mask_batch w r.code

@[simp] theorem rsv_headerWord (c ch n : Byte) : (headerWord c ch n).extractLsb' 0 8 = 0#8 := by
  simp only [bitVec_eq_iff, headerWord, BitVec.getLsbD_or, BitVec.getLsbD_shiftLeft, BitVec.getLsbD_extractLsb',
    BitVec.getLsbD_zero]
  intro i
  have h1 : (i : Nat) < 16 := by omega
  have h2 : (i : Nat) < 24 := by omega
  simp [h1, h2]

/-- A header word selects its row when the fields its format does not use are 0. -/
theorem selects_headerWord {r : OpRow} {ch n : Byte} (h : r.format.unusedClear (headerWord r.code ch n)) :
    r.selects (headerWord r.code ch n) = true :=
  (selects_iff _ _).2 ⟨by simp, h, by simp⟩

/-! ## Operands of each opcode -/

@[simp] theorem buildInstr_computePrescale (w0 : Word) (f : Word) : buildInstr .computePrescale w0 [f] =
    some (.computePrescale f) := rfl
@[simp] theorem buildInstr_computeTiming (w0 : Word) (d : Word) : buildInstr .computeTiming w0 [d] =
    some (.computeTiming d) := rfl
@[simp] theorem buildInstr_initializeDevice (w0 : Word) : buildInstr .initializeDevice w0 [] =
    some .initializeDevice := rfl
@[simp] theorem buildInstr_setFrequency (w0 : Word) (f : Word) : buildInstr .setFrequency w0 [f] =
    some (.setFrequency f) := rfl
@[simp] theorem buildInstr_sleep (w0 : Word) : buildInstr .sleep w0 [] =
    some .sleep := rfl
@[simp] theorem buildInstr_wakeup (w0 : Word) : buildInstr .wakeup w0 [] =
    some .wakeup := rfl
@[simp] theorem buildInstr_deinitialize (w0 : Word) : buildInstr .deinitialize w0 [] =
    some .deinitialize := rfl
@[simp] theorem buildInstr_destroy (w0 : Word) : buildInstr .destroy w0 [] =
    some .destroy := rfl
@[simp] theorem buildInstr_setDutyCycle (w0 : Word) (d : Word) : buildInstr .setDutyCycle w0 [d] =
    some (.setDutyCycle (chField w0) d) := rfl
@[simp] theorem buildInstr_start (w0 : Word) : buildInstr .start w0 [] =
    some (.start (chField w0)) := rfl
@[simp] theorem buildInstr_stop (w0 : Word) : buildInstr .stop w0 [] =
    some (.stop (chField w0)) := rfl
@[simp] theorem buildInstr_configureChannel (w0 : Word) (f d : Word) : buildInstr .configureChannel w0 [f, d] =
    some (.configureChannel (chField w0) f d) := rfl
@[simp] theorem buildInstr_startMultiple (w0 : Word) (ws : List Word) : buildInstr .startMultiple w0 ws =
    (batchChannels ws).map .startMultiple := rfl
@[simp] theorem buildInstr_stopMultiple (w0 : Word) (ws : List Word) : buildInstr .stopMultiple w0 ws =
    (batchChannels ws).map .stopMultiple := rfl
@[simp] theorem buildInstr_setDutyCycleMultiple (w0 : Word) (ws : List Word) : buildInstr .setDutyCycleMultiple w0 ws =
    (batchPairs ws).map .setDutyCycleMultiple := rfl
@[simp] theorem buildInstr_setPhase (w0 : Word) : buildInstr .setPhase w0 [] =
    some (.setPhase (chField w0)) := rfl
@[simp] theorem buildInstr_configureFade (w0 : Word) : buildInstr .configureFade w0 [] =
    some (.configureFade (chField w0)) := rfl
@[simp] theorem buildInstr_startFade (w0 : Word) : buildInstr .startFade w0 [] =
    some (.startFade (chField w0)) := rfl
@[simp] theorem buildInstr_configureComplementary (w0 : Word) : buildInstr .configureComplementary w0 [] =
    some (.configureComplementary (chField w0)) := rfl
@[simp] theorem buildInstr_setDeadTime (w0 : Word) : buildInstr .setDeadTime w0 [] =
    some (.setDeadTime (chField w0)) := rfl
@[simp] theorem buildInstr_registerCallback (w0 : Word) : buildInstr .registerCallback w0 [] =
    some (.registerCallback (chField w0)) := rfl

/-- A batch length that fits N is what the header's N says (R91, R93). -/
theorem countByte_toNat {n : Nat} (h : n ≤ maxBatch) : (countByte n).toNat = n := by
  simp only [maxBatch] at h
  simp [countByte]
  omega

/-- The number of argument words a header word asks for: N of them, or pairs, in a batch, else its format's (R93). -/
theorem argWordsOf_headerWord (r : OpRow) (c ch n : Byte) :
    argWordsOf r (headerWord c ch n) = r.format.argWords (if r.format.isBatch then n.toNat else 0) := by
  simp [argWordsOf, elementCount]

/-- A right header with as many words as it asks for, from which no command can be built. -/
theorem decode_badElement {w0 : Word} {args rest : List Word} {r : OpRow} (h : lookupRow w0 = some r)
    (hlen : args.length = argWordsOf r w0) (hs : r.selects w0 = true) (hb : buildInstr r.op w0 args = none) :
    decode (w0 :: (args ++ rest)) = .reject .reservedElementBits rest := by
  rw [decode_row h, ← hlen, if_neg (by simp), if_pos hs]
  simp [hb]

/-- Whatever the decoder answers but `incomplete`, it has read at least the header word and gives the rest back. -/
theorem decode_consumes {ws rest : List Word}
    (h : (∃ why, decode ws = .reject why rest) ∨ ∃ i, decode ws = .command i rest) : ∃ x, x ≠ [] ∧ ws = x ++ rest := by
  cases ws with
  | nil => rcases h with ⟨_, h⟩ | ⟨_, h⟩ <;> cases h
  | cons w ws =>
    have hd (k : Nat) : ∃ x, x ≠ [] ∧ w :: ws = x ++ ws.drop k := ⟨w :: ws.take k, by simp, by simp⟩
    cases hl : lookupRow w with
    | none =>
      rw [decode, hl] at h
      rcases h with ⟨_, h⟩ | ⟨_, h⟩ <;> cases h
      exact ⟨[w], by simp, rfl⟩
    | some r =>
      rw [decode_row hl] at h
      split at h
      · rcases h with ⟨_, h⟩ | ⟨_, h⟩ <;> cases h
      · split at h
        · split at h <;> rcases h with ⟨_, h⟩ | ⟨_, h⟩ <;> cases h <;> exact hd _
        · rcases h with ⟨_, h⟩ | ⟨_, h⟩ <;> cases h; exact hd _

end Sys2Proof
end

