-- ==== Sys2Proof/Laws/PerInstr.lean ====
section
/-! SUPPORT. Facts proved of every constructor of `Instr`, one lemma for each. -/

namespace Sys2Proof.Laws

/-- The family `HeaderRow`: a command that can be written as words has a header word that its row of the opcode map
selects, followed by as many argument words as the row's format and N ask for (30_encoding.md R91 to R95). -/
def HeaderRow.Statement (i : Instr) : Prop :=
  i.wellFormed = true → ∃ (r : OpRow) (w0 : Word) (args : List Word), r ∈ opcodeTable ∧ encode i = w0 :: args ∧
    opcField w0 = r.code ∧ r.selects w0 = true ∧ args.length = argWordsOf r w0

/-- The family's statement from a row, the two header fields and the argument words. -/
theorem headerRow_intro {i : Instr} (r : OpRow) (ch n : Byte) (args : List Word) (hr : r ∈ opcodeTable)
    (he : encode i = headerWord r.code ch n :: args) (hu : r.format.unusedClear (headerWord r.code ch n))
    (hl : args.length = r.format.argWords (if r.format.isBatch then n.toNat else 0)) : HeaderRow.Statement i :=
  fun _ => ⟨r, _, args, hr, he, opcField_headerWord _ _ _, selects_headerWord hu, by rw [argWordsOf_headerWord, hl]⟩

namespace HeaderRow

theorem computePrescale (f : Word) : Statement (.computePrescale f) :=
  headerRow_intro ⟨.computePrescale, 0x01, .f⟩ 0 0 [f] (by decide) rfl (by simp [Format.unusedClear]) rfl

theorem computeTiming (d : Word) : Statement (.computeTiming d) :=
  headerRow_intro ⟨.computeTiming, 0x02, .d⟩ 0 0 [d] (by decide) rfl (by simp [Format.unusedClear]) rfl

theorem initializeDevice : Statement .initializeDevice :=
  headerRow_intro ⟨.initializeDevice, 0x10, .z⟩ 0 0 [] (by decide) rfl (by simp [Format.unusedClear]) rfl

theorem setFrequency (f : Word) : Statement (.setFrequency f) :=
  headerRow_intro ⟨.setFrequency, 0x11, .f⟩ 0 0 [f] (by decide) rfl (by simp [Format.unusedClear]) rfl

theorem sleep : Statement .sleep :=
  headerRow_intro ⟨.sleep, 0x12, .z⟩ 0 0 [] (by decide) rfl (by simp [Format.unusedClear]) rfl

theorem wakeup : Statement .wakeup :=
  headerRow_intro ⟨.wakeup, 0x13, .z⟩ 0 0 [] (by decide) rfl (by simp [Format.unusedClear]) rfl

theorem deinitialize : Statement .deinitialize :=
  headerRow_intro ⟨.deinitialize, 0x14, .z⟩ 0 0 [] (by decide) rfl (by simp [Format.unusedClear]) rfl

theorem destroy : Statement .destroy :=
  headerRow_intro ⟨.destroy, 0x1F, .z⟩ 0 0 [] (by decide) rfl (by simp [Format.unusedClear]) rfl

theorem setDutyCycle (c : Byte) (d : Word) : Statement (.setDutyCycle c d) :=
  headerRow_intro ⟨.setDutyCycle, 0x20, .cd⟩ c 0 [d] (by decide) rfl (by simp [Format.unusedClear]) rfl

theorem start (c : Byte) : Statement (.start c) :=
  headerRow_intro ⟨.start, 0x21, .c⟩ c 0 [] (by decide) rfl (by simp [Format.unusedClear]) rfl

theorem stop (c : Byte) : Statement (.stop c) :=
  headerRow_intro ⟨.stop, 0x22, .c⟩ c 0 [] (by decide) rfl (by simp [Format.unusedClear]) rfl

theorem configureChannel (c : Byte) (f : Word) (d : Word) : Statement (.configureChannel c f d) :=
  headerRow_intro ⟨.configureChannel, 0x23, .cfd⟩ c 0 [f, d] (by decide) rfl (by simp [Format.unusedClear]) rfl

theorem startMultiple (chs : List Byte) : Statement (.startMultiple chs) := by
  intro h
  have hn : chs.length ≤ maxBatch := by simpa [Instr.wellFormed] using h
  exact headerRow_intro ⟨.startMultiple, 0x30, .b⟩ 0 (countByte chs.length) (chs.map chwWord) (by decide) rfl
    (by simp [Format.unusedClear]) (by simp [Format.isBatch, Format.argWords, countByte_toNat hn]) h

theorem stopMultiple (chs : List Byte) : Statement (.stopMultiple chs) := by
  intro h
  have hn : chs.length ≤ maxBatch := by simpa [Instr.wellFormed] using h
  exact headerRow_intro ⟨.stopMultiple, 0x31, .b⟩ 0 (countByte chs.length) (chs.map chwWord) (by decide) rfl
    (by simp [Format.unusedClear]) (by simp [Format.isBatch, Format.argWords, countByte_toNat hn]) h

theorem setDutyCycleMultiple (es : List (Byte × Word)) : Statement (.setDutyCycleMultiple es) := by
  intro h
  have hn : es.length ≤ maxBatch := by simpa [Instr.wellFormed] using h
  exact headerRow_intro ⟨.setDutyCycleMultiple, 0x32, .bd⟩ 0 (countByte es.length) (pairWords es) (by decide) rfl
    (by simp [Format.unusedClear]) (by simp [Format.isBatch, Format.argWords, countByte_toNat hn]) h

theorem setPhase (c : Byte) : Statement (.setPhase c) :=
  headerRow_intro ⟨.setPhase, 0x40, .c⟩ c 0 [] (by decide) rfl (by simp [Format.unusedClear]) rfl

theorem configureFade (c : Byte) : Statement (.configureFade c) :=
  headerRow_intro ⟨.configureFade, 0x41, .c⟩ c 0 [] (by decide) rfl (by simp [Format.unusedClear]) rfl

theorem startFade (c : Byte) : Statement (.startFade c) :=
  headerRow_intro ⟨.startFade, 0x42, .c⟩ c 0 [] (by decide) rfl (by simp [Format.unusedClear]) rfl

theorem configureComplementary (c : Byte) : Statement (.configureComplementary c) :=
  headerRow_intro ⟨.configureComplementary, 0x43, .c⟩ c 0 [] (by decide) rfl (by simp [Format.unusedClear]) rfl

theorem setDeadTime (c : Byte) : Statement (.setDeadTime c) :=
  headerRow_intro ⟨.setDeadTime, 0x44, .c⟩ c 0 [] (by decide) rfl (by simp [Format.unusedClear]) rfl

theorem registerCallback (c : Byte) : Statement (.registerCallback c) :=
  headerRow_intro ⟨.registerCallback, 0x45, .c⟩ c 0 [] (by decide) rfl (by simp [Format.unusedClear]) rfl

end HeaderRow

end Sys2Proof.Laws
end

