-- ==== Sys2Proof/Tests/Slice0.lean ====
section
/-! SUPPORT. The model's own tests: WellFormed's smoke test, the decoding of words written out from the spec, one step
per vector of 95_test_vectors.md, and for every statement with hypotheses a concrete state that meets them. The
expected values are the spec's; the read answers are those of its simulator S. -/

namespace Sys2Proof.Machine.Tests

/-! ## Helpers -/

/-- The parameters the spec's vectors use. -/
def testParams : Params where
  defaultFrequencyHz := ⟨50, by decide⟩
  outputDriverMode := .totemPole
  dutyProductArith := .exact
  mode1SleepBit := 4
  mode2OutdrvBit := 2

/-- The reset state of the vectors, with the host's words and the environment's answers. -/
def fresh (ws : List Word) (as : List Answer) : State :=
  { State.construct testParams 0x40 none true with status := 0, result := 0, stream := ws, answers := as }

/-- The vectors' state A, with the host's words and the environment's answers. -/
def awakeAt50 (ws : List Word) (as : List Answer) : State :=
  { fresh ws as with
    cfg := { (fresh ws as).cfg with initialized := true, currentFrequencyHz := 50, prescale := 121 }
    dsmState := .awake }

/-- The same, asleep. -/
def asleepAt50 (ws : List Word) (as : List Answer) : State := { awakeAt50 ws as with dsmState := .asleep }

/-- An instance that is gone. -/
def gone (ws : List Word) : State := { fresh ws [] with dsmState := .destroyed }

/-- `n` transactions answered OK; a read among them is answered 0x01. -/
def oks (n : Nat) : List Answer := List.replicate n (.ok 0x01)

/-- `n` transactions answered OK and then one that FAILs. -/
def oksThenFail (n : Nat) : List Answer := oks n ++ [.fail]

/-- `n` transactions answered OK and then one that is never answered. -/
def oksThenHang (n : Nat) : List Answer := oks n ++ [.hang]

/-- The step completes in a state with the property. -/
def ends (o : Host.Outcome State Fault Refusal) (P : State → Bool) : Bool :=
  match o with
  | .next t => P t
  | .fault _ | .refused _ => false

theorem next_of_ends {o : Host.Outcome State Fault Refusal} {P : State → Bool} (h : ends o P = true) :
    ∃ t, o = .next t ∧ P t = true := by
  cases o with
  | next t => exact ⟨t, rfl, h⟩
  | fault r => cases h
  | refused r => cases h

/-- The command's status code, the events it emitted and whether its whole stream was read. -/
def saw (code : Byte) (es : List Entry) (t : State) : Bool :=
  t.status == code && t.trace == es && t.stream == [] && t.pc == none

/-- The four writes of a channel at the default address: its first register and the four bytes. -/
def four (reg a b c d : Byte) : List Entry :=
  [wr 0x40 reg a, wr 0x40 (reg + 1) b, wr 0x40 (reg + 2) c, wr 0x40 (reg + 3) d]

/-! ## WellFormed: the three ways a command cannot be written as words -/

theorem test_batch_of_256_starts_is_ill_formed : (Instr.startMultiple (List.replicate 256 0)).wellFormed = false := by
  decide +kernel

theorem test_batch_of_256_stops_is_ill_formed : (Instr.stopMultiple (List.replicate 256 0)).wellFormed = false := by
  decide +kernel

theorem test_batch_of_256_duties_is_ill_formed :
    (Instr.setDutyCycleMultiple (List.replicate 256 (0, 0))).wellFormed = false := by decide +kernel

/-! ## Decoding: words written out from R91 to R94 and R99 -/

theorem test_decode_compute_prescale :
    decode [0x01000000, 0x00000032] =
      .command (.computePrescale 50) [] := by
  decide

theorem test_decode_compute_timing :
    decode [0x02000000, 0x3F000000] =
      .command (.computeTiming 0x3F000000) [] := by
  decide

theorem test_decode_initialize : decode [0x10000000] = .command .initializeDevice [] := by decide

theorem test_decode_set_frequency : decode [0x11000000, 0x000003E8] = .command (.setFrequency 1000) [] := by decide

theorem test_decode_sleep : decode [0x12000000] = .command .sleep [] := by decide

theorem test_decode_wakeup : decode [0x13000000] = .command .wakeup [] := by decide

theorem test_decode_deinitialize : decode [0x14000000] = .command .deinitialize [] := by decide

theorem test_decode_destroy : decode [0x1F000000] = .command .destroy [] := by decide

theorem test_decode_set_duty_cycle :
    decode [0x200F0000, 0x3F800000] =
      .command (.setDutyCycle 15 0x3F800000) [] := by
  decide

theorem test_decode_start : decode [0x21630000] = .command (.start 99) [] := by decide

theorem test_decode_stop : decode [0x22FF0000] = .command (.stop 255) [] := by decide

theorem test_decode_configure_channel :
    decode [0x23010000, 0x000003E8, 0x3F400000] =
      .command (.configureChannel 1 1000 0x3F400000) [] := by
  decide

theorem test_decode_start_multiple :
    decode [0x30000300, 0x00000000, 0x00000001, 0x00000063] =
      .command (.startMultiple [0, 1, 99]) [] := by
  decide

theorem test_decode_stop_multiple :
    decode [0x31000300, 0x0000000F, 0x00000010, 0x00000000] =
      .command (.stopMultiple [15, 16, 0]) [] := by
  decide

theorem test_decode_set_duty_cycle_multiple :
    decode [0x32000200, 0x00000000, 0x3F000000, 0x00000001, 0x3FC00000] =
      .command (.setDutyCycleMultiple [(0, 0x3F000000), (1, 0x3FC00000)]) [] := by
  decide

theorem test_decode_set_phase : decode [0x40FF0000] = .command (.setPhase 255) [] := by decide

theorem test_decode_configure_fade : decode [0x41FF0000] = .command (.configureFade 255) [] := by decide

theorem test_decode_start_fade : decode [0x42FF0000] = .command (.startFade 255) [] := by decide

theorem test_decode_configure_complementary :
    decode [0x43FF0000] =
      .command (.configureComplementary 255) [] := by
  decide

theorem test_decode_set_dead_time : decode [0x44FF0000] = .command (.setDeadTime 255) [] := by decide

theorem test_decode_register_callback : decode [0x45FF0000] = .command (.registerCallback 255) [] := by decide

/-! ### Encodings that select no command (95 section 2.5) -/

theorem test_decode_unassigned : decode [0x15000000, 0x12000000] = .reject .unassignedOpcode [0x12000000] := by decide

theorem test_decode_rsv : decode [0x10000001] = .reject .reservedHeaderBits [] := by decide

theorem test_decode_unused_n_keeps_the_length :
    decode [0x11000100, 0x00000032, 0x12000000] = .reject .reservedHeaderBits [0x12000000] := by decide

theorem test_decode_unused_ch_of_a_batch_keeps_the_length :
    decode [0x30010100, 0x00000000, 0x12000000] = .reject .reservedHeaderBits [0x12000000] := by decide

theorem test_decode_bad_channel_word :
    decode [0x32000100, 0x80000000, 0x3F000000, 0x12000000] = .reject .reservedElementBits [0x12000000] := by decide

theorem test_decode_waits_for_a_third_word : decode [0x23010000, 0x000003E8] = .incomplete := by decide

theorem test_table_word_of_a_batch_row : decodeTableWord 32 0x30000200 = some (.startMultiple [0, 0]) := by decide

/-! ## One step per vector (95 sections 1.6 to 2.4) -/

theorem test_compute_prescale_50 :
    ends (step (fresh [0x01000000, 0x00000032] []))
      (fun t => saw 0 ([]) t && t.response == [0, 0x00000079]) = true := by decide +kernel

theorem test_compute_prescale_zero :
    ends (step (fresh [0x01000000, 0x00000000] []))
      (fun t => saw 3 ([]) t && t.response == [3]) = true := by decide +kernel

theorem test_compute_timing_full :
    ends (step (fresh [0x02000000, 0x3F800000] []))
      (fun t => saw 0 ([]) t && t.response == [0, 0x00000FFF]) = true := by decide +kernel

theorem test_compute_timing_half :
    ends (step (fresh [0x02000000, 0x3F000000] []))
      (fun t => saw 0 ([]) t && t.response == [0, 0x08000000]) = true := by decide +kernel

theorem test_initialize :
    ends (step (fresh [0x10000000] ([.ok 0, .ok 0, .ok 0x11, .ok 0, .ok 0, .ok 0x11, .ok 0, .ok 0x04, .ok 0, .ok 0x01, .ok 0])))
      (fun t => saw 0 ([⟨.TI, .done⟩, ⟨.GC, .done⟩, rd 0x40 0x00 0x11, wr 0x40 0x00 0x11, wr 0x40 0xFE 0x79, rd 0x40 0x00 0x11,
         wr 0x40 0x00 0x01, settle, rd 0x40 0x01 0x04, wr 0x40 0x01 0x04, rd 0x40 0x00 0x01, wr 0x40 0x00 0x01, settle]) t && t.dsmState == .awake &&
        t.cfg == { (fresh [] []).cfg with initialized := true, currentFrequencyHz := 50, prescale := 121 }) = true := by decide +kernel

theorem test_initialize_without_transport :
    ends (step ({ fresh [0x10000000] [] with cfg := { (fresh [] []).cfg with transportPresent := false } }))
      (fun t => saw 5 ([]) t && t.dsmState == .uninit) = true := by decide +kernel

theorem test_set_frequency_1000 :
    ends (step (awakeAt50 [0x11000000, 0x000003E8] [.ok 0x01, .ok 0, .ok 0, .ok 0x11, .ok 0]))
      (fun t => saw 0 ([rd 0x40 0x00 0x01, wr 0x40 0x00 0x11, wr 0x40 0xFE 0x05, rd 0x40 0x00 0x11, wr 0x40 0x00 0x01, settle]) t && t.dsmState == .awake &&
        t.cfg.currentFrequencyHz == 1000 && t.cfg.prescale == 5) = true := by decide +kernel

theorem test_set_frequency_fails_at_step_4 :
    ends (step (awakeAt50 [0x11000000, 0x000003E8] [.ok 0x01, .ok 0, .ok 0, .fail]))
      (fun t => saw 6 ([rd 0x40 0x00 0x01, wr 0x40 0x00 0x11, wr 0x40 0xFE 0x05, ⟨.RD 0x40 0x00, .failed⟩]) t && t.dsmState == .asleep &&
        t.cfg.currentFrequencyHz == 50 && t.cfg.prescale == 121) = true := by decide +kernel

theorem test_sleep :
    ends (step (awakeAt50 [0x12000000] [.ok 0x01, .ok 0]))
      (fun t => saw 0 ([rd 0x40 0x00 0x01, wr 0x40 0x00 0x11]) t && t.dsmState == .asleep) = true := by decide +kernel

theorem test_sleep_fails_at_step_2 :
    ends (step (awakeAt50 [0x12000000] [.ok 0x01, .fail]))
      (fun t => saw 6 ([rd 0x40 0x00 0x01, ⟨.WR 0x40 0x00 0x11, .failed⟩]) t && t.dsmState == .awake) = true := by decide +kernel

theorem test_wakeup :
    ends (step (asleepAt50 [0x13000000] [.ok 0x11, .ok 0]))
      (fun t => saw 0 ([rd 0x40 0x00 0x11, wr 0x40 0x00 0x01, settle]) t && t.dsmState == .awake) = true := by decide +kernel

theorem test_wakeup_uninitialized :
    ends (step (fresh [0x13000000] []))
      (fun t => saw 1 ([]) t) = true := by decide +kernel

theorem test_deinitialize :
    ends (step (awakeAt50 [0x14000000] (oks 67))) (fun t =>
      t.status == 0 && t.trace.length == 67 && t.trace.take 4 == four 0x06 0x00 0x00 0xFF 0x0F &&
        t.trace.drop 64 == [rd 0x40 0x00 0x01, wr 0x40 0x00 0x11, ⟨.TD, .done⟩] &&
        t.dsmState == .deinit && t.cfg.initialized == false) = true := by
  decide +kernel

theorem test_deinitialize_fails_at_step_67 :
    ends (step (awakeAt50 [0x14000000] (oksThenFail 66))) (fun t =>
      t.status == 6 && t.trace.drop 66 == [⟨.TD, .failed⟩] && t.dsmState == .asleep && t.cfg.initialized) = true := by
  decide +kernel

theorem test_destroy_uninitialized :
    ends (step (fresh [0x1F000000] []))
      (fun t => saw 0 ([]) t && t.dsmState == .destroyed) = true := by decide +kernel

theorem test_destroy_with_failed_deinitialize :
    ends (step (awakeAt50 [0x1F000000] (oksThenFail 66))) (fun t =>
      t.status == 6 && t.dsmState == .destroyed && t.cfg.initialized) = true := by
  decide +kernel

theorem test_set_duty_cycle_half :
    ends (step (awakeAt50 [0x20000000, 0x3F000000] (oks 4)))
      (fun t => saw 0 (four 0x06 0x00 0x00 0x00 0x08) t && t.channel 0 ==
        { active := true, dutyCycle := 0x3F000000, onCount := 0, offCount := 2048 }) = true := by decide +kernel

theorem test_set_duty_cycle_infinity :
    ends (step (awakeAt50 [0x20000000, 0x7F800000] []))
      (fun t => saw 4 ([]) t) = true := by decide +kernel

theorem test_start :
    ends (step (awakeAt50 [0x21060000] (oks 4)))
      (fun t => saw 0 (four 0x1E 0x00 0x00 0xFF 0x0F) t && t.channel 6 ==
        { active := true, dutyCycle := 0, onCount := 0, offCount := 4095 }) = true := by decide +kernel

theorem test_start_fails_at_step_4 :
    ends (step (awakeAt50 [0x21060000] (oksThenFail 3)))
      (fun t => saw 6 ([wr 0x40 0x1E 0x00, wr 0x40 0x1F 0x00, wr 0x40 0x20 0xFF, ⟨.WR 0x40 0x21 0x0F, .failed⟩]) t && (t.channel 6).active == false) = true := by decide +kernel

/-- Channel 5 at duty 0.3, as 95 section 1.9 leaves it. -/
def channel5 (ws : List Word) : State :=
  (awakeAt50 ws (oks 4)).setChannel 5 { active := true, dutyCycle := 0x3E99999A, onCount := 0, offCount := 1229 }

theorem test_stop_keeps_the_duty :
    ends (step (channel5 [0x22050000]))
      (fun t => saw 0 (four 0x1A 0x00 0x00 0xFF 0x0F) t && t.channel 5 ==
        { active := false, dutyCycle := 0x3E99999A, onCount := 0, offCount := 1229 }) = true := by decide +kernel

theorem test_stop_of_channel_255 :
    ends (step (awakeAt50 [0x22FF0000] []))
      (fun t => saw 2 ([]) t) = true := by decide +kernel

theorem test_configure_channel :
    ends (step (awakeAt50 [0x23010000, 0x000003E8, 0x3F400000] ([.ok 0x01, .ok 0, .ok 0, .ok 0x11, .ok 0] ++ oks 4)))
      (fun t => saw 0 ([rd 0x40 0x00 0x01, wr 0x40 0x00 0x11, wr 0x40 0xFE 0x05, rd 0x40 0x00 0x11, wr 0x40 0x00 0x01, settle] ++
          four 0x0A 0x00 0x00 0xFF 0x0B) t && t.channel 1 ==
        { active := true, dutyCycle := 0x3F400000, onCount := 0, offCount := 3071 } &&
        t.cfg.prescale == 5) = true := by decide +kernel

theorem test_configure_channel_checks_frequency_first :
    ends (step (awakeAt50 [0x23010000, 0x00000000, 0x7FC00000] []))
      (fun t => saw 3 ([]) t) = true := by decide +kernel

theorem test_start_multiple_stops_at_channel_99 :
    ends (step (awakeAt50 [0x30000300, 0x00000000, 0x00000001, 0x00000063] (oks 8)))
      (fun t => saw 2 (four 0x06 0x00 0x00 0xFF 0x0F ++ four 0x0A 0x00 0x00 0xFF 0x0F) t && (t.channel 1).active && !(t.channel 2).active) = true := by decide +kernel

theorem test_start_multiple_empty :
    ends (step (awakeAt50 [0x30000000] []))
      (fun t => saw 5 ([]) t) = true := by decide +kernel

theorem test_stop_multiple_stops_at_channel_16 :
    ends (step (awakeAt50 [0x31000300, 0x0000000F, 0x00000010, 0x00000000] (oks 4)))
      (fun t => saw 2 (four 0x42 0x00 0x00 0xFF 0x0F) t && t.channels == (awakeAt50 [] []).channels) = true := by decide +kernel

theorem test_stop_multiple_uninitialized :
    ends (step (fresh [0x31000100, 0x00000000] []))
      (fun t => saw 1 ([]) t) = true := by decide +kernel

theorem test_set_duty_cycle_multiple_stops_at_a_duty :
    ends (step (awakeAt50 [0x32000200, 0x00000000, 0x3F000000, 0x00000001, 0x3FC00000] (oks 4)))
      (fun t => saw 4 (four 0x06 0x00 0x00 0x00 0x08) t && t.channel 0 ==
        { active := true, dutyCycle := 0x3F000000, onCount := 0, offCount := 2048 }) = true := by decide +kernel

theorem test_set_duty_cycle_multiple :
    ends (step (awakeAt50 [0x32000200, 0x00000001, 0x3DCCCCCD, 0x00000002, 0x3F800000] (oks 8)))
      (fun t => saw 0 (four 0x0A 0x00 0x00 0x9A 0x01 ++ four 0x0E 0xFF 0x0F 0x00 0x00) t) = true := by decide +kernel

theorem test_set_phase :
    ends (step (awakeAt50 [0x40FF0000] []))
      (fun t => saw 7 ([]) t) = true := by decide +kernel

theorem test_configure_fade :
    ends (step (awakeAt50 [0x41FF0000] []))
      (fun t => saw 7 ([]) t) = true := by decide +kernel

theorem test_start_fade :
    ends (step (awakeAt50 [0x42FF0000] []))
      (fun t => saw 7 ([]) t) = true := by decide +kernel

theorem test_configure_complementary :
    ends (step (awakeAt50 [0x43FF0000] []))
      (fun t => saw 7 ([]) t) = true := by decide +kernel

theorem test_set_dead_time :
    ends (step (awakeAt50 [0x44FF0000] []))
      (fun t => saw 7 ([]) t) = true := by decide +kernel

theorem test_register_callback :
    ends (step (awakeAt50 [0x45FF0000] []))
      (fun t => saw 7 ([]) t) = true := by decide +kernel

theorem test_fetch_word_runs_first_after_reset :
    ends (step (State.reset.withFetchWord 32 0x45FF0000))
      (fun t => saw 7 ([]) t) = true := by decide +kernel

theorem test_transport_calls :
    transportCall .GC = some (.write 0x00 [0x00, 0x06]) ∧ transportCall (.WR 0x40 0x1A 0xCD) = some (.write 0x40 [0x1A, 0xCD]) ∧
    transportCall (.RD 0x40 0x00) = some (.writeRead 0x40 [0x00] 1) := by decide

theorem test_hung_transaction : (match step (awakeAt50 [0x12000000] [.ok 0x01, .hang]) with
    | .fault (.transportHang u) => u.pc == some 2 && u.trace == [rd 0x40 0x00 0x01, ⟨.WR 0x40 0x00 0x11, .unanswered⟩]
    | .fault .awaitingWord | .next _ | .refused _ => false) = true := by decide

/-! ## Witnesses: for each statement with hypotheses, states and operands that meet all of them -/

theorem witness_DecodeOfEncodeIsTheCommand :
    (Instr.startMultiple (List.replicate 255 3)).wellFormed = true ∧
    (Instr.setDutyCycleMultiple (List.replicate 255 (3, 7))).wellFormed = true ∧
    (Instr.configureChannel 255 0xFFFFFFFF 0).wellFormed = true := by decide +kernel

theorem witness_DecodedWordsAreTheEncoding :
    decode [0x30000200, 0x00000000, 0x000000FF, 0x12000000] = .command (.startMultiple [0, 255]) [0x12000000] := by decide

theorem witness_NoHeaderSelectsTwoRows :
    (⟨.startMultiple, 0x30, .b⟩ : OpRow) ∈ opcodeTable ∧
    (⟨.startMultiple, 0x30, .b⟩ : OpRow).selects 0x3000FF00 = true := by decide +kernel

theorem witness_TruncatedCommandWaits :
    let s := fresh [0x23010000, 0x000003E8] []
    (Instr.configureChannel 1 1000 0x3F400000).wellFormed = true ∧
    encode (.configureChannel 1 1000 0x3F400000) = s.stream ++ [0x3F400000] ∧ s.hostOverlap = false := by decide

theorem witness_StepExecutesTheDecodedCommand :
    let s := awakeAt50 [0x12000000, 0x13000000] []
    s.hostOverlap = false ∧ decode s.stream = .command .sleep [0x13000000] := by decide

theorem witness_UnassignedOpcodeIsNotSupported :
    (fresh [0x46000000] []).hostOverlap = false ∧ alive (fresh [0x46000000] []) ∧
    (([0x00FFFFFF, 0x03000000, 0x1E000000, 0x46000000, 0xFFFFFFFF] : List Word).all fun w0 =>
      !([0x01, 0x02, 0x10, 0x11, 0x12, 0x13, 0x14, 0x1F, 0x20, 0x21, 0x22, 0x23, 0x30, 0x31, 0x32, 0x40, 0x41, 0x42,
        0x43, 0x44, 0x45].contains (w0.toNat / 2 ^ 24))) = true := by decide +kernel

theorem witness_ReservedHeaderBitsAreNotSupported :
    let r : OpRow := ⟨.startMultiple, 0x30, .b⟩
    let s := awakeAt50 [0x30010100, 0x00000000] []
    s.hostOverlap = false ∧ alive s ∧ r ∈ opcodeTable ∧ (0x30010100 : Word).toNat / 2 ^ 24 = r.code.toNat ∧
    r.selects 0x30010100 = false ∧
    [(0 : Word)].length = r.format.argWords (if r.format.isBatch then (0x30010100 : Word).toNat / 2 ^ 8 % 2 ^ 8 else 0) := by decide

theorem witness_ReservedHeaderBitsAreNotSupported_plain :
    let r : OpRow := ⟨.setFrequency, 0x11, .f⟩
    let s := awakeAt50 [0x11000100, 0x00000032] []
    s.hostOverlap = false ∧ alive s ∧ r ∈ opcodeTable ∧ (0x11000100 : Word).toNat / 2 ^ 24 = r.code.toNat ∧
    r.selects 0x11000100 = false ∧
    [(50 : Word)].length = r.format.argWords (if r.format.isBatch then (0x11000100 : Word).toNat / 2 ^ 8 % 2 ^ 8 else 0) := by decide +kernel

theorem witness_ReservedElementBitsAreNotSupported_channels :
    let s := awakeAt50 [0x31000200, 0x00000000, 0x00000100] []
    s.hostOverlap = false ∧ alive s ∧ [(0 : Word), 0x100].length = (2 : Byte).toNat ∧
    (0x100 : Word) ∈ [(0 : Word), 0x100] ∧ 256 ≤ (0x100 : Word).toNat ∧ s.stream = headerWord 0x31 0 2 :: ([0, 0x100] ++ []) := by decide +kernel

theorem witness_ReservedElementBitsAreNotSupported_duties :
    let s := awakeAt50 [0x32000100, 0x00000100, 0x3F000000] []
    s.hostOverlap = false ∧ alive s ∧ [((0x100 : Word), (0x3F000000 : Word))].length = (1 : Byte).toNat ∧
    256 ≤ ((0x100 : Word), (0x3F000000 : Word)).1.toNat ∧
    s.stream = headerWord 0x32 0 1 ::
      ([((0x100 : Word), (0x3F000000 : Word))].flatMap (fun e => [e.1, e.2]) ++ []) := by decide

theorem witness_StepConsumesTheStream :
    ∃ t, step (fresh [0x40000000, 0x12000000] []) = .next t ∧ (t.stream == [0x12000000]) = true := 
  next_of_ends (by decide)

theorem witness_DestroyedAndUnserialisedAreRefused :
    (gone []).dsmState = .destroyed ∧ (gone [0xFF000000]).hostOverlap = false ∧
    decode (gone [0xFF000000]).stream = .reject .unassignedOpcode [] ∧
    ({ fresh [] [] with hostOverlap := true } : State).hostOverlap = true := by decide

theorem witness_PrescaleIsTheRoundedFormula :
    1 ≤ 1 ∧ computePrescale 1 = 255 ∧ computePrescale 24 = 253 ∧ computePrescale 4294967295 = 3 := by decide +kernel

theorem witness_PrescaleIsNonincreasing :
    1 ≤ 24 ∧ 24 ≤ 1526 ∧ computePrescale 1526 = 3 := by decide

theorem witness_PrescaleFrequencyBands :
    (24 ≤ 24 ∧ 24 ≤ 1526 ∧ 3 ≤ 253 ∧ 253 ≤ 253) ∧ (24 ≤ 1526 ∧ 1526 ≤ 1526 ∧ 3 ≤ 3 ∧ 3 ≤ 253) := by decide

theorem witness_ComputePrescaleCommand :
    alive (fresh [] []) ∧ (1 : Word) ≠ 0 := by decide

theorem witness_ComputeTimingCommand :
    alive (fresh [] []) ∧ isNaN 0x7F800000 = false ∧ isNaN 0x7F800001 = true ∧ isNaN 0xFFFFFFFF = true := by decide

theorem witness_TimingIsTheThreeCasePolicy :
    (isFinite 0x00000000 ∧ isFinite 0x3F800000 ∧ isFinite 0xFF7FFFFF) ∧
    isFinite 0x3F000000 ∧ 0 < val32 0x3F000000 ∧ val32 0x3F000000 < 1 := by
  have h : (0x3F000000 : Word).toNat = 0x3F000000 := rfl
  refine ⟨by decide, by decide, ?_, ?_⟩ <;> simp only [val32, h] <;> norm_num [zpow_neg]

theorem witness_TimingAtTheEndsOfTheRange :
    (0x3F7FF800 ≤ (0x3F7FFFFF : Word).toNat ∧ (0x3F7FFFFF : Word).toNat ≤ 0x3F7FFFFF) ∧
    (1 ≤ (0x39000800 : Word).toNat ∧ (0x39000800 : Word).toNat ≤ 0x39000800) := by decide

theorem witness_Binary32DiffersOnTheListedPatterns :
    2046 ≤ 2046 ∧
    (computeTiming .exact (BitVec.ofNat 32 (0x3F001001 + 2046 * 0x1001))).off = 4094 ∧ isNaN 0x3F001000 = false ∧
    (∀ k : Nat, k ≤ 2046 → (0x3F001000 : Word).toNat ≠ 0x3F001001 + k * 0x1001) := by
  refine ⟨by decide, by decide, by decide, fun k _ => ?_⟩
  rw [show (0x3F001000 : Word).toNat = 0x3F001000 from rfl]
  omega

theorem witness_EncodedTimingGivesTheCountersBack :
    (4095 : Half).toNat ≤ 4095 ∧ (0 : Half).toNat ≤ 4095 := by decide

theorem witness_InitializeBringsTheDeviceUp :
    let s := fresh [] (oks 11)
    alive s ∧ s.cfg.initialized = false ∧ s.cfg.transportPresent = true ∧ okFor s 11 := by decide +kernel

theorem witness_InitializeIsIdempotent :
    alive (awakeAt50 [] []) ∧ (awakeAt50 [] []).cfg.initialized = true := by decide

theorem witness_InitializeIsIdempotent_after_success :
    ∃ t, exec .initializeDevice (fresh [] (oks 11)) = .next t ∧ (t.status == 0) = true := 
  next_of_ends (by decide +kernel)

theorem witness_FailedInitializeLeavesUninit :
    let s := fresh [] (oksThenFail 10)
    alive s ∧ s.cfg.initialized = false ∧ s.cfg.transportPresent = true ∧ 10 < 11 ∧ failsAfter s 10 := by decide

theorem witness_SetFrequencyChangesTheFrequency :
    let s := asleepAt50 [] (oks 5)
    ready s ∧ (24 ≤ (24 : Word).toNat ∧ (24 : Word).toNat ≤ 1526) ∧
    (24 ≤ (1526 : Word).toNat ∧ (1526 : Word).toNat ≤ 1526) ∧ okFor s 5 := by decide

theorem witness_FailedSetFrequencyKeepsTheFrequency :
    ∀ j < 5, let s := awakeAt50 [] (oksThenFail j)
    ready s ∧ 24 ≤ (1526 : Word).toNat ∧ (1526 : Word).toNat ≤ 1526 ∧ failsAfter s j := by decide

theorem witness_SleepAndWakeupWriteTheSleepBit :
    ready (asleepAt50 [] (oks 2)) ∧ okFor (asleepAt50 [] (oks 2)) 2 := by decide

theorem witness_FailedSleepAndWakeupKeepTheState :
    ∀ j < 2, ready (awakeAt50 [] (oksThenFail j)) ∧ failsAfter (awakeAt50 [] (oksThenFail j)) j := by decide

theorem witness_DeinitializeStopsEveryChannel :
    ready (awakeAt50 [] (oks 67)) ∧ okFor (awakeAt50 [] (oks 67)) 67 := by decide +kernel

theorem witness_FailedDeinitializeStopsAPrefix :
    ∀ k ∈ [1, 4, 5, 64, 67], let s := awakeAt50 [] (oksThenFail (k - 1))
    ready s ∧ 1 ≤ k ∧ k ≤ 67 ∧ failsAfter s (k - 1) := by decide +kernel

theorem witness_DestroyEndsTheInstance :
    (alive (fresh [] []) ∧ (fresh [] []).cfg.initialized = false) ∧
    ready (awakeAt50 [] (oks 67)) ∧ okFor (awakeAt50 [] (oks 67)) 67 := by decide +kernel

theorem witness_DestroyAlwaysDestroys :
    let s := awakeAt50 [] (oksThenFail 66)
    (∃ t, exec .destroy s = .next t ∧ (t.status == 6) = true) ∧ s.cfg.initialized = true ∧
    ∃ t, exec .deinitialize s = .next t ∧ (t.status == 6) = true := 
  ⟨next_of_ends (by decide +kernel), rfl, next_of_ends (by decide +kernel)⟩

theorem witness_ChannelCommands :
    let s := asleepAt50 [] (oks 4)
    ready s ∧ okFor s 4 ∧ dutyInRange 0x3F800000 = true ∧ dutyInRange 0x80000000 = true ∧ dutyInRange 0 = true := by decide

/-- It meets the hypotheses of SetDutyCycleAppliesAndRecords, StartReappliesTheStoredTiming and
StopKeepsTheStoredDuty, of any channel. -/
theorem witness_StartReappliesTheStoredTiming : ready (asleepAt50 [] (oks 4)) ∧ okFor (asleepAt50 [] (oks 4)) 4 := by
  decide

theorem witness_ConfigureChannelSetsFrequencyThenDuty :
    let s := awakeAt50 [] (oks 9)
    ready s ∧ 24 ≤ (1000 : Word).toNat ∧ (1000 : Word).toNat ≤ 1526 ∧ dutyInRange 0x3F400000 = true ∧ okFor s 9 := by decide

theorem witness_ChecksComeInOrderWithoutEffect :
    (alive (fresh [] []) ∧ (fresh [] []).cfg.initialized = false) ∧
    (let s : State := { fresh [] [] with cfg := { (fresh [] []).cfg with transportPresent := false } }
     alive s ∧ s.cfg.initialized = false ∧ s.cfg.transportPresent = false) ∧
    (alive (awakeAt50 [] []) ∧ (awakeAt50 [] []).cfg.initialized = true ∧ 16 ≤ (16 : Byte).toNat) ∧
    ((23 : Word).toNat < 24 ∧ 1526 < (1527 : Word).toNat ∧ (15 : Byte).toNat < 16) ∧
    dutyInRange 0x3F800001 = false ∧ dutyInRange 0x80000001 = false ∧ dutyInRange 0x7FC00000 = false := by decide

theorem witness_DutyCheckIsTheUnitInterval :
    dutyInRange 0x3F800000 = true ∧ dutyInRange 0x80000000 = true ∧ dutyInRange 0x3F800001 = false := by decide

theorem witness_FailedChannelWriteKeepsTheRecord :
    ∀ j < 4, let s := awakeAt50 [] (oksThenFail j)
    ready s ∧ failsAfter s j ∧ dutyInRange 0x3F000000 = true := by decide

theorem witness_FailedConfigureChannelIsNotRolledBack :
    ∀ j ∈ [0, 1, 2, 4, 5, 8], let s := awakeAt50 [] (oksThenFail j)
    ready s ∧ 24 ≤ (1000 : Word).toNat ∧ (1000 : Word).toNat ≤ 1526 ∧ dutyInRange 0x3F400000 = true ∧ j < 9 ∧
    failsAfter s j := by decide +kernel

theorem witness_StopThenStartRestoresTheDuty :
    let s := awakeAt50 [] (oks 12)
    ready s ∧ dutyInRange 0x3E99999A = true ∧ okFor s 12 := by decide

theorem witness_BatchAppliesEveryElement :
    let s := awakeAt50 [] (oks 8)
    ready s ∧ [(4 : Fin 16), 4] ≠ [] ∧ okFor s (4 * [(4 : Fin 16), 4].length) ∧
    [((4 : Fin 16), (0x3F000000 : Word)), (4, 0x3F800000)].length = 2 ∧
    dutyInRange 0x3F000000 = true ∧ dutyInRange 0x3F800000 = true := by decide +kernel

theorem witness_EmptyAndUninitializedBatches :
    (alive (fresh [] []) ∧ (fresh [] []).cfg.initialized = false) ∧
    alive (awakeAt50 [] []) ∧ (awakeAt50 [] []).cfg.initialized = true := by decide

theorem witness_BatchStopsAtTheFirstInvalidElement :
    let s := awakeAt50 [] (oks 8)
    ready s ∧ okFor s (4 * [(0 : Fin 16), 1].length) ∧ 16 ≤ (16 : Byte).toNat ∧
    dutyInRange 0x3F000000 = true ∧ dutyInRange 0 = true ∧
    dutyInRange 0x3FC00000 = false := by decide +kernel

theorem witness_BatchStopsAtAFailedTransaction :
    ∀ j < 8, let s := awakeAt50 [] (oksThenFail j)
    ready s ∧ j < 4 * [(0 : Fin 16), 1].length ∧ failsAfter s j := by decide

theorem witness_StubsAlwaysAnswerNotSupported :
    alive (fresh [] []) ∧ alive (awakeAt50 [] []) := by decide

/-- State A meets the invariant. -/
theorem awakeAt50_inv (ws : List Word) (as : List Answer) : Inv (awakeAt50 ws as) where
  pc := rfl
  notResetting := by simp [awakeAt50]
  initializedIff := by simp [awakeAt50]
  transport := fun _ => rfl
  frequency := fun _ => by simp [awakeAt50]
  prescale := fun _ => by
    show (121 : Byte) = computePrescale 50
    decide
  records n := by
    have h : (awakeAt50 ws as).channel n = ChannelRecord.initial := by
      simp [awakeAt50, fresh, State.construct, State.channel]
    rw [h]
    exact ⟨by decide, rfl, by decide, by decide⟩

theorem witness_StepKeepsTheInvariant :
    Inv (awakeAt50 [0x12000000] (oks 2)) ∧
    ∃ t, step (awakeAt50 [0x12000000] (oks 2)) = .next t ∧ (t.dsmState == .asleep) = true := 
  ⟨awakeAt50_inv _ _, next_of_ends (by decide +kernel)⟩

/-- It meets the hypothesis of ConstructionArgumentsAreNeverWritten and of TransactionsStayOnTheRegisterMap too; its
other clauses are about the transport calls alone. -/
theorem witness_step_with_transactions :
    ∃ t, step (awakeAt50 [0x20000000, 0x3F000000] (oks 4)) = .next t ∧ (t.trace.length == 4) = true :=
  next_of_ends (by decide +kernel)

theorem witness_OnlyInitializeAndDeinitializeChangeInitialized :
    ((fresh [] (oks 11)).cfg.initialized = false ∧
      ∃ t, exec .initializeDevice (fresh [] (oks 11)) = .next t ∧ t.cfg.initialized = true) ∧
    (awakeAt50 [] (oks 67)).cfg.initialized = true ∧
      ∃ t, exec .destroy (awakeAt50 [] (oks 67)) = .next t ∧ (!t.cfg.initialized) = true := 
  ⟨⟨rfl, next_of_ends (P := fun t => t.cfg.initialized) (by decide +kernel)⟩, rfl, next_of_ends (by decide +kernel)⟩

theorem witness_StatusIsOneOfTheCommandsOwn :
    (∃ t, exec (.computePrescale 50) (fresh [] []) = .next t ∧ (t.status == 0) = true) ∧
    ∃ t, exec .sleep (fresh [] []) = .next t ∧ (t.status == 1) = true := 
  ⟨next_of_ends (by decide), next_of_ends (by decide)⟩

theorem witness_CheckErrorsHaveNoSideEffect :
    isBatch (.start 16) = false ∧
    ∃ t, exec (.start 16) (awakeAt50 [] []) = .next t ∧ (t.status != 0 && t.status != 6) = true := 
  ⟨rfl, next_of_ends (by decide)⟩

theorem witness_OnlyTheLastEventFails :
    ((awakeAt50 [] (oksThenFail 1)).cfg.transportPresent = true ∧
      ∃ t, exec .sleep (awakeAt50 [] (oksThenFail 1)) = .next t ∧ (t.status == 6) = true) ∧
    (∃ t, exec .sleep (awakeAt50 [] (oks 2)) = .next t ∧ (t.status != 6) = true) ∧
    let s : State := { fresh [] [] with cfg := { (fresh [] []).cfg with transportPresent := false } }
    s.cfg.transportPresent = false ∧ ∃ t, exec .initializeDevice s = .next t ∧ (t.status == 5) = true := 
  ⟨⟨rfl, next_of_ends (by decide +kernel)⟩, next_of_ends (by decide +kernel), rfl, next_of_ends (by decide +kernel)⟩

theorem witness_OnlyAHungTransactionStops_initialize :
    ∀ j ∈ [0, 6, 7, 10], let s := fresh [] (oksThenHang j)
    alive s ∧ s.cfg.initialized = false ∧ s.cfg.transportPresent = true ∧ j < 11 ∧ hangsAfter s j := by decide +kernel

theorem witness_OnlyAHungTransactionStops_device :
    ∀ j ∈ [0, 1, 2, 4, 5, 8, 66], let s := awakeAt50 [] (oksThenHang j)
    ready s ∧ hangsAfter s j ∧ 24 ≤ (1526 : Word).toNat ∧ (1526 : Word).toNat ≤ 1526 ∧ dutyInRange 0x3F800000 = true ∧
    j < 67 := by decide +kernel

theorem witness_OnlyAHungTransactionStops_batches :
    ∀ j ∈ [0, 3, 4, 7], let s := awakeAt50 [] (oksThenHang j)
    ready s ∧ hangsAfter s j ∧ j < 4 * [(0 : Fin 16), 1].length ∧
    j < 4 * [((0 : Fin 16), (0x3F000000 : Word)), (1, 0)].length ∧ dutyInRange 0x3F000000 = true ∧ dutyInRange 0 = true := by decide +kernel

theorem witness_OnlyAHungTransactionStops : ∃ r, exec .sleep (awakeAt50 [] [.ok 0x01, .hang]) = .fault r := by
  have h : (match exec .sleep (awakeAt50 [] [.ok 0x01, .hang]) with
    | .fault _ => true
    | .next _ | .refused _ => false) = true := by decide +kernel
  generalize exec .sleep (awakeAt50 [] [.ok 0x01, .hang]) = o at h
  cases o with
  | fault r => exact ⟨r, rfl⟩
  | next t => cases h
  | refused r => cases h

theorem witness_EveryCommandCompletesUnlessHung :
    let i := Instr.startMultiple [0, 99]
    alive (awakeAt50 [] (oksThenFail 7)) ∧ ∀ k < transactionsOf i, (awakeAt50 [] (oksThenFail 7)).upcoming k ≠ .hang := by decide +kernel

/-- A trace of SLEEP set, a prescale write, and a wakeup, as the rules want it. -/
def goodTrace : List Entry := prescaleEvents 0x40 0x10 0x79 0x01 0x11

/-- It meets the premises of PrescaleIsWrittenOnlyAsleep and ModeWritesKeepTheOtherBits. -/
theorem witness_PrescaleIsWrittenOnlyAsleep :
    everyEntry (prescaleGuarded testParams.sleepMask) goodTrace ∧
    ∃ t, step { awakeAt50 [0x11000000, 0x000003E8] (oks 5) with trace := goodTrace } = .next t ∧
      (t.trace.length == 12) = true := by
  refine ⟨fun k e h => ?_, next_of_ends (by decide +kernel)⟩
  have hk : k < 6 := (List.getElem?_eq_some_iff.1 h).1
  intro dev v he
  interval_cases k <;> obtain rfl := Option.some.inj h <;> try cases he
  exact ⟨by decide, 0x11, rfl, rfl⟩

theorem witness_ModeWritesKeepTheOtherBits :
    everyEntry (modeWritePreserves testParams) goodTrace ∧
    ∃ t, step { awakeAt50 [0x12000000] (oks 2) with trace := goodTrace } = .next t ∧
      (t.trace.length == 8) = true := by
  refine ⟨fun k e h => ?_, next_of_ends (by decide +kernel)⟩
  have hk : k < 6 := (List.getElem?_eq_some_iff.1 h).1
  intro dev v
  interval_cases k <;> obtain rfl := Option.some.inj h <;>
    refine ⟨fun he => ?_, fun he => ?_⟩ <;> try cases he
  · exact ⟨0x01, rfl, by decide⟩
  · exact ⟨0x11, rfl, by decide⟩

theorem witness_EveryWakeSettles :
    wakesSettle testParams.sleepMask goodTrace ∧
    ∃ t, step { awakeAt50 [0x13000000] (oks 2) with trace := goodTrace } = .next t ∧
      (t.trace.length == 9) = true := by
  refine ⟨fun k dev u h hu => ?_, next_of_ends (by decide +kernel)⟩
  have hk : k < 6 := (List.getElem?_eq_some_iff.1 h).1
  interval_cases k <;> first
    | rfl
    | (have h' := Option.some.inj h
       cases h'
       exact absurd hu (by decide))
    | (have h' := Option.some.inj h
       cases h')

end Sys2Proof.Machine.Tests
end

section
/-! PROOFS of the statements of 10_state.md about the state (sections 1, 2, 3, 6 and 8). A completed command is split
into what keeps `initialized` and the invariant (`Steady`) and the three commands that assign `initialized`, each of which
is run through once (`Cmd.Assigns`); the two statements about every command are read off both. -/

namespace Sys2Proof.Machine

variable {α : Type} {R : State → State → Prop}

/-! ## The Timing Mapper's counters (R33) -/

/-- Below 1 the product is at most 4095, in either arithmetic. -/
theorem dutyProduct_le (arith : DutyProductArith) {w : Word} (h : magnitude w < unitScale) :
    dutyProduct arith w ≤ counterMax * unitScale := by
  have hp : magnitude w * counterMax < counterMax * unitScale := by
    rw [Nat.mul_comm counterMax]
    exact Nat.mul_lt_mul_of_pos_right h (by decide)
  cases arith with
  | exact => exact hp.le
  | binary32 => exact roundToBinary32_le hp

/-- Below 1 the rounded product is at most 4095. -/
theorem dutyCount_le (arith : DutyProductArith) {w : Word} (h : magnitude w < unitScale) :
    dutyCount arith w ≤ 4095 := by
  have hp := dutyProduct_le arith h
  rw [dutyCount, roundHalfAway_natCast]
  simp only [counterMax, unitScale] at hp ⊢
  omega

/-- Settles O17, by the three cases of the timing policy. -/
theorem timingIsTwelveBits : Obligations.TimingIsTwelveBits := by
  intro arith w
  unfold computeTiming
  split
  · decide
  · next hpos =>
    split
    · decide
    · next hlt =>
      have hc := dutyCount_le arith (magnitude_lt hpos hlt)
      refine ⟨Nat.zero_le _, ?_⟩
      rw [BitVec.toNat_ofNat]
      exact (Nat.mod_le _ _).trans hc

/-! ## Construction (R39) -/

/-- Construction puts every channel in the state of R32. -/
@[simp] theorem State.channel_construct (p : Params) (a : Byte) (pin : Option Int) (tp : Bool) (n : Fin 16) :
    (State.construct p a pin tp).channel n = ChannelRecord.initial := by
  simp [State.channel, State.construct]

/-- Settles O47: every field is the one construction writes; the records are read off the Channel Store. -/
theorem constructionState : Obligations.ConstructionState :=
  fun p a pin tp => ⟨rfl, rfl, rfl, rfl, rfl, State.channel_construct p a pin tp, rfl, rfl⟩

/-- A record whose counters the mapper gave its duty; their 12 bits follow. -/
theorem RecordInv.of_timing {arith : DutyProductArith} {r : ChannelRecord} (hd : dutyInRange r.dutyCycle = true)
    (ht : r.timing = computeTiming arith r.dutyCycle) : RecordInv arith r := by
  obtain ⟨hon, hoff⟩ := timingIsTwelveBits arith r.dutyCycle
  rw [← ht] at hon hoff
  exact ⟨hd, ht, hon, hoff⟩

theorem recordInv_initial (arith : DutyProductArith) : RecordInv arith ChannelRecord.initial :=
  .of_timing (by decide) (by rw [computeTiming, if_pos (by decide)]; rfl)

/-- Of an uninitialized device between commands only the records are asked anything more (R29). -/
theorem Inv.of_uninitialized {s : State} (hpc : s.pc = none) (hi : s.cfg.initialized = false)
    (hd : s.dsmState = .uninit ∨ s.dsmState = .deinit)
    (hr : ∀ n, RecordInv s.params.dutyProductArith (s.channel n)) : Inv s where
  pc := hpc
  notResetting := by rcases hd with h | h <;> simp [h]
  initializedIff _ := by rcases hd with h | h <;> simp [h, hi]
  transport := by simp [hi]
  frequency := by simp [hi]
  prescale := by simp [hi]
  records := hr

theorem inv_construct (p : Params) (a : Byte) (pin : Option Int) (tp : Bool) : Inv (State.construct p a pin tp) :=
  .of_uninitialized rfl rfl (.inl rfl) fun n => by rw [State.channel_construct]; exact recordInv_initial _

/-- Settles O48: construction leaves an uninitialized device, and the reset state is one construction. -/
theorem invariantHoldsAtConstruction : Obligations.InvariantHoldsAtConstruction :=
  ⟨inv_construct, inv_construct _ _ _ _⟩

/-! ## One step (R20) -/

/-- Settles O6: with a serialised host and a decoded command, only that branch of the fetch is left. -/
theorem stepExecutesTheDecodedCommand : Obligations.StepExecutesTheDecodedCommand := by
  intro s i rest ho hd
  rw [step, fetchAndRun, if_neg (by simp [ho]), hd]
  rfl

/-! ## The construction arguments (R10, R23 to R25) -/

/-- The parameters and the construction arguments are the same in both states. -/
structure SameConstruction (s t : State) : Prop where
  params : t.params = s.params
  i2cAddress : t.cfg.i2cAddress = s.cfg.i2cAddress
  outputEnablePin : t.cfg.outputEnablePin = s.cfg.outputEnablePin
  transportPresent : t.cfg.transportPresent = s.cfg.transportPresent

theorem sameConstruction_busFrame : IsBusFrame SameConstruction where
  refl _ := ⟨rfl, rfl, rfl, rfl⟩
  trans h k := ⟨k.1.trans h.1, k.2.trans h.2, k.3.trans h.3, k.4.trans h.4⟩
  event _ _ _ := ⟨rfl, rfl, rfl, rfl⟩
  stopped _ _ := ⟨rfl, rfl, rfl, rfl⟩
  delay _ _ := ⟨rfl, rfl, rfl, rfl⟩

theorem sameConstruction_commandFrame : IsCommandFrame SameConstruction :=
  sameConstruction_busFrame.toCommandFrame (fun _ _ => ⟨rfl, rfl, rfl, rfl⟩) (fun _ _ => ⟨rfl, rfl, rfl, rfl⟩)
    (fun _ _ _ => ⟨rfl, rfl, rfl, rfl⟩) (fun _ _ _ => ⟨rfl, rfl, rfl, rfl⟩)

/-- Settles O50: no assignment of a command names one of the four. -/
theorem constructionArgumentsAreNeverWritten : Obligations.ConstructionArgumentsAreNeverWritten := by
  intro s t h
  obtain ⟨hp, ha, hpin, ht⟩ := step_keeps sameConstruction_commandFrame (fun _ _ => ⟨rfl, rfl, rfl, rfl⟩)
    (fun _ _ _ => ⟨rfl, rfl, rfl, rfl⟩) (fun _ _ => ⟨rfl, rfl, rfl, rfl⟩) h
  exact ⟨hp, ha, hpin, ht⟩

/-! ## The invariant inside a command -/

/-- The invariant with its clause about `pc` left out: `pc` has a value while a command runs (R22). -/
def InvInside (s : State) : Prop := Inv (s.setPc none)

theorem Inv.inside {s : State} (h : Inv s) (k : Option Nat) : InvInside (s.setPc k) := { h with pc := rfl }

theorem InvInside.respond {s : State} (h : InvInside s) (e : Status) (r : Option Word) : Inv (s.respond e r) :=
  { h with pc := rfl }

/-- A step of R29's state machine of an initialized device. -/
theorem InvInside.setDsm {s : State} {d : DsmState} (h : InvInside s) (hi : s.cfg.initialized = true)
    (hd : d = .awake ∨ d = .asleep) : InvInside (s.setDsm d) :=
  { h with
    notResetting := by rcases hd with rfl | rfl <;> nofun
    initializedIff := fun _ => ⟨fun _ => hd, fun _ => hi⟩ }

/-- R29's sentence is not asked of DESTROYED (R165). -/
theorem InvInside.setDsm_destroyed {s : State} (h : InvInside s) : InvInside (s.setDsm .destroyed) :=
  { h with
    notResetting := nofun
    initializedIff := fun hd => absurd rfl hd }

theorem InvInside.deinitialized {s : State} (h : InvInside s) :
    InvInside ((s.setInitialized false).setDsm .deinit) :=
  .of_uninitialized rfl rfl (.inr rfl) h.records

theorem InvInside.setFrequency {s : State} {f : Word} (h : InvInside s) (hf : frequencyInRange f = true) :
    InvInside (s.setFrequency f (computePrescale f.toNat)) :=
  { h with
    frequency := fun _ => (frequencyInRange_iff f).1 hf
    prescale := fun _ => rfl }

theorem InvInside.setChannel {s : State} {n : Fin 16} {r : ChannelRecord} (h : InvInside s)
    (hr : RecordInv s.params.dutyProductArith r) : InvInside (s.setChannel n r) :=
  { h with
    records := fun m => by
      change RecordInv s.params.dutyProductArith ((s.setChannel n r).channel m)
      rw [State.channel_setChannel]
      split
      · exact hr
      · exact h.records m }

theorem InvInside.setActive {s : State} (h : InvInside s) (n : Fin 16) (b : Bool) : InvInside (s.setActive n b) :=
  h.setChannel { h.records n with }

/-! ## Parts of commands that only make events -/

/-- Nothing the invariant speaks of differs between the two states. -/
structure Quiet (s t : State) : Prop where
  params : t.params = s.params
  cfg : t.cfg = s.cfg
  dsmState : t.dsmState = s.dsmState
  channels : t.channels = s.channels

theorem quiet_busFrame : IsBusFrame Quiet where
  refl _ := ⟨rfl, rfl, rfl, rfl⟩
  trans h k := ⟨k.1.trans h.1, k.2.trans h.2, k.3.trans h.3, k.4.trans h.4⟩
  event _ _ _ := ⟨rfl, rfl, rfl, rfl⟩
  stopped _ _ := ⟨rfl, rfl, rfl, rfl⟩
  delay _ _ := ⟨rfl, rfl, rfl, rfl⟩

theorem Quiet.records {s t : State} (q : Quiet s t) (h : ∀ n, RecordInv s.params.dutyProductArith (s.channel n))
    (n : Fin 16) : RecordInv t.params.dutyProductArith (t.channel n) := by
  rw [q.params, State.channel_congr q.channels]
  exact h n

theorem Quiet.invInside {s t : State} (q : Quiet s t) (h : InvInside s) : InvInside t where
  pc := rfl
  notResetting := by rw [State.setPc_dsmState, q.dsmState]; exact h.notResetting
  initializedIff := by rw [State.setPc_dsmState, State.setPc_cfg, q.dsmState, q.cfg]; exact h.initializedIff
  transport := by rw [State.setPc_cfg, q.cfg]; exact h.transport
  frequency := by rw [State.setPc_cfg, q.cfg]; exact h.frequency
  prescale := by rw [State.setPc_cfg, q.cfg]; exact h.prescale
  records := q.records h.records

/-! ## What keeps `initialized` and the invariant -/

/-- `initialized` is as it was, and the invariant still holds if it held. -/
structure Steady (s t : State) : Prop where
  initialized : t.cfg.initialized = s.cfg.initialized
  inv : InvInside s → InvInside t

/-- `Steady` from an initialized state on: what the steps behind `CheckInit` keep. -/
def SteadyOnceInitialized (s t : State) : Prop := s.cfg.initialized = true → Steady s t

theorem steady_frame : IsFrame Steady where
  refl _ := ⟨rfl, id⟩
  trans h k := ⟨k.initialized.trans h.initialized, k.inv ∘ h.inv⟩

theorem Quiet.steady {s t : State} (q : Quiet s t) : Steady s t := ⟨by rw [q.cfg], q.invInside⟩

theorem steadyOnce_frame : IsFrame SteadyOnceInitialized where
  refl s _ := steady_frame.refl s
  trans h k hi := steady_frame.trans (h hi) (k ((h hi).initialized.trans hi))

theorem steadyOnce_busFrame : IsBusFrame SteadyOnceInitialized where
  toIsFrame := steadyOnce_frame
  event s e r _ := (quiet_busFrame.event s e r).steady
  stopped s e _ := (quiet_busFrame.stopped s e).steady
  delay s us _ := (quiet_busFrame.delay s us).steady

theorem steadyOnce_setDsm {d : DsmState} (hd : d = .awake ∨ d = .asleep) (s : State) :
    SteadyOnceInitialized s (s.setDsm d) := fun hi => ⟨rfl, fun h => h.setDsm hi hd⟩

/-- A command whose steps begin with `CheckInit`: from an uninitialized state it does nothing. -/
theorem keeps_checkInit_andThen {c : Cmd Unit} (h : c.Keeps SteadyOnceInitialized) :
    (checkInit.andThen fun _ => c).Keeps Steady := fun s => by
  cases hi : s.cfg.initialized with
  | false => rw [Cmd.andThen_raise (checkInit_raise hi)]; exact steady_frame.refl s
  | true => rw [Cmd.andThen_done (checkInit_ok hi)]; exact h s hi

/-- What a check has found may be used for what comes after it. -/
theorem keeps_require_andThen (hR : IsFrame R) {b : Bool} {e : Status} {c : Cmd α} (h : b = true → c.Keeps R) :
    ((require b e).andThen fun _ => c).Keeps R := fun s => by
  rcases require_cases b e s with ⟨hb, h'⟩ | ⟨_, h'⟩
  · rw [Cmd.andThen_done h']; exact h hb s
  · rw [Cmd.andThen_raise h']; exact hR.refl s

/-- A part whose end is an assignment: it completes with the assignment made, or stops before it. -/
theorem Cmd.Keeps.andThen_update_cases {c : Cmd α} (hc : c.Keeps R) (f : State → State) (s : State) :
    (∃ u, R s u ∧ (c.andThen fun _ => Cmd.update f) s = .done () (f u)) ∨
    (∃ e u, R s u ∧ (c.andThen fun _ => Cmd.update f) s = .raise e u) ∨
    (∃ u, R s u ∧ (c.andThen fun _ => Cmd.update f) s = .hang u) := by
  have hs := hc s
  rcases Cmd.andThen_cases c (fun _ => Cmd.update f) s with ⟨a, u, h, h'⟩ | ⟨e, u, h, h'⟩ | ⟨u, h, h'⟩ <;>
    rw [h] at hs
  · exact .inl ⟨u, hs, h'⟩
  · exact .inr (.inl ⟨e, u, hs, h'⟩)
  · exact .inr (.inr ⟨u, hs, h'⟩)

/-- A channel's registers written, and then an assignment. -/
theorem steady_timing_update (n : Fin 16) (t : Timing) {f : State → State} {s : State}
    (hf : ∀ u, Quiet s u → Steady u (f u)) :
    Steady s (((writeChannelTiming n t).andThen fun _ => Cmd.update f) s).state := by
  rcases (keeps_writeChannelTiming quiet_busFrame n t).andThen_update_cases f s with
    ⟨u, q, h⟩ | ⟨e, u, q, h⟩ | ⟨u, q, h⟩ <;> rw [h]
  · exact steady_frame.trans q.steady (hf u q)
  · exact q.steady
  · exact q.steady

theorem steady_setActive (s : State) (n : Fin 16) (b : Bool) : Steady s (s.setActive n b) :=
  ⟨rfl, fun h => h.setActive n b⟩

theorem steady_stopChannel (n : Fin 16) : (stopChannel n).Keeps Steady := fun _ =>
  steady_timing_update n _ fun u _ => steady_setActive u n false

theorem steady_startChannel (n : Fin 16) : (startChannel n).Keeps Steady := fun _ =>
  steady_timing_update n _ fun u _ => steady_setActive u n true

/-- A duty in range is stored with the mapper's counters for it (R32, R181). -/
theorem steady_applyDuty (n : Fin 16) {w : Word} (hw : dutyInRange w = true) : (applyDuty n w).Keeps Steady := fun s =>
  steady_timing_update n _ fun u q => ⟨rfl, fun h => h.setChannel <| .of_timing hw <| by rw [q.params]; rfl⟩

theorem steady_startSteps (c : Byte) : (startSteps c).Keeps Steady :=
  (keeps_checkInit steady_frame).andThen steady_frame fun _ =>
    (keeps_checkChannel steady_frame c).andThen steady_frame fun n => steady_startChannel n

theorem steady_stopSteps (c : Byte) : (stopSteps c).Keeps Steady :=
  (keeps_checkInit steady_frame).andThen steady_frame fun _ =>
    (keeps_checkChannel steady_frame c).andThen steady_frame fun n => steady_stopChannel n

theorem steady_setDutyCycleSteps (c : Byte) (w : Word) : (setDutyCycleSteps c w).Keeps Steady :=
  (keeps_checkInit steady_frame).andThen steady_frame fun _ =>
    (keeps_checkChannel steady_frame c).andThen steady_frame fun n =>
    keeps_require_andThen steady_frame fun hw => steady_applyDuty n hw

theorem steady_batch {op : α → Cmd Unit} (hop : ∀ a, (op a).Keeps Steady) (l : List α) : (batch op l).Keeps Steady :=
  (keeps_checkInit steady_frame).andThen steady_frame fun _ =>
    (keeps_require steady_frame _ _).andThen steady_frame fun _ => Cmd.keeps_forEach steady_frame hop l

theorem steadyOnce_sleepSeq : (sleepSeq true).Keeps SteadyOnceInitialized :=
  keeps_sleepSeq steadyOnce_busFrame true fun _ => steadyOnce_setDsm (.inr rfl)

theorem steadyOnce_wakeSeq : (wakeSeq true).Keeps SteadyOnceInitialized :=
  keeps_wakeSeq steadyOnce_busFrame true fun _ => steadyOnce_setDsm (.inl rfl)

/-- A frequency in range is stored with its prescale (R27, R28). -/
theorem steadyOnce_changeFrequency {f : Word} (hf : frequencyInRange f = true) :
    (changeFrequency f).Keeps SteadyOnceInitialized :=
  (keeps_prescaleSeq steadyOnce_busFrame true _ (fun _ => steadyOnce_setDsm (.inr rfl))
    (fun _ => steadyOnce_setDsm (.inl rfl))).andThen steadyOnce_frame
    fun _ => Cmd.keeps_update fun _ _ => ⟨rfl, fun h => h.setFrequency hf⟩

theorem steady_configureChannelSteps (c : Byte) (f w : Word) : (configureChannelSteps c f w).Keeps Steady :=
  keeps_checkInit_andThen <| (keeps_checkChannel steadyOnce_frame c).andThen steadyOnce_frame fun n =>
    keeps_require_andThen steadyOnce_frame fun hf => keeps_require_andThen steadyOnce_frame fun hw =>
    (steadyOnce_changeFrequency hf).andThen steadyOnce_frame fun _ s _ => steady_applyDuty n hw s

/-- Every command is steady but the three that assign `initialized`. -/
theorem steady_stepsOf {i : Instr} (hI : i ≠ .initializeDevice) (hD : i ≠ .deinitialize) (hX : i ≠ .destroy) :
    (stepsOf i).Keeps Steady := by
  have hF := steady_frame
  cases i with
  | computePrescale f => exact (keeps_require hF _ _).andThen hF fun _ => Cmd.keeps_pure hF _
  | computeTiming w => exact fun s => (keeps_require hF _ _).andThen hF (fun _ => Cmd.keeps_pure hF _) s
  | initializeDevice => exact absurd rfl hI
  | setFrequency f =>
    exact (keeps_checkInit_andThen <| keeps_require_andThen steadyOnce_frame steadyOnce_changeFrequency).noResult hF
  | sleep => exact (keeps_checkInit_andThen steadyOnce_sleepSeq).noResult hF
  | wakeup => exact (keeps_checkInit_andThen steadyOnce_wakeSeq).noResult hF
  | deinitialize => exact absurd rfl hD
  | destroy => exact absurd rfl hX
  | setDutyCycle c w => exact (steady_setDutyCycleSteps c w).noResult hF
  | start c => exact (steady_startSteps c).noResult hF
  | stop c => exact (steady_stopSteps c).noResult hF
  | configureChannel c f w => exact (steady_configureChannelSteps c f w).noResult hF
  | startMultiple chs => exact (steady_batch steady_startSteps chs).noResult hF
  | stopMultiple chs => exact (steady_batch steady_stopSteps chs).noResult hF
  | setDutyCycleMultiple es => exact (steady_batch (fun e => steady_setDutyCycleSteps e.1 e.2) es).noResult hF
  | setPhase c | configureFade c | startFade c | configureComplementary c | setDeadTime c | registerCallback c =>
    exact Cmd.keeps_raise hF _

/-! ## The three commands that assign `initialized` (R26) -/

/-- A command that may assign `b` to `initialized`, only where it completes, and keeps the invariant in any case. A
hang is left out: INITIALIZE hangs in RESETTING, where the invariant does not hold. -/
def Cmd.Assigns (b : Bool) (c : Cmd α) : Prop := ∀ s,
  match c s with
  | .done _ t => (t.cfg.initialized = s.cfg.initialized ∨ t.cfg.initialized = b) ∧ (InvInside s → InvInside t)
  | .raise _ t => Steady s t
  | .hang _ => True

theorem Cmd.Keeps.assigns {c : Cmd α} (hc : c.Keeps Steady) (b : Bool) : c.Assigns b := fun s => by
  have hs := hc s
  cases h : c s with
  | done a t => rw [h] at hs; exact ⟨.inl hs.initialized, hs.inv⟩
  | raise e t => rw [h] at hs; exact hs
  | hang t => trivial

theorem Cmd.Assigns.noResult {b : Bool} {c : Cmd Unit} (hc : c.Assigns b) : c.noResult.Assigns b := fun s => by
  have hs := hc s
  cases h : c s with
  | done a t => rw [h] at hs; rw [Cmd.noResult_done h]; exact hs
  | raise e t => rw [h] at hs; rw [Cmd.noResult_raise h]; exact hs
  | hang t => rw [Cmd.noResult_hang h]; trivial

/-- INITIALIZE's steps 1 to 13, before the assignments of its success. -/
def bringUpBus (f : Nat) : Cmd Unit :=
  busInit.andThen fun _ =>
  generalCallReset.andThen fun _ =>
  (prescaleSeq false (computePrescale f)).andThen fun _ =>
  driverSeq.andThen fun _ =>
  wakeSeq false

/-- The assignments of INITIALIZE's success. -/
def State.broughtUp (s : State) (f : Nat) : State :=
  ((s.setFrequency (BitVec.ofNat 32 f) (computePrescale f)).setInitialized true).setDsm .awake

theorem bringUp_eq (f : Nat) : bringUp f = (bringUpBus f).andThen fun _ => Cmd.update (·.broughtUp f) := by
  simp only [bringUpBus, Cmd.andThen_assoc]
  rfl

theorem quiet_bringUpBus (f : Nat) : (bringUpBus f).Keeps Quiet :=
  have hF := quiet_busFrame.toIsFrame
  (keeps_busInit quiet_busFrame).andThen hF fun _ => (keeps_generalCallReset quiet_busFrame).andThen hF fun _ =>
    (keeps_prescaleSeq quiet_busFrame false _ nofun nofun).andThen hF fun _ =>
    (keeps_driverSeq quiet_busFrame).andThen hF fun _ => keeps_wakeSeq quiet_busFrame false nofun

theorem InvInside.broughtUp {s u : State} {f : Nat} (h : InvInside s) (q : Quiet (s.setDsm .resetting) u)
    (ht : s.cfg.transportPresent = true) (hf : freqMinHz ≤ f ∧ f ≤ freqMaxHz) : InvInside (u.broughtUp f) := by
  have hw : (BitVec.ofNat 32 f).toNat = f := by
    simp only [freqMaxHz] at hf
    rw [BitVec.toNat_ofNat, Nat.mod_eq_of_lt (by omega)]
  exact {
    pc := rfl
    notResetting := nofun
    initializedIff := fun _ => ⟨fun _ => .inl rfl, fun _ => rfl⟩
    transport := fun _ => (congrArg _ q.cfg).trans ht
    frequency := fun _ => hw.symm ▸ hf
    prescale := fun _ => congrArg computePrescale hw.symm
    records := q.records h.records }

/-- A failed INITIALIZE leaves UNINIT and nothing else (R160). -/
theorem steady_bringUp_failed {s u : State} (q : Quiet (s.setDsm .resetting) u) (hi : s.cfg.initialized = false) :
    Steady s (u.setDsm .uninit) :=
  have hi' : u.cfg.initialized = s.cfg.initialized := congrArg _ q.cfg
  ⟨hi', fun h => .of_uninitialized rfl (hi'.trans hi) (.inl rfl) (q.records h.records)⟩

theorem initializeSteps_assigns : initializeSteps.Assigns true := fun s => by
  cases hi : s.cfg.initialized with
  | true =>
    have h : initializeSteps s = .done () s := by simp [initializeSteps, hi]
    rw [h]; exact ⟨.inl hi, id⟩
  | false =>
    cases ht : s.cfg.transportPresent with
    | false =>
      have h : initializeSteps s = .raise .invalidArgument s := by simp [initializeSteps, hi, ht]
      rw [h]; exact steady_frame.refl s
    | true =>
      rw [initializeSteps_run hi ht, bringUp_eq]
      obtain ⟨f, hf⟩ := s.params.defaultFrequencyHz
      rcases (quiet_bringUpBus f).andThen_update_cases (·.broughtUp f) (s.setDsm .resetting) with
        ⟨u, q, h⟩ | ⟨e, u, q, h⟩ | ⟨u, q, h⟩
      · rw [Cmd.onRaise_done h]; exact ⟨.inr rfl, fun hs => hs.broughtUp q ht hf⟩
      · rw [Cmd.onRaise_raise h]; exact steady_bringUp_failed q hi
      · rw [Cmd.onRaise_hang h]; trivial

/-- DEINITIALIZE's steps 1 to 67, before the assignments of its success. -/
def shutDown : Cmd Unit :=
  (Cmd.forEach stopChannel allChannels).andThen fun _ => (sleepSeq true).andThen fun _ => busDeinit

theorem deinitializeSteps_eq :
    deinitializeSteps = shutDown.andThen fun _ => Cmd.update fun s => (s.setInitialized false).setDsm .deinit := by
  simp only [shutDown, Cmd.andThen_assoc]
  rfl

theorem steadyOnce_shutDown : shutDown.Keeps SteadyOnceInitialized :=
  (Cmd.keeps_forEach steadyOnce_frame (fun n s _ => steady_stopChannel n s) _).andThen steadyOnce_frame fun _ =>
    steadyOnce_sleepSeq.andThen steadyOnce_frame fun _ => keeps_busDeinit steadyOnce_busFrame

/-- What DEINITIALIZE's steps do on an initialized device: all of them, or an error before any assignment. -/
theorem deinitializeSteps_cases {s : State} (hi : s.cfg.initialized = true) :
    (∃ u, Steady s u ∧ deinitializeSteps s = .done () ((u.setInitialized false).setDsm .deinit)) ∨
    (∃ e u, Steady s u ∧ deinitializeSteps s = .raise e u) ∨ (∃ u, deinitializeSteps s = .hang u) := by
  rw [deinitializeSteps_eq]
  rcases steadyOnce_shutDown.andThen_update_cases (fun s => (s.setInitialized false).setDsm .deinit) s with
    ⟨u, hu, h⟩ | ⟨e, u, hu, h⟩ | ⟨u, _, h⟩
  · exact .inl ⟨u, hu hi, h⟩
  · exact .inr (.inl ⟨e, u, hu hi, h⟩)
  · exact .inr (.inr ⟨u, h⟩)

theorem deinitialize_assigns : (checkInit.andThen fun _ => deinitializeSteps).Assigns false := fun s => by
  cases hi : s.cfg.initialized with
  | false => rw [Cmd.andThen_raise (checkInit_raise hi)]; exact steady_frame.refl s
  | true =>
    rcases deinitializeSteps_cases hi with ⟨u, hu, h⟩ | ⟨e, u, hu, h⟩ | ⟨u, h⟩ <;> rw [checkInit_andThen hi h]
    · exact ⟨.inr rfl, fun hs => (hu.inv hs).deinitialized⟩
    · exact hu
    · trivial

theorem destroySteps_assigns : destroySteps.Assigns false := fun s => by
  cases hi : s.cfg.initialized with
  | false =>
    have h : destroySteps s = .done () (s.setDsm .destroyed) := by simp [destroySteps, hi, Cmd.atEnd]
    rw [h]; exact ⟨.inl hi, InvInside.setDsm_destroyed⟩
  | true =>
    rw [destroySteps_run hi]
    rcases deinitializeSteps_cases hi with ⟨u, hu, h⟩ | ⟨e, u, hu, h⟩ | ⟨u, h⟩
    · rw [Cmd.atEnd_done h]; exact ⟨.inr rfl, fun hs => (hu.inv hs).deinitialized.setDsm_destroyed⟩
    · rw [Cmd.atEnd_raise h]; exact ⟨hu.initialized, fun hs => (hu.inv hs).setDsm_destroyed⟩
    · rw [Cmd.atEnd_hang h]; trivial

/-! ## Every command -/

/-- Which commands assign `initialized`, and what. -/
theorem stepsOf_assigns (i : Instr) :
    (stepsOf i).Keeps Steady ∨ (i = .initializeDevice ∧ (stepsOf i).Assigns true) ∨
    ((i = .deinitialize ∨ i = .destroy) ∧ (stepsOf i).Assigns false) := by
  by_cases hI : i = .initializeDevice
  · subst hI; exact .inr (.inl ⟨rfl, initializeSteps_assigns.noResult⟩)
  by_cases hD : i = .deinitialize
  · subst hD; exact .inr (.inr ⟨.inl rfl, deinitialize_assigns.noResult⟩)
  by_cases hX : i = .destroy
  · subst hX; exact .inr (.inr ⟨.inr rfl, destroySteps_assigns.noResult⟩)
  exact .inl (steady_stepsOf hI hD hX)

/-- A completed command that may assign `b` does so only with Success, and keeps the invariant. -/
theorem exec_next_of_assigns {b : Bool} {i : Instr} {s t : State} (hc : (stepsOf i).Assigns b)
    (h : exec i s = .next t) :
    (t.cfg.initialized = s.cfg.initialized ∨ (t.cfg.initialized = b ∧ t.status = 0)) ∧ (Inv s → Inv t) := by
  have hs := hc (s.setPc (some 1))
  rcases exec_cases i s with ⟨_, h'⟩ | ⟨_, r, u, hu, h'⟩ | ⟨_, e, u, hu, h'⟩ | ⟨_, u, _, h'⟩ <;> rw [h'] at h
  · cases h
  · cases h
    rw [hu] at hs
    obtain ⟨hi, hinv⟩ := hs
    exact ⟨hi.imp_right fun hb => ⟨hb, rfl⟩, fun h => (hinv (h.inside _)).respond _ _⟩
  · cases h
    rw [hu] at hs
    exact ⟨.inl hs.initialized, fun h => (hs.inv (h.inside _)).respond _ _⟩
  · cases h

theorem exec_keeps_inv {i : Instr} {s t : State} (h : exec i s = .next t) (hs : Inv s) : Inv t := by
  rcases stepsOf_assigns i with hc | ⟨_, hc⟩ | ⟨_, hc⟩
  · exact (exec_next_of_assigns (hc.assigns true) h).2 hs
  · exact (exec_next_of_assigns hc h).2 hs
  · exact (exec_next_of_assigns hc h).2 hs

/-- A completed command leaves `initialized` as it was, or is a successful INITIALIZE that set it, or a successful
DEINITIALIZE or DESTROY that cleared it (R26). -/
theorem exec_initialized_cases {i : Instr} {s t : State} (h : exec i s = .next t) :
    t.cfg.initialized = s.cfg.initialized ∨
    (t.cfg.initialized = true ∧ i = .initializeDevice ∧ t.status = 0) ∨
    (t.cfg.initialized = false ∧ (i = .deinitialize ∨ i = .destroy) ∧ t.status = 0) := by
  rcases stepsOf_assigns i with hc | ⟨hi, hc⟩ | ⟨hi, hc⟩
  · obtain ⟨_, e, r, rfl⟩ := exec_next h
    exact .inl (hc _).initialized
  · exact (exec_next_of_assigns hc h).1.imp_right fun ⟨hb, hst⟩ => .inl ⟨hb, hi, hst⟩
  · exact (exec_next_of_assigns hc h).1.imp_right fun ⟨hb, hst⟩ => .inr ⟨hb, hi, hst⟩

/-- Settles O49: the steps of every command keep the invariant but for its clause about `pc`, which the response
restores. -/
theorem stepKeepsTheInvariant : Obligations.StepKeepsTheInvariant := by
  intro s t hs h
  obtain ⟨_, rest, ⟨_, _, _, rfl⟩ | ⟨i, _, h⟩⟩ := step_next h
  · exact { hs with pc := rfl }
  · exact exec_keeps_inv h { hs with }

/-- Settles O51, from the three ways a completed command can leave `initialized`. -/
theorem onlyInitializeAndDeinitializeChangeInitialized :
    Obligations.OnlyInitializeAndDeinitializeChangeInitialized := by
  intro i s t h
  rcases exec_initialized_cases h with hsame | ⟨ht, hi⟩ | ⟨ht, hi⟩
  · exact ⟨fun h0 h1 => absurd (hsame.symm.trans h1) (by simp [h0]),
      fun h1 h0 => absurd (hsame.symm.trans h0) (by simp [h1])⟩
  · exact ⟨fun _ _ => hi, fun _ h0 => absurd (ht.symm.trans h0) (by decide)⟩
  · exact ⟨fun _ h1 => absurd (ht.symm.trans h1) (by decide), fun _ _ => hi⟩

end Sys2Proof.Machine
end

section
/-! PROOFS of the statements of 20_memory.md (sections 1 to 6). The stream and the register map are frames of a command
(`SameStream`, `StaysOnMap`). The two statements about hangs share one bound (`Cmd.Spends`): how many transactions the
parts of a command make, and what has happened when one of them is never answered. -/

namespace Sys2Proof.Machine

variable {α β : Type} {x : Stop}

/-! ## The host's stream (R76) -/

/-- The unread words are the same in both states. -/
def SameStream (s t : State) : Prop := t.stream = s.stream

theorem sameStream_busFrame : IsBusFrame SameStream where
  refl _ := rfl
  trans h k := k.trans h
  event _ _ _ := rfl
  stopped _ _ := rfl
  delay _ _ := rfl

theorem sameStream_commandFrame : IsCommandFrame SameStream :=
  sameStream_busFrame.toCommandFrame (fun _ _ => rfl) (fun _ _ => rfl) (fun _ _ _ => rfl) (fun _ _ _ => rfl)

/-- Executing a command reads nothing of the stream: its words were taken off before. -/
theorem exec_stream {i : Instr} {s t : State} (h : exec i s = .next t) : t.stream = s.stream :=
  exec_keeps sameStream_commandFrame (fun _ _ => rfl) (fun _ _ _ => rfl) h

/-- Settles O10: the decoder takes at least the header word, and the command touches no more of the stream. -/
theorem stepConsumesTheStream : Obligations.StepConsumesTheStream := by
  intro s t h
  obtain ⟨_, rest, ⟨why, hd, _, rfl⟩ | ⟨i, hd, h⟩⟩ := step_next h
  · exact decode_consumes (.inl ⟨why, hd⟩)
  · rw [exec_stream h]
    exact decode_consumes (.inr ⟨i, hd⟩)

/-! ## The register map (R51, R52, R58, R67) -/

/-- The bus address is as it was, and every event made between the two states is one of the register map. -/
structure StaysOnMap (s t : State) : Prop where
  address : t.cfg.i2cAddress = s.cfg.i2cAddress
  events : ∃ es, t.trace = s.trace ++ es ∧ ∀ e ∈ es, onRegisterMap s.cfg.i2cAddress e.event

theorem StaysOnMap.of_same {s t : State} (ha : t.cfg.i2cAddress = s.cfg.i2cAddress) (ht : t.trace = s.trace) :
    StaysOnMap s t := ⟨ha, [], by simp [ht], by simp⟩

theorem StaysOnMap.of_event {s t : State} {e : Entry} (ha : t.cfg.i2cAddress = s.cfg.i2cAddress)
    (ht : t.trace = s.trace ++ [e]) (he : onRegisterMap s.cfg.i2cAddress e.event) : StaysOnMap s t :=
  ⟨ha, [e], ht, by simpa using he⟩

theorem staysOnMap_frame : IsFrame StaysOnMap where
  refl _ := .of_same rfl rfl
  trans := by
    rintro s t u ⟨ha, es, hes, hm⟩ ⟨ka, fs, hfs, km⟩
    refine ⟨ka.trans ha, es ++ fs, by rw [hfs, hes, List.append_assoc], fun e he => ?_⟩
    rcases List.mem_append.1 he with he | he
    · exact hm e he
    · exact ha ▸ km e he

/-- A transaction adds its own event at most. -/
theorem staysOnMap_transact {e : Event} {s : State} (he : onRegisterMap s.cfg.i2cAddress e) :
    StaysOnMap s (transact e s).state := by
  rcases transact_cases e s with ⟨_, _, _, h⟩ | ⟨_, _, h⟩ | ⟨_, _, h⟩ | ⟨_, h⟩ <;> rw [h]
  · exact .of_event rfl rfl he
  · exact .of_event rfl rfl he
  · exact .of_event rfl rfl he
  · exact .of_same rfl rfl

/-- A result thrown away changes no state. -/
theorem Cmd.state_andThen_pure (c : Cmd α) (b : β) (s : State) :
    ((c.andThen fun _ => Cmd.pure b) s).state = (c s).state := by
  unfold Cmd.andThen
  cases c s <;> rfl

/-- A transport call that carries no register address. -/
theorem staysOnMap_call {e : Event} (he : ∀ dev, onRegisterMap dev e) :
    ((transact e).andThen fun _ => Cmd.pure ()).Keeps StaysOnMap := fun s => by
  rw [Cmd.state_andThen_pure]
  exact staysOnMap_transact (he _)

theorem staysOnMap_memWrite {reg v : Byte} (h : ∀ dev, onRegisterMap dev (.WR dev reg v)) :
    (memWrite reg v).Keeps StaysOnMap := fun s => by
  rw [memWrite, Cmd.state_andThen_pure]
  exact staysOnMap_transact (h _)

/-- A mode register may be read, and written with any byte. -/
theorem staysOnMap_modifyMode {reg : Byte} (h : reg = 0x00 ∨ reg = 0x01) (set clear : Byte) :
    (modifyMode reg set clear).Keeps StaysOnMap :=
  Cmd.Keeps.andThen staysOnMap_frame (fun _ => staysOnMap_transact ⟨rfl, h⟩) fun _ =>
    staysOnMap_memWrite fun _ => ⟨rfl, h.imp_right .inl⟩

theorem staysOnMap_noteDsm (track : Bool) (d : DsmState) : (noteDsm track d).Keeps StaysOnMap :=
  keeps_noteDsm staysOnMap_frame track d fun _ _ => .of_same rfl rfl

theorem staysOnMap_sleepSeq (track : Bool) : (sleepSeq track).Keeps StaysOnMap := fun s =>
  (staysOnMap_modifyMode (.inl rfl) _ _).andThen staysOnMap_frame (fun _ => staysOnMap_noteDsm _ _) s

theorem staysOnMap_delay : (delay settleUs).Keeps StaysOnMap := fun _ => .of_event (e := settle) rfl rfl rfl

theorem staysOnMap_wakeSeq (track : Bool) : (wakeSeq track).Keeps StaysOnMap := fun s =>
  (staysOnMap_modifyMode (.inl rfl) _ _).andThen staysOnMap_frame
    (fun _ => (staysOnMap_noteDsm _ _).andThen staysOnMap_frame fun _ => staysOnMap_delay) s

theorem staysOnMap_prescaleSeq (track : Bool) (p : Byte) : (prescaleSeq track p).Keeps StaysOnMap :=
  (staysOnMap_sleepSeq track).andThen staysOnMap_frame fun _ =>
    (staysOnMap_memWrite fun _ => ⟨rfl, .inr (.inr (.inl rfl))⟩).andThen staysOnMap_frame fun _ =>
    staysOnMap_wakeSeq track

theorem staysOnMap_driverSeq : driverSeq.Keeps StaysOnMap := fun s => by
  unfold driverSeq
  cases s.params.outputDriverMode <;> exact staysOnMap_modifyMode (.inr rfl) _ _ s

theorem highByte_lt (v : Half) : (highByte v).toNat < 16 := by
  have := (v.extractLsb' 8 4).isLt
  simp only [highByte, BitVec.toNat_setWidth]
  omega

/-- LEDn's registers lie at 0x06 + 4n to 0x09 + 4n (R53). -/
theorem ledBase_toNat (n : Fin 16) :
    (ledBase n).toNat = 0x06 + 4 * n.val ∧ (ledBase n + 1).toNat = 0x07 + 4 * n.val ∧
    (ledBase n + 2).toNat = 0x08 + 4 * n.val ∧ (ledBase n + 3).toNat = 0x09 + 4 * n.val := by
  revert n
  decide

/-- A write of an LEDn register, whose value is a counter's high byte where the address is odd. -/
theorem onRegisterMap_led {dev r v : Byte} (hlo : 0x06 ≤ r.toNat) (hhi : r.toNat ≤ 0x45)
    (hv : r.toNat % 2 = 1 → v.toNat < 16) : onRegisterMap dev (.WR dev r v) :=
  ⟨rfl, .inr (.inr (.inr ⟨hlo, hhi, hv⟩))⟩

/-- A channel's writes go to its LEDn registers; the odd ones take the high bytes, whose bits 7:4 are 0 (R67). -/
theorem onRegisterMap_channelWrites (dev : Byte) (n : Fin 16) (t : Timing) :
    ∀ w ∈ channelWrites n t, onRegisterMap dev (.WR dev w.1 w.2) := by
  obtain ⟨h0, h1, h2, h3⟩ := ledBase_toNat n
  simp only [channelWrites, List.forall_mem_cons]
  exact ⟨onRegisterMap_led (by omega) (by omega) (by omega),
    onRegisterMap_led (by omega) (by omega) fun _ => highByte_lt _,
    onRegisterMap_led (by omega) (by omega) (by omega),
    onRegisterMap_led (by omega) (by omega) fun _ => highByte_lt _, List.forall_mem_nil _⟩

theorem Cmd.keeps_forEach_mem {R : State → State → Prop} (hR : IsFrame R) {c : α → Cmd Unit} {l : List α}
    (hc : ∀ a ∈ l, (c a).Keeps R) : (Cmd.forEach c l).Keeps R := by
  induction l with
  | nil => exact Cmd.keeps_pure hR ()
  | cons a l ih =>
    exact (hc a (by simp)).andThen hR fun _ => ih fun b hb => hc b (List.mem_cons_of_mem _ hb)

theorem staysOnMap_writeChannelTiming (n : Fin 16) (t : Timing) : (writeChannelTiming n t).Keeps StaysOnMap :=
  Cmd.keeps_forEach_mem staysOnMap_frame fun w hw =>
    staysOnMap_memWrite fun dev => onRegisterMap_channelWrites dev n t w hw

theorem staysOnMap_commandFrame : IsCommandFrame StaysOnMap where
  toIsFrame := staysOnMap_frame
  transportInit := staysOnMap_call fun _ => trivial
  reset := staysOnMap_call fun _ => trivial
  transportDeinit := staysOnMap_call fun _ => trivial
  sleep := staysOnMap_sleepSeq true
  wake := staysOnMap_wakeSeq
  frequency track _ := staysOnMap_prescaleSeq track _
  driver := staysOnMap_driverSeq
  timing := staysOnMap_writeChannelTiming
  setDsm _ _ := .of_same rfl rfl
  setFrequency _ _ _ := .of_same rfl rfl
  setChannel _ _ _ := .of_same rfl rfl
  setInitialized _ _ := .of_same rfl rfl

/-- Every call of an event of the map is addressed to the device, but for the general call's. -/
theorem transportCall_addressed {dev : Byte} {e : Event} (h : onRegisterMap dev e) :
    (∀ d bytes, transportCall e = some (.write d bytes) → e = .GC ∨ d = dev) ∧
    (∀ d bytes n, transportCall e = some (.writeRead d bytes n) → d = dev) := by
  cases e with
  | TI => exact ⟨nofun, nofun⟩
  | TD => exact ⟨nofun, nofun⟩
  | GC => exact ⟨fun _ _ _ => .inl rfl, nofun⟩
  | DLY us => exact ⟨nofun, nofun⟩
  | RD d r =>
    obtain ⟨rfl, _⟩ := h
    exact ⟨nofun, fun _ _ _ hc => by cases hc; rfl⟩
  | WR d r v =>
    obtain ⟨rfl, _⟩ := h
    exact ⟨fun _ _ hc => by cases hc; exact .inr rfl, nofun⟩

/-- Settles O60: staying on the map is a frame of every command, and the calls are read off the events. -/
theorem transactionsStayOnTheRegisterMap : Obligations.TransactionsStayOnTheRegisterMap := by
  refine ⟨fun s t h => ?_, rfl, rfl, rfl, fun _ _ => rfl, fun _ _ _ => rfl, fun _ => rfl⟩
  obtain ⟨_, es, hes, hm⟩ := step_keeps staysOnMap_commandFrame (fun _ _ => .of_same rfl rfl)
    (fun _ _ _ => .of_same rfl rfl) (fun _ _ => .of_same rfl rfl) h
  exact ⟨es, hes, fun e he => ⟨hm e he, transportCall_addressed (hm e he)⟩⟩

/-! ## How many transactions a part of a command makes (R59 to R61, R217) -/

/-- Between the two states the events `es` have completed, `k` of them drawing an answer, and no response was given. -/
structure Completed (s t : State) (es : List Entry) (k : Nat) : Prop where
  trace : t.trace = s.trace ++ es
  events : ∀ e ∈ es, succeeded e
  pc : t.pc = s.pc.map (· + es.length)
  answers : t.answers = s.answers.drop k
  draws : t.draws = s.draws + k
  status : t.status = s.status
  result : t.result = s.result
  response : t.response = s.response

/-- An assignment of a command makes no event: it writes `cfg`, `dsm_state` or the Channel Store. -/
theorem Completed.of_assignment {s t : State}
    (h : t = { s with cfg := t.cfg, dsmState := t.dsmState, channels := t.channels }) : Completed s t [] 0 := by
  rw [h]
  exact ⟨by simp, by simp, by simp, by simp, rfl, rfl, rfl, rfl⟩

theorem Completed.refl (s : State) : Completed s s [] 0 := .of_assignment rfl

theorem Completed.trans {s t u : State} {es fs : List Entry} {j k : Nat} (h : Completed s t es j)
    (h' : Completed t u fs k) : Completed s u (es ++ fs) (j + k) where
  trace := by rw [h'.trace, h.trace, List.append_assoc]
  events e he := (List.mem_append.1 he).elim (h.events e) (h'.events e)
  pc := by
    rw [h'.pc, h.pc, Option.map_map, List.length_append]
    congr 1
    funext p
    exact Nat.add_assoc _ _ _
  answers := by rw [h'.answers, h.answers, List.drop_drop]
  draws := by rw [h'.draws, h.draws, Nat.add_assoc]
  status := h'.status.trans h.status
  result := h'.result.trans h.result
  response := h'.response.trans h.response

theorem completed_after (s : State) {es : List Entry} (k : Nat) (h : ∀ e ∈ es, succeeded e) :
    Completed s (s.after es k) es k := ⟨rfl, h, rfl, rfl, rfl, rfl, rfl, rfl⟩

/-- The answers still to come after `k` more draws. -/
theorem Completed.upcoming {s t : State} {es : List Entry} {k : Nat} (h : Completed s t es k) (m : Nat) :
    t.upcoming m = s.upcoming (k + m) := upcoming_of_fields h.answers h.draws m

/-- A run of steps from `s` that makes at most `n` transactions: where it completes, all its events did; where it hangs,
one of the `n` is never answered, all events before that one completed and nothing came after it. -/
def Flow.Spends (n : Nat) (s : State) : Flow α → Prop
  | .done _ t => ∃ es, ∃ k ≤ n, Completed s t es k
  | .raise _ _ => True
  | .hang t => ∃ u e es, ∃ k < n, Completed s u es k ∧ s.upcoming k = .hang ∧ t = u.stopped ⟨e, .unanswered⟩

/-- The steps `c` make at most `n` transactions. -/
def Cmd.Spends (n : Nat) (c : Cmd α) : Prop := ∀ s, (c s).Spends n s

theorem Flow.Spends.mono {m n : Nat} {s : State} {o : Flow α} (h : o.Spends m s) (hmn : m ≤ n) : o.Spends n s := by
  cases o with
  | done a t =>
    obtain ⟨es, k, hk, ht⟩ := h
    exact ⟨es, k, hk.trans hmn, ht⟩
  | raise e t => trivial
  | hang t =>
    obtain ⟨u, e, es, k, hk, hu⟩ := h
    exact ⟨u, e, es, k, hk.trans_le hmn, hu⟩

theorem Cmd.Spends.mono {m n : Nat} {c : Cmd α} (h : c.Spends m) (hmn : m ≤ n) : c.Spends n := fun s => (h s).mono hmn

/-- The transactions of a later run count from those already made. -/
theorem Completed.spends {m n k : Nat} {s t : State} {es : List Entry} {o : Flow α} (h : Completed s t es k)
    (hk : k ≤ n) (ho : o.Spends m t) : o.Spends (n + m) s := by
  cases o with
  | done a u =>
    obtain ⟨fs, j, hj, hu⟩ := ho
    exact ⟨es ++ fs, k + j, Nat.add_le_add hk hj, h.trans hu⟩
  | raise e u => trivial
  | hang u =>
    obtain ⟨v, e, fs, j, hj, hv, hang, rfl⟩ := ho
    exact ⟨v, e, es ++ fs, k + j, Nat.add_lt_add_of_le_of_lt hk hj, h.trans hv, h.upcoming j ▸ hang, rfl⟩

theorem Cmd.Spends.andThen {m n : Nat} {c : Cmd α} {f : α → Cmd β} (hc : c.Spends n) (hf : ∀ a, (f a).Spends m) :
    (c.andThen f).Spends (n + m) := fun s => by
  have hs := hc s
  rcases Cmd.andThen_cases c f s with ⟨a, t, h, h'⟩ | ⟨e, t, h, h'⟩ | ⟨t, h, h'⟩ <;> rw [h'] <;> rw [h] at hs
  · obtain ⟨es, k, hk, ht⟩ := hs
    exact ht.spends hk (hf a t)
  · trivial
  · exact Flow.Spends.mono (o := .hang t) hs (Nat.le_add_right n m)

/-- A check adds no transaction. -/
theorem Cmd.Spends.check_andThen {n : Nat} {c : Cmd α} {f : α → Cmd β} (hc : c.Spends 0) (hf : ∀ a, (f a).Spends n) :
    (c.andThen f).Spends n := Nat.zero_add n ▸ hc.andThen hf

theorem Cmd.spends_pure (a : α) : (Cmd.pure a).Spends 0 := fun s => ⟨[], 0, Nat.le_refl 0, .refl s⟩

theorem Cmd.spends_raise (e : Status) : (Cmd.raise e : Cmd α).Spends 0 := fun _ => trivial

theorem Cmd.spends_update {f : State → State} (h : ∀ s, Completed s (f s) [] 0) : (Cmd.update f).Spends 0 :=
  fun s => ⟨[], 0, Nat.le_refl 0, h s⟩

theorem Cmd.Spends.noResult {n : Nat} {c : Cmd Unit} (hc : c.Spends n) : c.noResult.Spends n :=
  hc.andThen fun _ => Cmd.spends_pure none

theorem Cmd.Spends.forEach {n : Nat} {c : α → Cmd Unit} (hc : ∀ a, (c a).Spends n) (l : List α) :
    (Cmd.forEach c l).Spends (n * l.length) := by
  induction l with
  | nil => exact Cmd.spends_pure ()
  | cons a l ih =>
    rw [List.length_cons, Nat.mul_succ, Nat.add_comm]
    exact (hc a).andThen fun _ => ih

theorem Cmd.Spends.onRaise {n : Nat} {c : Cmd α} (hc : c.Spends n) (f : State → State) :
    (c.onRaise f).Spends n := fun s => by
  have hs := hc s
  cases h : c s with
  | done a t => rw [Cmd.onRaise_done h]; exact h ▸ hs
  | raise e t => rw [Cmd.onRaise_raise h]; trivial
  | hang t => rw [Cmd.onRaise_hang h]; exact h ▸ hs

theorem Cmd.Spends.atEnd {n : Nat} {c : Cmd α} {f : State → State} (hc : c.Spends n)
    (hf : ∀ s, Completed s (f s) [] 0) : (c.atEnd f).Spends n := fun s => by
  have hs := hc s
  cases h : c s with
  | done a t =>
    rw [h] at hs
    obtain ⟨es, k, hk, ht⟩ := hs
    rw [Cmd.atEnd_done h]
    exact ⟨_, k, hk, ht.trans (hf t)⟩
  | raise e t => rw [Cmd.atEnd_raise h]; trivial
  | hang t => rw [Cmd.atEnd_hang h]; exact h ▸ hs

theorem spends_require (b : Bool) (e : Status) : (require b e).Spends 0 := fun s => by
  rcases require_cases b e s with ⟨_, h⟩ | ⟨_, h⟩ <;> rw [h]
  · exact Cmd.spends_pure () s
  · trivial

theorem spends_checkInit : checkInit.Spends 0 := fun s => spends_require _ _ s

theorem spends_checkChannel (c : Byte) : (checkChannel c).Spends 0 := fun s => by
  unfold checkChannel
  split
  · exact Cmd.spends_pure _ s
  · trivial

/-! ### The bus -/

theorem succeeded_okReply (e : Event) (b : Byte) : succeeded ⟨e, okReply e b⟩ := by
  cases e <;> exact ⟨nofun, nofun⟩

theorem spends_transact (e : Event) : (transact e).Spends 1 := fun s => by
  rcases transact_cases e s with ⟨_, b, _, h⟩ | ⟨_, _, h⟩ | ⟨_, hu, h⟩ | ⟨_, h⟩ <;> rw [h]
  · exact ⟨_, 1, Nat.le_refl 1, completed_after s 1 (by simpa using succeeded_okReply e b)⟩
  · trivial
  · exact ⟨s, e, [], 0, Nat.one_pos, .refl s, hu, rfl⟩
  · trivial

theorem spends_memRead (reg : Byte) : (memRead reg).Spends 1 := fun s => spends_transact _ s

theorem spends_memWrite (reg v : Byte) : (memWrite reg v).Spends 1 := fun s =>
  (spends_transact _).andThen (fun _ => Cmd.spends_pure ()) s

theorem spends_generalCallReset : generalCallReset.Spends 1 := (spends_transact _).andThen fun _ => Cmd.spends_pure ()

theorem spends_busInit : busInit.Spends 1 := (spends_transact _).andThen fun _ => Cmd.spends_pure ()

theorem spends_busDeinit : busDeinit.Spends 1 := (spends_transact _).andThen fun _ => Cmd.spends_pure ()

theorem spends_delay : (delay settleUs).Spends 0 := fun s => by
  rw [delay_apply]
  exact ⟨_, 0, Nat.le_refl 0, completed_after s 0 (by simp [succeeded, settle])⟩

theorem spends_modifyMode (reg set clear : Byte) : (modifyMode reg set clear).Spends 2 :=
  (spends_memRead _).andThen fun _ => spends_memWrite _ _

theorem completed_setDsm (s : State) (d : DsmState) : Completed s (s.setDsm d) [] 0 := .of_assignment rfl

theorem spends_noteDsm (track : Bool) (d : DsmState) : (noteDsm track d).Spends 0 :=
  Cmd.spends_update fun s => by
    cases track
    · exact .refl s
    · exact completed_setDsm s d

theorem spends_sleepSeq (track : Bool) : (sleepSeq track).Spends 2 := fun s =>
  (spends_modifyMode _ _ _).andThen (fun _ => spends_noteDsm _ _) s

theorem spends_wakeSeq (track : Bool) : (wakeSeq track).Spends 2 := fun s =>
  (spends_modifyMode _ _ _).andThen (fun _ => (spends_noteDsm _ _).andThen fun _ => spends_delay) s

theorem spends_prescaleSeq (track : Bool) (p : Byte) : (prescaleSeq track p).Spends 5 :=
  (spends_sleepSeq track).andThen fun _ => (spends_memWrite _ _).andThen fun _ => spends_wakeSeq track

theorem spends_driverSeq : driverSeq.Spends 2 := fun s => by
  unfold driverSeq
  cases s.params.outputDriverMode <;> exact spends_modifyMode _ _ _ s

theorem spends_writeChannelTiming (n : Fin 16) (t : Timing) : (writeChannelTiming n t).Spends 4 :=
  Cmd.Spends.forEach (n := 1) (fun w : Byte × Byte => spends_memWrite w.1 w.2) (channelWrites n t)

/-! ### The commands -/

theorem spends_bringUp (f : Nat) : (bringUp f).Spends 11 :=
  spends_busInit.andThen fun _ => spends_generalCallReset.andThen fun _ =>
    (spends_prescaleSeq _ _).andThen fun _ => spends_driverSeq.andThen fun _ =>
    (spends_wakeSeq _).andThen fun _ => Cmd.spends_update fun _ => .of_assignment rfl

theorem spends_initializeSteps : initializeSteps.Spends 11 := fun s => by
  unfold initializeSteps
  split
  · exact (Cmd.spends_pure ()).mono (Nat.zero_le 11) s
  · split
    · exact Nat.zero_add 11 ▸
        (completed_setDsm s .resetting).spends (Nat.le_refl 0) ((spends_bringUp _).onRaise _ _)
    · trivial

theorem spends_changeFrequency (f : Word) : (changeFrequency f).Spends 5 :=
  (spends_prescaleSeq _ _).andThen fun _ => Cmd.spends_update fun _ => .of_assignment rfl

theorem spends_stopChannel (n : Fin 16) : (stopChannel n).Spends 4 :=
  (spends_writeChannelTiming _ _).andThen fun _ => Cmd.spends_update fun _ => .of_assignment rfl

theorem spends_startChannel (n : Fin 16) : (startChannel n).Spends 4 := fun s =>
  (spends_writeChannelTiming _ _).andThen (fun _ => Cmd.spends_update fun _ => .of_assignment rfl) s

theorem spends_applyDuty (n : Fin 16) (w : Word) : (applyDuty n w).Spends 4 := fun s =>
  (spends_writeChannelTiming _ _).andThen (fun _ => Cmd.spends_update fun _ => .of_assignment rfl) s

theorem spends_deinitializeSteps : deinitializeSteps.Spends 67 :=
  (Cmd.Spends.forEach spends_stopChannel allChannels).andThen fun _ => (spends_sleepSeq true).andThen fun _ =>
    spends_busDeinit.andThen fun _ => Cmd.spends_update fun _ => .of_assignment rfl

theorem spends_destroySteps : destroySteps.Spends 67 := fun s => by
  unfold destroySteps
  split
  · exact spends_deinitializeSteps.atEnd (completed_setDsm · _) s
  · exact ((Cmd.spends_pure ()).mono (Nat.zero_le 67)).atEnd (completed_setDsm · _) s

theorem spends_setDutyCycleSteps (c : Byte) (w : Word) : (setDutyCycleSteps c w).Spends 4 :=
  spends_checkInit.check_andThen fun _ => (spends_checkChannel c).check_andThen fun n =>
    (spends_require _ _).check_andThen fun _ => spends_applyDuty n w

theorem spends_startSteps (c : Byte) : (startSteps c).Spends 4 :=
  spends_checkInit.check_andThen fun _ => (spends_checkChannel c).check_andThen fun n => spends_startChannel n

theorem spends_stopSteps (c : Byte) : (stopSteps c).Spends 4 :=
  spends_checkInit.check_andThen fun _ => (spends_checkChannel c).check_andThen fun n => spends_stopChannel n

theorem spends_configureChannelSteps (c : Byte) (f w : Word) : (configureChannelSteps c f w).Spends 9 :=
  spends_checkInit.check_andThen fun _ => (spends_checkChannel c).check_andThen fun n =>
    (spends_require _ _).check_andThen fun _ => (spends_require _ _).check_andThen fun _ =>
    (spends_changeFrequency f).andThen fun _ => spends_applyDuty n w

theorem spends_batch {n : Nat} {op : α → Cmd Unit} (hop : ∀ a, (op a).Spends n) (l : List α) :
    (batch op l).Spends (n * l.length) :=
  spends_checkInit.check_andThen fun _ => (spends_require _ _).check_andThen fun _ => Cmd.Spends.forEach hop l

/-- Every command makes at most the transactions of its trace. -/
theorem spends_stepsOf (i : Instr) : (stepsOf i).Spends (transactionsOf i) := by
  cases i with
  | computePrescale f => exact (spends_require _ _).andThen fun _ => Cmd.spends_pure _
  | computeTiming w => exact fun s => (spends_require _ _).andThen (fun _ => Cmd.spends_pure _) s
  | initializeDevice => exact spends_initializeSteps.noResult
  | setFrequency f =>
    exact (spends_checkInit.check_andThen fun _ => (spends_require _ _).check_andThen fun _ =>
      spends_changeFrequency f).noResult
  | sleep => exact (spends_checkInit.check_andThen fun _ => spends_sleepSeq true).noResult
  | wakeup => exact (spends_checkInit.check_andThen fun _ => spends_wakeSeq true).noResult
  | deinitialize => exact (spends_checkInit.check_andThen fun _ => spends_deinitializeSteps).noResult
  | destroy => exact spends_destroySteps.noResult
  | setDutyCycle c w => exact (spends_setDutyCycleSteps c w).noResult
  | start c => exact (spends_startSteps c).noResult
  | stop c => exact (spends_stopSteps c).noResult
  | configureChannel c f w => exact (spends_configureChannelSteps c f w).noResult
  | startMultiple chs => exact (spends_batch spends_startSteps chs).noResult
  | stopMultiple chs => exact (spends_batch spends_stopSteps chs).noResult
  | setDutyCycleMultiple es => exact (spends_batch (fun e => spends_setDutyCycleSteps e.1 e.2) es).noResult
  | setPhase c | configureFade c | startFade c | configureComplementary c | setDeadTime c | registerCallback c =>
    exact Cmd.spends_raise _

/-- Whichever command faults, one of the transactions it may make is never answered: its event is the last, those before
it completed, and no response was given. -/
theorem exec_fault {i : Instr} {s : State} {r : Fault} (h : exec i s = .fault r) :
    ∃ u e es, ∃ k < transactionsOf i, Completed (s.setPc (some 1)) u es k ∧ s.upcoming k = .hang ∧
      r = .transportHang (u.stopped ⟨e, .unanswered⟩) := by
  have hs := spends_stepsOf i (s.setPc (some 1))
  rcases exec_cases i s with ⟨_, h'⟩ | ⟨_, _, _, _, h'⟩ | ⟨_, _, _, _, h'⟩ | ⟨_, t, ht, h'⟩ <;> rw [h'] at h
  · cases h
  · cases h
  · cases h
  · cases h
    rw [ht] at hs
    obtain ⟨u, e, es, k, hk, hu, hang, rfl⟩ := hs
    exact ⟨u, e, es, k, hk, hu, hang, rfl⟩

/-- Settles O56: an alive device completes the command or faults, and a fault is a hang of one of its
transactions. -/
theorem everyCommandCompletesUnlessHung : Obligations.EveryCommandCompletesUnlessHung := by
  intro i s ha hno
  rcases exec_cases i s with ⟨hd, _⟩ | ⟨_, _, _, _, h⟩ | ⟨_, _, _, _, h⟩ | ⟨_, _, _, h⟩
  · exact absurd hd ha
  · exact ⟨_, h⟩
  · exact ⟨_, h⟩
  · obtain ⟨_, _, _, k, hk, _, hang, _⟩ := exec_fault h
    exact absurd hang (hno k hk)

/-! ## Where a hang leaves each command (R61, R248) -/

theorem ready.alive {s : State} (h : ready s) : alive s := h.1

theorem ready.initialized {s : State} (h : ready s) : s.cfg.initialized = true := h.2.1

theorem ready.transport {s : State} (h : ready s) : s.cfg.transportPresent = true := h.2.2

/-- A command's first step begins with the device and the answers as they were. -/
theorem ready.begun {s : State} (h : ready s) : ready (s.setPc (some 1)) := h

theorem hangsAfter.begun {s : State} {n : Nat} (h : hangsAfter s n) : stopsAfter .hang (s.setPc (some 1)) n := h

/-- A command whose steps, from its first on, hang. -/
theorem exec_hang {i : Instr} {c : Cmd Unit} {s t : State} (ha : alive s) (hi : stepsOf i = c.noResult)
    (h : c (s.setPc (some 1)) = .hang t) : exec i s = .fault (.transportHang t) := by
  rw [exec_eq_runCommand, hi]
  exact runCommand_hang ha (Cmd.noResult_hang h)

/-- The same of a command that begins with `CheckInit`. -/
theorem exec_hang_ready {i : Instr} {c : Cmd Unit} {s t : State} (hr : ready s)
    (hi : stepsOf i = (checkInit.andThen fun _ => c).noResult) (h : c (s.setPc (some 1)) = .hang t) :
    exec i s = .fault (.transportHang t) :=
  exec_hang hr.alive hi (checkInit_andThen hr.begun.initialized h)

/-! ### Commands whose checks pass -/

theorem startSteps_run {s : State} (hi : s.cfg.initialized = true) (n : Fin 16) :
    startSteps (BitVec.ofNat 8 n.val) s = startChannel n s := by
  rw [startSteps, Cmd.andThen_done (checkInit_ok hi), Cmd.andThen_done (checkChannel_ofNat n s)]

theorem stopSteps_run {s : State} (hi : s.cfg.initialized = true) (n : Fin 16) :
    stopSteps (BitVec.ofNat 8 n.val) s = stopChannel n s := by
  rw [stopSteps, Cmd.andThen_done (checkInit_ok hi), Cmd.andThen_done (checkChannel_ofNat n s)]

theorem setDutyCycleSteps_run {s : State} (hi : s.cfg.initialized = true) (n : Fin 16) {w : Word}
    (hw : dutyInRange w = true) : setDutyCycleSteps (BitVec.ofNat 8 n.val) w s = applyDuty n w s := by
  rw [setDutyCycleSteps, Cmd.andThen_done (checkInit_ok hi), Cmd.andThen_done (checkChannel_ofNat n s),
    Cmd.andThen_done (checkDuty_ok hw s)]

theorem configureChannelSteps_run {s : State} (hi : s.cfg.initialized = true) (n : Fin 16) {f w : Word}
    (hf : frequencyInRange f = true) (hw : dutyInRange w = true) :
    configureChannelSteps (BitVec.ofNat 8 n.val) f w s = ((changeFrequency f).andThen fun _ => applyDuty n w) s := by
  rw [configureChannelSteps, Cmd.andThen_done (checkInit_ok hi), Cmd.andThen_done (checkChannel_ofNat n s),
    Cmd.andThen_done (checkFreq_ok hf s), Cmd.andThen_done (checkDuty_ok hw s)]

/-- CONFIGURE_CHANNEL stopped within its frequency change. -/
theorem configure_stop_frequency {s : State} (n : Fin 16) (f w : Word) {j : Nat} (hj : j < 5)
    (ht : s.cfg.transportPresent = true) (h : stopsAfter x s j) :
    ((changeFrequency f).andThen fun _ => applyDuty n w) s = x.flow
      ((s.cut x (prescaleEvents s.cfg.i2cAddress s.params.sleepMask (computePrescale f.toNat) (byteAt s 0)
        (byteAt s 3) ++ timingEvents s n (computeTiming s.params.dutyProductArith w)) j j).setDsm
          (if j < 2 then s.dsmState else .asleep)) := by
  have hlen : j < (prescaleEvents s.cfg.i2cAddress s.params.sleepMask (computePrescale f.toNat) (byteAt s 0)
      (byteAt s 3)).length := Nat.lt_succ_of_lt hj
  rw [Cmd.andThen_stop (changeFrequency_stop f hj ht h), State.cut_append_left _ _ _ hlen]

/-- CONFIGURE_CHANNEL stopped at a write of the channel: the frequency change is complete (R246). -/
theorem configure_stop_channel {s : State} (n : Fin 16) (f w : Word) {j : Nat} (hj : j < 4)
    (ht : s.cfg.transportPresent = true) (h : stopsAfter x s (5 + j)) :
    ((changeFrequency f).andThen fun _ => applyDuty n w) s = x.flow
      (((s.cut x (prescaleEvents s.cfg.i2cAddress s.params.sleepMask (computePrescale f.toNat) (byteAt s 0)
        (byteAt s 3) ++ timingEvents s n (computeTiming s.params.dutyProductArith w)) (6 + j) (5 + j)).setDsm
          .awake).setFrequency f (computePrescale f.toNat)) := by
  rw [Cmd.andThen_done (changeFrequency_ok f ht (h.1.mono (by omega)))]
  have hs := h.after (prescaleEvents s.cfg.i2cAddress s.params.sleepMask (computePrescale f.toNat) (byteAt s 0)
    (byteAt s 3)) (j := 5) (m := j) rfl
  rw [applyDuty_stop n w hj (by exact ht) (by exact hs), State.setFrequency_cut, State.setDsm_cut, State.after_cut]
  rfl

/-! ### Batches -/

theorem Cmd.forEach_map (c : α → Cmd Unit) (g : β → α) (l : List β) :
    Cmd.forEach c (l.map g) = Cmd.forEach (fun b => c (g b)) l := by
  induction l with
  | nil => rfl
  | cons b l ih => rw [List.map_cons, Cmd.forEach, Cmd.forEach, ih]

/-- Elements whose checks pass are the elements behind the checks. -/
theorem ElementSteps.of_run {op op' : α → Cmd Unit} {P : State → Prop} {ev : α → List Entry}
    {g : α → Vector ChannelRecord 16 → Vector ChannelRecord 16} {l : List α} (h : ElementSteps op P ev g l)
    (hrun : ∀ u a, a ∈ l → P u → op' a u = op a u) : ElementSteps op' P ev g l where
  len := h.len
  ok u a ha hu := hrun u a ha hu ▸ h.ok u a ha hu
  stop x u a j ha hu := hrun u a ha hu ▸ h.stop x u a j ha hu
  keeps := h.keeps

/-- A batch stopped at a transaction of its valid elements; whatever elements come after them (R185). -/
theorem batch_stop {op : α → Cmd Unit} {f : β → α} {P : State → Prop} {ev : β → List Entry}
    {g : β → Vector ChannelRecord 16 → Vector ChannelRecord 16} {l : List β} (rest : List α)
    (h : ElementSteps (fun b => op (f b)) P ev g l) {s : State} {j : Nat} (hi : s.cfg.initialized = true) (hs : P s)
    (hj : j < 4 * l.length) (hf : stopsAfter x s j) :
    batch op (l.map f ++ rest) s = x.flow ((s.cut x (l.flatMap ev) j j).withChannels (storeFold g (l.take (j / 4)))) := by
  have hne : (!(l.map f ++ rest).isEmpty) = true := by
    cases l with
    | nil => exact absurd hj (Nat.not_lt_zero j)
    | cons b l => rfl
  rw [batch, Cmd.andThen_done (checkInit_ok hi), hne, Cmd.andThen_done (require_true _ s), Cmd.forEach_append,
    Cmd.andThen_stop (by rw [Cmd.forEach_map]; exact forEach_stop h hs hj hf)]

theorem startStepsElements {s : State} (l : List (Fin 16)) (hr : ready s) :
    ElementSteps (fun n : Fin 16 => startSteps (BitVec.ofNat 8 n.val))
      (fun u => u.cfg = s.cfg ∧ ∀ n, (u.channel n).timing = (s.channel n).timing) (storedEvents s) (activeSet true) l :=
  (startElements s l hr.transport).of_run fun _ n _ hu => startSteps_run (hu.1 ▸ hr.initialized) n

theorem stopStepsElements {s : State} (l : List (Fin 16)) (hr : ready s) :
    ElementSteps (fun n : Fin 16 => stopSteps (BitVec.ofNat 8 n.val)) (fun u => u.cfg = s.cfg) (stopEvents s)
      (activeSet false) l :=
  (stopElements s l hr.transport).of_run fun _ n _ hu => stopSteps_run (hu ▸ hr.initialized) n

theorem setDutyCycleStepsElements {s : State} (l : List (Fin 16 × Word)) (hr : ready s)
    (hl : ∀ e ∈ l, dutyInRange e.2 = true) :
    ElementSteps (fun e : Fin 16 × Word => setDutyCycleSteps (BitVec.ofNat 8 e.1.val) e.2)
      (fun u => u.cfg = s.cfg ∧ u.params = s.params)
      (fun e => timingEvents s e.1 (computeTiming s.params.dutyProductArith e.2))
      (dutySet s.params.dutyProductArith) l :=
  (dutyElements s l hr.transport).of_run fun _ e he hu => setDutyCycleSteps_run (hu.1 ▸ hr.initialized) e.1 (hl e he)

/-! ### The stuck state of each command -/

theorem initializeDevice_hang {s : State} {j : Nat} (ha : alive s) (hi : s.cfg.initialized = false)
    (ht : s.cfg.transportPresent = true) (hj : j < 11) (h : hangsAfter s j) :
    exec .initializeDevice s = .fault (.transportHang
      ((hung s (bringUpEvents s (computePrescale s.params.defaultFrequencyHz.val)) (if j < 7 then j else j + 1)
        j).setDsm .resetting)) := by
  refine exec_hang ha rfl ?_
  have hstop := bringUp_stop (s := (s.setPc (some 1)).setDsm .resetting) (x := .hang)
    s.params.defaultFrequencyHz.val hj ht h
  rw [State.setDsm_cut, hung_cut] at hstop
  exact (initializeSteps_run (s := s.setPc (some 1)) hi ht).trans (Cmd.onRaise_hang hstop)

theorem setFrequency_hang {s : State} {f : Word} {j : Nat} (hr : ready s) (hf : frequencyInRange f = true)
    (hj : j < 5) (h : hangsAfter s j) :
    exec (.setFrequency f) s = .fault (.transportHang
      ((hung s (prescaleEvents s.cfg.i2cAddress s.params.sleepMask (computePrescale f.toNat) (byteAt s 0)
        (byteAt s 3)) j j).setDsm (if j < 2 then s.dsmState else .asleep))) := by
  refine exec_hang_ready hr rfl ?_
  rw [Cmd.andThen_done (checkFreq_ok hf _), changeFrequency_stop f hj hr.begun.transport h.begun,
    hung_cut]
  rfl

theorem sleep_hang {s : State} {j : Nat} (hr : ready s) (hj : j < 2) (h : hangsAfter s j) :
    exec .sleep s = .fault (.transportHang
      (hung s (sleepEvents s.cfg.i2cAddress s.params.sleepMask (byteAt s 0)) j j)) := by
  refine exec_hang_ready hr rfl ?_
  rw [sleepSeq_stop true hj hr.begun.transport h.begun, hung_cut]
  rfl

theorem wakeup_hang {s : State} {j : Nat} (hr : ready s) (hj : j < 2) (h : hangsAfter s j) :
    exec .wakeup s = .fault (.transportHang
      (hung s (wakeEvents s.cfg.i2cAddress s.params.sleepMask (byteAt s 0)) j j)) := by
  refine exec_hang_ready hr rfl ?_
  rw [wakeSeq_stop true hj hr.begun.transport h.begun, hung_cut]
  rfl

/-- DEINITIALIZE's steps, run from step 1 and hung: DEINITIALIZE and DESTROY stop alike. -/
theorem deinitializeSteps_hang {s : State} {j : Nat} (hr : ready s) (hj : j < 67) (h : hangsAfter s j) :
    deinitializeSteps (s.setPc (some 1)) = .hang
      { hung s (deinitializeEvents s) j j with
        dsmState := if j = 66 then .asleep else s.dsmState
        channels := withActive s (allChannels.filter fun n => n.val < j / 4) false } := by
  rw [deinitializeSteps_stop hj hr.begun.transport h.begun, hung_cut]
  rfl

theorem configureChannel_hang {s : State} (n : Fin 16) {f w : Word} {j : Nat} (hr : ready s)
    (hf : frequencyInRange f = true) (hw : dutyInRange w = true) (hj : j < 9) (h : hangsAfter s j) :
    exec (.configureChannel (BitVec.ofNat 8 n.val) f w) s = .fault (.transportHang
      { hung s
          (prescaleEvents s.cfg.i2cAddress s.params.sleepMask (computePrescale f.toNat) (byteAt s 0) (byteAt s 3) ++
            timingEvents s n (computeTiming s.params.dutyProductArith w)) (if j < 5 then j else j + 1) j with
        cfg := if j < 5 then s.cfg else withFrequency s f (computePrescale f.toNat)
        dsmState := if j < 2 then s.dsmState else if j < 5 then .asleep else .awake }) := by
  refine exec_hang hr.alive rfl ?_
  rw [configureChannelSteps_run hr.begun.initialized n hf hw]
  by_cases h5 : j < 5
  · rw [configure_stop_frequency n f w h5 hr.begun.transport h.begun, hung_cut]
    simp only [h5, if_true]
    rfl
  · obtain ⟨i, rfl⟩ : ∃ i, j = 5 + i := ⟨j - 5, by omega⟩
    rw [configure_stop_channel n f w (j := i) (by omega) hr.begun.transport h.begun, hung_cut]
    simp only [h5, show ¬ 5 + i < 2 by omega, show 5 + i + 1 = 6 + i by omega, if_false]
    rfl

theorem startMultiple_hang {s : State} (ns : List (Fin 16)) (rest : List Byte) {j : Nat} (hr : ready s)
    (hj : j < 4 * ns.length) (h : hangsAfter s j) :
    exec (.startMultiple ((ns.map fun n => BitVec.ofNat 8 n.val) ++ rest)) s = .fault (.transportHang
      { hung s (ns.flatMap (storedEvents s)) j j with channels := withActive s (ns.take (j / 4)) true }) := by
  refine exec_hang hr.alive rfl ?_
  rw [batch_stop rest (startStepsElements ns hr) hr.begun.initialized ⟨rfl, fun _ => rfl⟩ hj h.begun,
    hung_cut, ← storeFold_active]
  rfl

theorem stopMultiple_hang {s : State} (ns : List (Fin 16)) (rest : List Byte) {j : Nat} (hr : ready s)
    (hj : j < 4 * ns.length) (h : hangsAfter s j) :
    exec (.stopMultiple ((ns.map fun n => BitVec.ofNat 8 n.val) ++ rest)) s = .fault (.transportHang
      { hung s (ns.flatMap (stopEvents s)) j j with channels := withActive s (ns.take (j / 4)) false }) := by
  refine exec_hang hr.alive rfl ?_
  rw [batch_stop rest (stopStepsElements ns hr) hr.begun.initialized rfl hj h.begun, hung_cut,
    ← storeFold_active]
  rfl

theorem setDutyCycleMultiple_hang {s : State} {es : List (Fin 16 × Word)} (rest : List (Byte × Word)) {j : Nat}
    (hr : ready s) (hes : ∀ e ∈ es, dutyInRange e.2 = true) (hj : j < 4 * es.length) (h : hangsAfter s j) :
    exec (.setDutyCycleMultiple ((es.map fun e => (BitVec.ofNat 8 e.1.val, e.2)) ++ rest)) s = .fault (.transportHang
      { hung s (es.flatMap fun e => timingEvents s e.1 (computeTiming s.params.dutyProductArith e.2)) j j with
        channels := withDuties s (es.take (j / 4)) }) := by
  refine exec_hang hr.alive rfl ?_
  rw [batch_stop (op := fun e : Byte × Word => setDutyCycleSteps e.1 e.2) rest
    (setDutyCycleStepsElements es hr hes) hr.begun.initialized ⟨rfl, rfl⟩ hj h.begun, hung_cut, ← storeFold_duty]
  rfl

theorem setDutyCycle_hang {s : State} (n : Fin 16) {w : Word} {j : Nat} (hr : ready s) (hw : dutyInRange w = true)
    (hj : j < 4) (h : hangsAfter s j) :
    exec (.setDutyCycle (BitVec.ofNat 8 n.val) w) s = .fault (.transportHang
      (hung s (timingEvents s n (computeTiming s.params.dutyProductArith w)) j j)) := by
  refine exec_hang hr.alive rfl ?_
  rw [setDutyCycleSteps_run hr.begun.initialized n hw, applyDuty_stop n w hj hr.begun.transport h.begun,
    hung_cut]
  rfl

theorem start_hang {s : State} (n : Fin 16) {j : Nat} (hr : ready s) (hj : j < 4) (h : hangsAfter s j) :
    exec (.start (BitVec.ofNat 8 n.val)) s = .fault (.transportHang (hung s (storedEvents s n) j j)) := by
  refine exec_hang hr.alive rfl ?_
  rw [startSteps_run hr.begun.initialized n, startChannel_stop n hj hr.begun.transport h.begun, hung_cut]
  rfl

theorem stop_hang {s : State} (n : Fin 16) {j : Nat} (hr : ready s) (hj : j < 4) (h : hangsAfter s j) :
    exec (.stop (BitVec.ofNat 8 n.val)) s = .fault (.transportHang (hung s (stopEvents s n) j j)) := by
  refine exec_hang hr.alive rfl ?_
  rw [stopSteps_run hr.begun.initialized n, stopChannel_stop n hj hr.begun.transport h.begun, hung_cut]
  rfl

/-- Settles O55: what any fault is comes from `exec_fault`; the stuck states are those of each command. -/
theorem onlyAHungTransactionStops : Obligations.OnlyAHungTransactionStops := by
  refine ⟨fun i s r h => ?_, fun s j ha hi ht hj h => initializeDevice_hang ha hi ht hj h,
    fun s f j hr hlo hhi hj h => setFrequency_hang hr ((frequencyInRange_iff f).2 ⟨hlo, hhi⟩) hj h,
    fun s j hr hj h => ⟨sleep_hang hr hj h, wakeup_hang hr hj h⟩, fun s j hr hj h => ?_,
    fun s n w j hr hj h => ⟨fun hw => setDutyCycle_hang n hr hw hj h, start_hang n hr hj h, stop_hang n hr hj h⟩,
    fun s n f w j hr hlo hhi hw hj h => configureChannel_hang n hr ((frequencyInRange_iff f).2 ⟨hlo, hhi⟩) hw hj h,
    fun s ns rest j hr hj h => ⟨startMultiple_hang ns rest hr hj h, stopMultiple_hang ns rest hr hj h⟩,
    fun s es rest j hr hes hj h => setDutyCycleMultiple_hang rest hr hes hj h⟩
  · obtain ⟨u, e, es, _, _, hu, _, rfl⟩ := exec_fault h
    refine ⟨_, es, e, rfl, ?_, hu.events, ?_, hu.status, hu.result, hu.response⟩
    · exact congrArg (· ++ [_]) hu.trace
    · exact hu.pc.trans (congrArg some (Nat.add_comm _ _))
  · have hd := deinitializeSteps_hang hr hj h
    exact ⟨exec_hang_ready hr rfl hd,
      exec_hang hr.alive rfl ((destroySteps_run hr.begun.initialized).trans (Cmd.atEnd_hang hd))⟩

end Sys2Proof.Machine
end

section
/-! PROOFS of the statements of 30_encoding.md (sections 2 to 7). A command's words are its row's header and arguments
(`encode_row`), from which the row builds the command (`buildInstr_encode`); conversely what a row builds has exactly
the words it was built from (`encode_of_buildInstr`). An encoding that selects no command is one decoder fact and the
one step lemma `step_reject`. -/

namespace Sys2Proof

/-! ## The words of a command and its row (R91 to R95) -/

theorem opcField_toNat (w0 : Word) : (opcField w0).toNat = w0.toNat / 2 ^ 24 := by
  have := w0.isLt
  simp only [opcField, BitVec.extractLsb'_toNat, Nat.shiftRight_eq_div_pow]
  omega

theorem nField_toNat (w0 : Word) : (nField w0).toNat = w0.toNat / 2 ^ 8 % 2 ^ 8 := by
  simp only [nField, BitVec.extractLsb'_toNat, Nat.shiftRight_eq_div_pow]

/-- A header that a row of the table selects looks up that row. -/
theorem lookupRow_of_selects {r : OpRow} {w0 : Word} (hr : r ∈ opcodeTable) (hs : r.selects w0 = true) :
    lookupRow w0 = some r :=
  lookupRow_of_mem hr ((selects_iff r w0).1 hs).1

theorem lookupRow_none {w0 : Word} (h : ∀ r ∈ opcodeTable, opcField w0 ≠ r.code) : lookupRow w0 = none :=
  List.find?_eq_none.2 fun r hr hc => h r hr (beq_iff_eq.1 hc).symm

theorem headerRow (i : Instr) : Laws.HeaderRow.Statement i := by
  cases i with
  | computePrescale f => exact Laws.HeaderRow.computePrescale f
  | computeTiming d => exact Laws.HeaderRow.computeTiming d
  | initializeDevice => exact Laws.HeaderRow.initializeDevice
  | setFrequency f => exact Laws.HeaderRow.setFrequency f
  | sleep => exact Laws.HeaderRow.sleep
  | wakeup => exact Laws.HeaderRow.wakeup
  | deinitialize => exact Laws.HeaderRow.deinitialize
  | destroy => exact Laws.HeaderRow.destroy
  | setDutyCycle c d => exact Laws.HeaderRow.setDutyCycle c d
  | start c => exact Laws.HeaderRow.start c
  | stop c => exact Laws.HeaderRow.stop c
  | configureChannel c f d => exact Laws.HeaderRow.configureChannel c f d
  | startMultiple chs => exact Laws.HeaderRow.startMultiple chs
  | stopMultiple chs => exact Laws.HeaderRow.stopMultiple chs
  | setDutyCycleMultiple es => exact Laws.HeaderRow.setDutyCycleMultiple es
  | setPhase c => exact Laws.HeaderRow.setPhase c
  | configureFade c => exact Laws.HeaderRow.configureFade c
  | startFade c => exact Laws.HeaderRow.startFade c
  | configureComplementary c => exact Laws.HeaderRow.configureComplementary c
  | setDeadTime c => exact Laws.HeaderRow.setDeadTime c
  | registerCallback c => exact Laws.HeaderRow.registerCallback c

/-- The header of a well-formed command selects the row it looks up, and the arguments that follow are as many as that
row asks for. -/
theorem encode_row {i : Instr} (h : i.wellFormed = true) : ∃ (r : OpRow) (w0 : Word) (args : List Word),
    encode i = w0 :: args ∧ lookupRow w0 = some r ∧ r.selects w0 = true ∧ args.length = argWordsOf r w0 := by
  obtain ⟨r, w0, args, hr, he, _, hs, hl⟩ := headerRow i h
  exact ⟨r, w0, args, he, lookupRow_of_selects hr hs, hs, hl⟩

/-- The row of a command's header builds the command from its arguments. -/
theorem buildInstr_encode {i : Instr} {r : OpRow} {w0 : Word} {args : List Word} (he : encode i = w0 :: args)
    (hr : lookupRow w0 = some r) : buildInstr r.op w0 args = some i := by
  cases i <;>
  · obtain ⟨rfl, rfl⟩ := List.cons.inj he
    simp only [lookupRow, opcField_headerWord] at hr
    cases hr
    simp

/-! ## The words a command is built from (R93, R95) -/

/-- The opcodes of the table are distinct. -/
theorem findOp_of_mem {r : OpRow} (hr : r ∈ opcodeTable) : (opcodeTable.find? fun x => x.op == r.op) = some r := by
  have hall : ∀ r ∈ opcodeTable, (opcodeTable.find? fun x => x.op == r.op) = some r := by decide
  exact hall r hr

/-- A batch as long as the header's N says is one that fits N, and N is its length. -/
theorem countByte_of_eq {k : Nat} {n : Byte} (h : k = n.toNat) : k ≤ maxBatch ∧ countByte k = n :=
  ⟨h ▸ Nat.le_of_lt_succ n.isLt, by rw [h, countByte, BitVec.ofNat_toNat, BitVec.setWidth_eq]⟩

/-- Words that a row builds a command from are that command's words: where the row's format has no channel or no
element count, that field of the header is 0, as the encoder writes it. -/
theorem encode_of_buildInstr {r : OpRow} {w0 : Word} {args : List Word} {i : Instr} (hr : r ∈ opcodeTable)
    (hu : r.format.unusedClear w0) (hl : args.length = argWordsOf r w0) (h : buildInstr r.op w0 args = some i) :
    i.wellFormed = true ∧ encode i = headerWord r.code (chField w0) (nField w0) :: args := by
  have ho := findOp_of_mem hr
  obtain ⟨op, code, fmt⟩ := r
  cases op <;> cases ho
  case initializeDevice | sleep | wakeup | deinitialize | destroy =>
    obtain ⟨hc, hn⟩ := hu
    obtain rfl := List.length_eq_zero_iff.1 hl
    cases h
    exact ⟨rfl, by rw [hc, hn]; rfl⟩
  case computePrescale | computeTiming | setFrequency =>
    obtain ⟨hc, hn⟩ := hu
    obtain ⟨x, rfl⟩ := List.length_eq_one_iff.1 hl
    cases h
    exact ⟨rfl, by rw [hc, hn]; rfl⟩
  case start | stop | setPhase | configureFade | startFade | configureComplementary | setDeadTime
      | registerCallback =>
    have hn : nField w0 = 0 := hu
    obtain rfl := List.length_eq_zero_iff.1 hl
    cases h
    exact ⟨rfl, by rw [hn]; rfl⟩
  case setDutyCycle =>
    have hn : nField w0 = 0 := hu
    obtain ⟨d, rfl⟩ := List.length_eq_one_iff.1 hl
    cases h
    exact ⟨rfl, by rw [hn]; rfl⟩
  case configureChannel =>
    have hn : nField w0 = 0 := hu
    obtain ⟨f, d, rfl⟩ := List.length_eq_two.1 hl
    cases h
    exact ⟨rfl, by rw [hn]; rfl⟩
  case startMultiple | stopMultiple =>
    have hc : chField w0 = 0 := hu
    obtain ⟨chs, hb, rfl⟩ := Option.map_eq_some_iff.1 h
    obtain rfl := batchChannels_some hb
    obtain ⟨hfit, hn⟩ := countByte_of_eq ((List.length_map _).symm.trans hl)
    exact ⟨decide_eq_true hfit, by rw [hc, ← hn]; rfl⟩
  case setDutyCycleMultiple =>
    have hc : chField w0 = 0 := hu
    obtain ⟨es, hb, rfl⟩ := Option.map_eq_some_iff.1 h
    obtain rfl := batchPairs_some hb
    have hk : 2 * es.length = 2 * (nField w0).toNat := (pairWords_length es).symm.trans hl
    obtain ⟨hfit, hn⟩ := countByte_of_eq (Nat.eq_of_mul_eq_mul_left two_pos hk)
    exact ⟨decide_eq_true hfit, by rw [hc, ← hn]; rfl⟩

/-- The one field a batch format does not use is CH. -/
theorem unusedClear_batch {fmt : Format} (hf : fmt.isBatch = true) (code n : Byte) :
    fmt.unusedClear (headerWord code 0 n) := by
  cases fmt with
  | b | bd => exact chField_headerWord code 0 n
  | z | f | d | c | cd | cfd => cases hf

/-! ## What the decoder answers (R96, R98) -/

/-- A decoded command was built by the row that its header selects, from as many words as that row asks for. -/
theorem decode_command {ws rest : List Word} {i : Instr} (h : decode ws = .command i rest) :
    ∃ (r : OpRow) (w0 : Word) (args : List Word), ws = w0 :: (args ++ rest) ∧ lookupRow w0 = some r ∧
      r.selects w0 = true ∧ args.length = argWordsOf r w0 ∧ buildInstr r.op w0 args = some i := by
  cases ws with
  | nil => cases h
  | cons w0 ws =>
    cases hr : lookupRow w0 with
    | none => rw [decode, hr] at h; cases h
    | some r =>
      rw [decode_row hr] at h
      split at h
      · cases h
      · next hlen =>
        split at h
        · next hs =>
          split at h
          · next hb =>
            cases h
            exact ⟨r, w0, _, by rw [List.take_append_drop], hr, hs, by simpa using hlen, hb⟩
          · cases h
        · cases h

/-- A header with fewer words after it than its row asks for. -/
theorem decode_short {w0 : Word} {ws : List Word} {r : OpRow} (h : lookupRow w0 = some r)
    (hlen : ws.length < argWordsOf r w0) : decode (w0 :: ws) = .incomplete := by
  rw [decode_row h, if_pos hlen]

theorem decode_unassigned {w0 : Word} {ws : List Word} (h : lookupRow w0 = none) :
    decode (w0 :: ws) = .reject .unassignedOpcode ws := by
  rw [decode, h]

/-- A header with its row's OPC and a bit set that the row's mask asks to be 0. -/
theorem decode_badHeader {w0 : Word} {args rest : List Word} {r : OpRow} (h : lookupRow w0 = some r)
    (hlen : args.length = argWordsOf r w0) (hs : r.selects w0 = false) :
    decode (w0 :: (args ++ rest)) = .reject .reservedHeaderBits rest := by
  rw [decode_row h, ← hlen, if_neg (by simp), if_neg (by simp [hs]), List.drop_left]

/-! ## The round trip -/

/-- Settles O1: the header selects its row, which builds the command from the words it asks for. -/
theorem decodeOfEncodeIsTheCommand : Obligations.DecodeOfEncodeIsTheCommand := by
  intro i rest hi
  obtain ⟨r, w0, args, he, hr, hs, hl⟩ := encode_row hi
  rw [he]
  exact decode_selected hr hl hs (buildInstr_encode he hr)

/-- Settles O2: the row that decoded the words wrote them. -/
theorem decodedWordsAreTheEncoding : Obligations.DecodedWordsAreTheEncoding := by
  intro ws i rest h
  obtain ⟨r, w0, args, rfl, hr, hs, hl, hb⟩ := decode_command h
  obtain ⟨hop, hu, hrsv⟩ := (selects_iff r w0).1 hs
  obtain ⟨hi, he⟩ := encode_of_buildInstr (lookupRow_some hr).1 hu hl hb
  rw [← hop, headerWord_of_fields hrsv] at he
  exact ⟨hi, by rw [he]; rfl⟩

/-- Settles O3: both are the one row the header looks up. -/
theorem noHeaderSelectsTwoRows : Obligations.NoHeaderSelectsTwoRows := by
  intro w0 r r' hr hr' hs hs'
  exact Option.some.inj ((lookupRow_of_selects hr hs).symm.trans (lookupRow_of_selects hr' hs'))

/-- Settles O5: each line's words are those of its command. -/
theorem exampleWordsDecode : Obligations.ExampleWordsDecode := by
  have h (i : Instr) (hi : i.wellFormed = true) : decode (encode i ++ []) = .command i [] :=
    decodeOfEncodeIsTheCommand i [] hi
  exact ⟨h .initializeDevice rfl, h (.setFrequency 50) rfl, h (.computeTiming 0x3F000000) rfl, h (.start 3) rfl,
    h (.setDutyCycle 3 0x3E800000) rfl, h (.configureChannel 1 1000 0x3F400000) rfl, h (.startMultiple [0, 1, 99]) rfl,
    h (.setDutyCycleMultiple [(0, 0x3F000000)]) rfl⟩

end Sys2Proof

namespace Sys2Proof.Machine

/-! ## Streams that are not a command (R96, R98) -/

/-- With a serialised host a step is what the decoder makes of the stream. -/
theorem step_eq_runDecoded {s : State} (ho : s.hostOverlap = false) : step s = runDecoded (decode s.stream) s := by
  rw [step, fetchAndRun, if_neg (by simp [ho])]

/-- An encoding that selects no command is answered NotSupported, and only its words are gone. -/
theorem step_reject {s : State} {why : RejectReason} {rest : List Word} (ho : s.hostOverlap = false) (ha : alive s)
    (hd : decode s.stream = .reject why rest) : step s = .next (rejectedWith { s with stream := rest } 7) := by
  rw [step_eq_runDecoded ho, hd]
  exact runCommand_rejected (s := s.setStream rest) (e := .notSupported) ha rfl

theorem step_incomplete {s : State} (ho : s.hostOverlap = false) (hd : decode s.stream = .incomplete) :
    step s = .fault .awaitingWord := by
  rw [step_eq_runDecoded ho, hd]
  rfl

/-- Settles O4: cut before its header there is no word to read, and after it too few. -/
theorem truncatedCommandWaits : Obligations.TruncatedCommandWaits := by
  intro i s ws more hi he hmore hs ho
  have hd : decode ws = .incomplete := by
    cases ws with
    | nil => rfl
    | cons w0 args =>
      obtain ⟨r, _, _, he', hr, _, hl⟩ := encode_row hi
      obtain ⟨rfl, rfl⟩ := List.cons.inj (he'.symm.trans (he.trans List.cons_append))
      have := List.length_pos_iff.2 hmore
      exact decode_short hr (by rw [← hl, List.length_append]; omega)
  exact ⟨hd, step_incomplete ho (hs ▸ hd)⟩

/-- Settles O7: the 21 listed OPCs are those of the table, so the header has no row. -/
theorem unassignedOpcodeIsNotSupported : Obligations.UnassignedOpcodeIsNotSupported := by
  intro s w0 rest ho ha hs hop
  have hcodes : opcodeTable.map (·.code.toNat) = [0x01, 0x02, 0x10, 0x11, 0x12, 0x13, 0x14, 0x1F, 0x20, 0x21, 0x22,
    0x23, 0x30, 0x31, 0x32, 0x40, 0x41, 0x42, 0x43, 0x44, 0x45] := rfl
  have hrow : lookupRow w0 = none := lookupRow_none fun r hr hc => by
    rw [← hcodes, ← opcField_toNat, hc] at hop
    exact hop (List.mem_map_of_mem hr)
  exact step_reject ho ha (hs ▸ decode_unassigned hrow)

/-- Settles O8: the row is found by its OPC, and the length from N is read before the mask is looked at. -/
theorem reservedHeaderBitsAreNotSupported : Obligations.ReservedHeaderBitsAreNotSupported := by
  intro s r w0 args rest ho ha hr hop hsel hlen hs
  have hrow : lookupRow w0 = some r := lookupRow_of_mem hr (BitVec.eq_of_toNat_eq ((opcField_toNat w0).trans hop))
  rw [← nField_toNat] at hlen
  exact step_reject ho ha (hs ▸ decode_badHeader hrow hlen hsel)

/-- A batch header written by the encoder's scheme, with the argument words it asks for, from which no command can
be built. -/
theorem step_badElement {s : State} {r : OpRow} {n : Byte} {args rest : List Word} (ho : s.hostOverlap = false)
    (ha : alive s) (hr : r ∈ opcodeTable) (hf : r.format.isBatch = true)
    (hlen : args.length = r.format.argWords n.toNat) (hb : buildInstr r.op (headerWord r.code 0 n) args = none)
    (hs : s.stream = headerWord r.code 0 n :: (args ++ rest)) :
    step s = .next (rejectedWith { s with stream := rest } 7) := by
  have hl : args.length = argWordsOf r (headerWord r.code 0 n) := by rw [argWordsOf_headerWord, if_pos hf, hlen]
  have hsel := selects_headerWord (unusedClear_batch hf r.code n)
  exact step_reject ho ha (hs ▸ decode_badElement (lookupRow_of_selects hr hsel) hl hsel hb)

theorem reserved_of_ge {w : Word} (h : 256 ≤ w.toNat) : chwReservedClear w = false := by
  rw [Bool.eq_false_iff, Ne, chwReservedClear_iff]
  omega

/-- Settles O9: the header is right and its words are all there, but a reserved bit in one of them leaves no command
to build. -/
theorem reservedElementBitsAreNotSupported : Obligations.ReservedElementBitsAreNotSupported := by
  refine ⟨fun s op n chws rest ho ha hop hlen ⟨w, hw, hbad⟩ hs => ?_,
    fun s n elems rest ho ha hlen ⟨e, he, hbad⟩ hs => ?_⟩
  · have hnone : batchChannels chws = none := batchChannels_none ⟨w, hw, reserved_of_ge hbad⟩
    rcases hop with rfl | rfl
    · exact step_badElement (r := ⟨.startMultiple, 0x30, .b⟩) ho ha (by decide) rfl hlen (by simp [hnone]) hs
    · exact step_badElement (r := ⟨.stopMultiple, 0x31, .b⟩) ho ha (by decide) rfl hlen (by simp [hnone]) hs
  · have hnone := batchPairs_none ⟨e, he, reserved_of_ge hbad⟩
    have hlen2 : (elems.flatMap fun e => [e.1, e.2]).length = 2 * n.toNat := by
      simp [List.length_flatMap, hlen, Nat.mul_comm]
    exact step_badElement (r := ⟨.setDutyCycleMultiple, 0x32, .bd⟩) ho ha (by decide) rfl hlen2 (by simp [hnone]) hs

end Sys2Proof.Machine
end

section
/-! PROOFS of the statements of 41_frequency_calculator.md. The integer rounding of the model is `RHA` of the formula's
rational value (`rawPrescale_eq_RHA`); monotonicity is that of the rational value, and a band is the interval that `RHA`
takes to one number (`RHA_eq_natCast_iff`). -/

namespace Sys2Proof.Machine

/-! ## The rounded value (R120) -/

/-- The value R120 rounds, over the rationals. -/
def prescaleQuotient (f : Nat) : ℚ := 25000000 / (4096 * f) - 1

theorem rawPrescale_eq_RHA {f : Nat} (hf : 1 ≤ f) : rawPrescale f = RHA (prescaleQuotient f) := by
  have hf0 : (f : ℚ) ≠ 0 := by positivity
  rw [rawPrescale, roundHalfAway_eq_RHA _ (by simp only [periodTicks]; omega)]
  congr 1
  simp only [prescaleQuotient, oscFreq, periodTicks]
  push_cast
  field_simp

/-- Settles O12: the byte is the clamped rounded value, and that is `RHA` of the quotient. -/
theorem prescaleIsTheRoundedFormula : Obligations.PrescaleIsTheRoundedFormula := by
  intro f hf
  rw [computePrescale_toNat, rawPrescale_eq_RHA hf, prescaleQuotient]

/-! ## Monotonicity and bands (R123) -/

theorem prescaleQuotient_anti {f g : Nat} (hf : 1 ≤ f) (hfg : f ≤ g) : prescaleQuotient g ≤ prescaleQuotient f := by
  unfold prescaleQuotient
  gcongr

theorem rawPrescale_anti {f g : Nat} (hf : 1 ≤ f) (hfg : f ≤ g) : rawPrescale g ≤ rawPrescale f := by
  rw [rawPrescale_eq_RHA hf, rawPrescale_eq_RHA (hf.trans hfg)]
  exact RHA_mono (prescaleQuotient_anti hf hfg)

/-- Settles O13: the clamp is monotone, and its bounds are those stated. -/
theorem prescaleIsNonincreasing : Obligations.PrescaleIsNonincreasing := by
  intro f g hf hfg
  have hraw := rawPrescale_anti hf hfg
  have hpf := computePrescale_toNat f
  have hpg := computePrescale_toNat g
  omega

/-- The numbers that round to a positive `p`. -/
theorem RHA_eq_natCast_iff {q : ℚ} {p : Nat} (hp : 1 ≤ p) :
    RHA q = p ↔ (p : ℚ) - 1 / 2 ≤ q ∧ q < p + 1 / 2 := by
  have hp' : (1 : ℚ) ≤ p := by exact_mod_cast hp
  unfold RHA
  split
  case isTrue h =>
    rw [Int.floor_eq_iff, Int.cast_natCast]
    constructor <;> rintro ⟨hlo, hhi⟩ <;> constructor <;> linarith
  case isFalse h =>
    have hneg : 0 ≤ ⌊-q + 1 / 2⌋ := Int.floor_nonneg.2 (by linarith)
    constructor
    · intro heq
      omega
    · rintro ⟨hlo, -⟩
      linarith

/-- The frequencies whose quotient lies in the interval that rounds to `p`. -/
theorem prescaleQuotient_band_iff {f p : Nat} (hf : 1 ≤ f) :
    (p : ℚ) - 1 / 2 ≤ prescaleQuotient f ∧ prescaleQuotient f < p + 1 / 2 ↔
      (25000000 / (4096 * (p + 3 / 2)) : ℚ) < f ∧ (f : ℚ) ≤ 25000000 / (4096 * (p + 1 / 2)) := by
  have hf0 : (0 : ℚ) < f := by positivity
  have lower : (p : ℚ) - 1 / 2 ≤ prescaleQuotient f ↔ (f : ℚ) ≤ 25000000 / (4096 * (p + 1 / 2)) := by
    rw [← div_div, le_div_comm₀ hf0 (by positivity), div_div, prescaleQuotient]
    constructor <;> intro h <;> linarith
  have upper : prescaleQuotient f < p + 1 / 2 ↔ (25000000 / (4096 * (p + 3 / 2)) : ℚ) < f := by
    rw [← div_div, div_lt_comm₀ (by positivity) hf0, div_div, prescaleQuotient]
    constructor <;> intro h <;> linarith
  rw [lower, upper, and_comm]

/-- Up to 1526 Hz the lower clamp changes nothing. -/
theorem three_le_rawPrescale {f : Nat} (hf : 1 ≤ f) (hmax : f ≤ 1526) : 3 ≤ rawPrescale f :=
  calc (3 : Int) = rawPrescale 1526 := by decide
    _ ≤ rawPrescale f := rawPrescale_anti hf hmax

/-- Settles O14: in the valid range neither clamp meets a p in [3, 253], so that the band is the set of frequencies
whose quotient rounds to p. -/
theorem prescaleFrequencyBands : Obligations.PrescaleFrequencyBands := by
  intro f p hmin hmax hp3 hp253
  have hf : 1 ≤ f := by omega
  have hclamp : (computePrescale f).toNat = p ↔ rawPrescale f = p := by
    have hbyte := computePrescale_toNat f
    have hlow := three_le_rawPrescale hf hmax
    omega
  rw [hclamp, rawPrescale_eq_RHA hf, RHA_eq_natCast_iff (by omega), prescaleQuotient_band_iff hf]

/-! ## COMPUTE_PRESCALE (R122, R97) -/

theorem computePrescaleSteps_done {f : Word} (hf : f ≠ 0) (s : State) :
    computePrescaleSteps f s = .done (some (prescaleResult (computePrescale f.toNat))) s := by
  rw [computePrescaleSteps, bne_iff_ne.2 hf, Cmd.andThen_done (require_true _ s)]
  rfl

theorem computePrescaleSteps_zero (s : State) : computePrescaleSteps 0 s = .raise .invalidFrequency s :=
  Cmd.andThen_raise (require_false _ s)

/-- Settles O15: the one check is f ≠ 0, and the response is written over an otherwise unchanged state. -/
theorem computePrescaleCommand : Obligations.ComputePrescaleCommand := by
  intro s f ha
  refine ⟨fun hf => ?_, fun hf => ?_⟩
  · exact runCommand_done ha (computePrescaleSteps_done hf _)
  · subst hf
    exact runCommand_rejected ha (computePrescaleSteps_zero _)

end Sys2Proof.Machine
end

section
/-! PROOFS of the statements of 42_timing_mapper.md. The three cases of the policy are those of the pattern's exact
value (`isZeroOrBelow_iff`, `isOneOrAbove_iff`). The two arithmetics differ where rounding to binary32 carries the
product up to a point halfway between two counts, and modulo 4095 no product but those of the listed patterns is that
near below one (`below_halfway`). -/

namespace Sys2Proof.Machine

/-! ## The three cases (R130) -/

theorem computeTiming_stop {w : Word} (arith : DutyProductArith) (h : isZeroOrBelow w = true) :
    computeTiming arith w = ⟨0, 4095⟩ := if_pos h

theorem computeTiming_full {w : Word} (arith : DutyProductArith) (h0 : ¬ isZeroOrBelow w = true)
    (h1 : isOneOrAbove w = true) : computeTiming arith w = ⟨4095, 0⟩ := (if_neg h0).trans (if_pos h1)

theorem computeTiming_between {w : Word} (arith : DutyProductArith) (h0 : ¬ isZeroOrBelow w = true)
    (h1 : ¬ isOneOrAbove w = true) : computeTiming arith w = ⟨0, BitVec.ofNat 16 (dutyCount arith w)⟩ :=
  (if_neg h0).trans (if_neg h1)

theorem val32_of_signBit {w : Word} (h : signBit w = true) : val32 w ≤ 0 := by
  have hm : (0 : ℚ) ≤ (magnitude w : ℚ) / 2 ^ 150 := by positivity
  rw [val32_eq, if_pos h]
  linarith

theorem val32_of_not_signBit {w : Word} (h : signBit w = false) : val32 w = (magnitude w : ℚ) / 2 ^ 150 := by
  rw [val32_eq, h, if_neg Bool.false_ne_true, one_mul]

theorem isZeroOrBelow_iff (w : Word) : isZeroOrBelow w = true ↔ val32 w ≤ 0 := by
  cases hs : signBit w
  case true => simp [isZeroOrBelow, hs, val32_of_signBit hs]
  case false => simp [isZeroOrBelow, hs, val32_of_not_signBit hs, div_nonpos_iff]

theorem isOneOrAbove_iff (w : Word) : isOneOrAbove w = true ↔ 1 ≤ val32 w := by
  cases hs : signBit w
  case true =>
    have hneg := val32_of_signBit hs
    simp only [isOneOrAbove, hs, Bool.not_true, Bool.false_and, Bool.false_eq_true, false_iff]
    linarith
  case false =>
    rw [val32_of_not_signBit hs, one_le_div (by positivity), isOneOrAbove, hs, Bool.not_false, Bool.true_and,
      decide_eq_true_iff, unitScale]
    exact_mod_cast Iff.rfl

/-! ## The exact product (R130) -/

@[simp] theorem RHA_natCast (n : Nat) : RHA n = n := by
  rw [RHA, if_pos (by positivity), Int.floor_eq_iff]
  constructor <;> push_cast <;> linarith

/-- Between 0 and 1 the rounded product is a 12-bit number. -/
theorem RHA_duty_bounds {d : ℚ} (h0 : 0 < d) (h1 : d < 1) : 0 ≤ RHA (d * 4095) ∧ RHA (d * 4095) ≤ 4095 := by
  have hlo := RHA_mono (x := ((0 : Nat) : ℚ)) (y := d * 4095) (by push_cast; linarith)
  have hhi := RHA_mono (x := d * 4095) (y := ((4095 : Nat) : ℚ)) (by push_cast; linarith)
  rw [RHA_natCast] at hlo hhi
  exact ⟨hlo, hhi⟩

/-- Under EXACT the count of a duty in (0, 1) is its rational product, rounded. -/
theorem dutyCount_exact {w : Word} (h0 : 0 < val32 w) (h1 : val32 w < 1) :
    (dutyCount .exact w : Int) = RHA (val32 w * 4095) := by
  have hs : signBit w = false := Bool.eq_false_iff.2 fun hs => (val32_of_signBit hs).not_gt h0
  have hq : ((magnitude w * counterMax : Nat) : ℚ) / unitScale = val32 w * 4095 := by
    rw [val32_of_not_signBit hs, counterMax, unitScale]
    push_cast
    ring
  have hr : roundHalfAway (dutyProduct .exact w) unitScale = RHA (val32 w * 4095) := by
    rw [roundHalfAway_eq_RHA _ (by decide), ← hq]
    rfl
  rw [dutyCount, hr, Int.toNat_of_nonneg (RHA_duty_bounds h0 h1).1]

/-- Settles O16: the model's tests are the comparisons with 0 and 1, and between them its count is the rounded
rational product. -/
theorem timingIsTheThreeCasePolicy : Obligations.TimingIsTheThreeCasePolicy := by
  refine ⟨fun w _ => ?_, fun w _ h0 h1 => RHA_duty_bounds h0 h1, fun arith => ⟨?_, ?_⟩⟩
  · split_ifs with h0 h1
    · exact computeTiming_stop _ ((isZeroOrBelow_iff w).2 h0)
    · exact computeTiming_full _ (h0 ∘ (isZeroOrBelow_iff w).1) ((isOneOrAbove_iff w).2 h1)
    · rw [computeTiming_between _ (h0 ∘ (isZeroOrBelow_iff w).1) (h1 ∘ (isOneOrAbove_iff w).1),
        ← dutyCount_exact (not_le.1 h0) (not_le.1 h1), BitVec.ofInt_natCast]
  · exact computeTiming_full arith (by decide) (by decide)
  · exact computeTiming_stop arith (by decide)

/-! ## Counts and the points halfway between them (R132) -/

/-- The point halfway between the counts n and n + 1, in units of 2^-150. -/
def halfway (n : Nat) : Nat := (2 * n + 1) * 2 ^ 149

/-- The count of a product is above n from the point halfway between n and n + 1 on. -/
theorem lt_roundHalfAway_iff (n p : Nat) : n < (roundHalfAway (p : Int) unitScale).toNat ↔ halfway n ≤ p := by
  rw [roundHalfAway_natCast, halfway, unitScale]
  omega

theorem log2_lt_of_lt_two_pow {p k : Nat} (hk : 0 < k) (hp : p < 2 ^ k) : p.log2 < k := by
  by_cases h0 : p = 0
  · subst h0
    exact hk
  · exact (Nat.log2_lt h0).2 hp

/-- A halfway point is a multiple of the unit that a product below 4095 is rounded to. -/
theorem unit_dvd_halfway {p : Nat} (hp : p < counterMax * unitScale) (n : Nat) :
    2 ^ max (p.log2 - 23) 1 ∣ halfway n := by
  have := log2_lt_of_lt_two_pow (k := 162) (by decide) (hp.trans (by decide))
  exact (Nat.pow_dvd_pow 2 (by omega)).trans (Nat.dvd_mul_left _ _)

/-- Rounding to binary32 takes no product below a multiple of its unit. -/
theorem le_roundToBinary32 {p t : Nat} (ht : 2 ^ max (p.log2 - 23) 1 ∣ t) (h : t ≤ p) :
    t ≤ roundToBinary32 p := by
  obtain ⟨c, rfl⟩ := ht
  have hc : c ≤ p / 2 ^ max (p.log2 - 23) 1 := (Nat.le_div_iff_mul_le (by positivity)).2 (by rwa [Nat.mul_comm])
  rw [Nat.mul_comm]
  rcases roundToBinary32_cases (p := p) rfl with hr | ⟨hr, -⟩ <;> rw [hr] <;> apply Nat.mul_le_mul_right <;> omega

/-- The unit is 2 on the products that need no more than 24 bits. -/
theorem roundToBinary32_small {p : Nat} (hp : p < 2 ^ 24) : roundToBinary32 p ≤ p + 1 := by
  have := log2_lt_of_lt_two_pow (by decide) hp
  rcases roundToBinary32_cases (p := p) (k := 1) (by omega) with hr | ⟨hr, hle⟩ <;> omega

/-- On the others rounding to binary32 goes up by at most 2^-24 of the product. -/
theorem roundToBinary32_sub_le {p : Nat} (hp : 2 ^ 24 ≤ p) : (roundToBinary32 p - p) * 2 ^ 24 ≤ p := by
  have h0 : p ≠ 0 := by omega
  have hlog : 24 ≤ p.log2 := (Nat.le_log2 h0).2 hp
  calc (roundToBinary32 p - p) * 2 ^ 24 ≤ 2 ^ (max (p.log2 - 23) 1 - 1) * 2 ^ 24 := by
        apply Nat.mul_le_mul_right
        rw [Nat.sub_le_iff_le_add']
        rcases roundToBinary32_cases (p := p) rfl with hr | ⟨hr, hle⟩ <;> rw [hr]
        · exact (Nat.div_mul_le_self _ _).trans (Nat.le_add_right _ _)
        · exact hle
    _ = 2 ^ p.log2 := by
        rw [← Nat.pow_add]
        congr 1
        omega
    _ ≤ p := Nat.log2_self_le h0

/-! ## The products that round onto a halfway point (R132) -/

/-- Nothing of the form 4095 M lies at most 2^-24 of itself below a multiple y 2^24: modulo 4095, where 2^24 is 1, the
distance D is y, and a distance y is too large. -/
theorem not_below_even {M y : Nat} (hM : M < 2 ^ 24) (hlt : 4095 * M < y * 2 ^ 24)
    (hle : (y * 2 ^ 24 - 4095 * M) * 2 ^ 24 ≤ 4095 * M) : False := by
  generalize hD : y * 2 ^ 24 - 4095 * M = D at hle
  have hD' : D < 4095 := by omega
  have hy : y < 4095 := by omega
  have hres : y % 4095 = D % 4095 := by omega
  rw [Nat.mod_eq_of_lt hy, Nat.mod_eq_of_lt hD'] at hres
  omega

/-- The products 4095 M at most 2^-24 of themselves below an odd multiple of 2^23: modulo 4095, where 2^23 is 2048, the
distance D is j + 2048, which is small only from j = 2048 on. -/
theorem below_odd {M j : Nat} (hM : M < 2 ^ 24) (hlt : 4095 * M < (2 * j + 1) * 2 ^ 23)
    (hle : ((2 * j + 1) * 2 ^ 23 - 4095 * M) * 2 ^ 24 ≤ 4095 * M) : ∃ k ≤ 2046, M = 0x801001 + k * 0x1001 := by
  generalize hD : (2 * j + 1) * 2 ^ 23 - 4095 * M = D at hle
  have hD' : D < 4095 := by omega
  have hj : j < 4095 := by omega
  have hres : (j + 2048) % 4095 = D % 4095 := by omega
  rw [Nat.mod_eq_of_lt hD'] at hres
  have hlo : 2047 ≤ j := by
    by_contra h
    rw [Nat.mod_eq_of_lt (by omega)] at hres
    omega
  rw [Nat.mod_eq_sub_mod (by omega), Nat.mod_eq_of_lt (by omega)] at hres
  refine ⟨j - 2048, ?_, ?_⟩ <;> omega

/-- A halfway point in units of 2^(E - 150). -/
theorem halfway_eq {E : Nat} (hE : E ≤ 126) (n : Nat) : halfway n = (2 * n + 1) * 2 ^ (126 - E) * 2 ^ 23 * 2 ^ E := by
  rw [halfway, Nat.mul_assoc _ (2 ^ 23), Nat.mul_assoc _ (2 ^ (126 - E)), ← Nat.pow_add, ← Nat.pow_add]
  congr 2
  omega

/-- A product 4095 M 2^E at most 2^-24 of itself below a halfway point is one of the 2047 of R132. -/
theorem below_halfway {M E n : Nat} (hM : M < 2 ^ 24) (hE : E ≤ 126) (hlt : 4095 * M * 2 ^ E < halfway n)
    (hle : (halfway n - 4095 * M * 2 ^ E) * 2 ^ 24 ≤ 4095 * M * 2 ^ E) :
    E = 126 ∧ ∃ k ≤ 2046, M = 0x801001 + k * 0x1001 := by
  rw [halfway_eq hE] at hlt hle
  replace hlt := Nat.lt_of_mul_lt_mul_right hlt
  rw [← Nat.sub_mul, Nat.mul_right_comm] at hle
  replace hle := Nat.le_of_mul_le_mul_right hle (by positivity)
  rcases Nat.lt_or_eq_of_le hE with hE' | rfl
  · have heven : (2 * n + 1) * 2 ^ (126 - E) * 2 ^ 23 = (2 * n + 1) * 2 ^ (125 - E) * 2 ^ 24 := by
      rw [Nat.mul_assoc, Nat.mul_assoc, ← Nat.pow_add, ← Nat.pow_add]
      congr 2
      omega
    rw [heven] at hlt hle
    exact (not_below_even hM hlt hle).elim
  · rw [Nat.sub_self, Nat.pow_zero, Nat.mul_one] at hlt hle
    exact ⟨rfl, below_odd hM hlt hle⟩

/-! ## The patterns of these products (R132) -/

theorem significand_lt (w : Word) : significand w < 2 ^ 24 := by
  rw [significand, fracField_eq]
  split <;> omega

/-- A magnitude below 1 has an exponent field of at most 126; a field of 0 scales as 1 does. -/
theorem scale_le_of_magnitude_lt {w : Word} (h : magnitude w < unitScale) : max (expField w) 1 ≤ 126 := by
  by_contra hE
  have hsig : 2 ^ 23 ≤ significand w := by
    rw [significand, if_neg (by omega)]
    omega
  have hpow : 2 ^ 127 ≤ 2 ^ max (expField w) 1 := Nat.pow_le_pow_right (by decide) (by omega)
  have hmul := Nat.mul_le_mul hsig hpow
  rw [← Nat.pow_add] at hmul
  exact absurd h (Nat.not_lt.2 hmul)

/-- A positive pattern of exponent field 126 is its significand, the fraction under the hidden bit, at that exponent. -/
theorem significand_eq_iff {w : Word} {M : Nat} (hM : 2 ^ 23 ≤ M ∧ M < 2 ^ 24) :
    w.toNat = 125 * 2 ^ 23 + M ↔ signBit w = false ∧ expField w = 126 ∧ significand w = M := by
  have hs := signBit_iff w
  rw [← Bool.not_eq_true, hs]
  constructor
  · intro h
    refine ⟨by omega, by rw [expField_eq]; omega, ?_⟩
    rw [significand, if_neg (by rw [expField_eq]; omega), fracField_eq]
    omega
  · rintro ⟨h0, he, hm⟩
    rw [significand, if_neg (by omega), fracField_eq] at hm
    rw [expField_eq] at he
    omega

theorem dutyProduct_exact (w : Word) :
    dutyProduct .exact w = 4095 * significand w * 2 ^ max (expField w) 1 := by
  rw [dutyProduct, magnitude, counterMax]
  ring

/-- A duty in (0, 1) whose product rounds up to or past a halfway point is one of the listed patterns. -/
theorem listed_of_roundToBinary32 {w : Word} {n : Nat} (h0 : ¬ isZeroOrBelow w = true) (h1 : ¬ isOneOrAbove w = true)
    (hlt : dutyProduct .exact w < halfway n) (hle : halfway n ≤ roundToBinary32 (dutyProduct .exact w)) :
    ∃ k ≤ 2046, w.toNat = 0x3F001001 + k * 0x1001 := by
  have hbig : 2 ^ 149 ≤ halfway n := Nat.le_mul_of_pos_left _ (Nat.succ_pos _)
  have hp : 2 ^ 24 ≤ dutyProduct .exact w := by
    by_contra h
    have := roundToBinary32_small (Nat.not_le.1 h)
    omega
  have hnear := (Nat.mul_le_mul_right _ (Nat.sub_le_sub_right hle _)).trans (roundToBinary32_sub_le hp)
  rw [dutyProduct_exact] at hlt hnear
  obtain ⟨hE, k, hk, hM⟩ := below_halfway (significand_lt w) (scale_le_of_magnitude_lt (magnitude_lt h0 h1)) hlt
    hnear
  have hsign : signBit w = false := by
    rw [isZeroOrBelow, Bool.or_eq_true, not_or] at h0
    exact Bool.eq_false_iff.2 h0.1
  refine ⟨k, hk, ?_⟩
  have hw := (significand_eq_iff (by omega)).2 ⟨hsign, by omega, hM⟩
  omega

/-- Rounding to binary32 moves no product of a duty in (0, 1) over a halfway point but those of the listed patterns. -/
theorem dutyCount_binary32 {w : Word} (h0 : ¬ isZeroOrBelow w = true) (h1 : ¬ isOneOrAbove w = true)
    (hw : ∀ k ≤ 2046, w.toNat ≠ 0x3F001001 + k * 0x1001) : dutyCount .binary32 w = dutyCount .exact w := by
  have hp : dutyProduct .exact w < counterMax * unitScale := by
    rw [Nat.mul_comm]
    exact Nat.mul_lt_mul_of_pos_right (magnitude_lt h0 h1) (by decide)
  apply Nat.le_antisymm
  · by_contra h
    have hle := (lt_roundHalfAway_iff _ _).1 (Nat.not_le.1 h)
    have hlt := mt (lt_roundHalfAway_iff _ _).2 (Nat.lt_irrefl (dutyCount .exact w))
    obtain ⟨k, hk, heq⟩ := listed_of_roundToBinary32 h0 h1 (Nat.not_le.1 hlt) hle
    exact hw k hk heq
  · refine le_of_forall_lt fun n hn => ?_
    exact (lt_roundHalfAway_iff _ _).2 (le_roundToBinary32 (unit_dvd_halfway hp n) ((lt_roundHalfAway_iff _ _).1 hn))

/-! ## The counts of the listed patterns (R132) -/

/-- A product less than half a unit below a multiple of its unit is rounded up to it. -/
theorem roundToBinary32_up {p k c d : Nat} (hk : max (p.log2 - 23) 1 = k) (hp : p + d = c * 2 ^ k) (hd : 0 < d)
    (hhalf : d < 2 ^ (k - 1)) : roundToBinary32 p = c * 2 ^ k := by
  have hunit : 2 ^ k = 2 * 2 ^ (k - 1) := by rw [← Nat.pow_succ']; congr 1; omega
  obtain ⟨q, rfl⟩ : ∃ q, c = q + 1 := Nat.exists_eq_succ_of_ne_zero (by rintro rfl; omega)
  have hsplit : p = 2 ^ k - d + 2 ^ k * q := by
    rw [Nat.add_mul, Nat.one_mul, Nat.mul_comm] at hp
    omega
  have hq : p / 2 ^ k = q := by
    rw [hsplit, Nat.add_mul_div_left _ _ (by positivity), Nat.div_eq_of_lt (by omega), Nat.zero_add]
  have hr : p % 2 ^ k = 2 ^ k - d := by
    rw [hsplit, Nat.add_mul_mod_self_left, Nat.mod_eq_of_lt (by omega)]
  have habove : 2 ^ (k - 1) < 2 ^ k - d := by omega
  simp only [roundToBinary32, hk, Nat.shiftRight_eq_div_pow, hq, hr, habove, true_or, if_true]

/-- The exact product of the listed pattern k is k + 1 units of 2^-24 below the point halfway between 2048 + k and
2049 + k. -/
theorem listed_product (k : Nat) :
    4095 * (0x801001 + k * 0x1001) * 2 ^ 126 + (k + 1) * 2 ^ 126 = halfway (2048 + k) := by
  rw [halfway]
  ring

/-- binary32 keeps multiples of 2^-12 of that size, so that the product is rounded onto the halfway point. -/
theorem roundToBinary32_listed {k p : Nat} (hk : k ≤ 2046) (hp : p + (k + 1) * 2 ^ 126 = halfway (2048 + k)) :
    roundToBinary32 p = halfway (2048 + k) := by
  have hunit : halfway (2048 + k) = (4097 + 2 * k) * 2 ^ 11 * 2 ^ 138 := by
    rw [halfway]
    ring
  have hlog : p.log2 = 161 := (Nat.log2_eq_iff (by omega)).2 (by omega)
  rw [hunit] at hp ⊢
  exact roundToBinary32_up (by rw [hlog]; rfl) hp (by omega) (by omega)

/-- The products with count n lie below the point halfway to n + 1, by at most 1. -/
theorem dutyCount_eq_of_halfway {arith : DutyProductArith} {w : Word} {n : Nat}
    (hlo : halfway n ≤ dutyProduct arith w + unitScale) (hhi : dutyProduct arith w < halfway n) :
    dutyCount arith w = n := by
  rw [halfway, unitScale] at hlo
  rw [halfway] at hhi
  rw [dutyCount, roundHalfAway_natCast, unitScale]
  omega

/-- In the third case the off counter holds the count. -/
theorem computeTiming_off_toNat {w : Word} (arith : DutyProductArith) (hs : signBit w = false)
    (h0 : magnitude w ≠ 0) (h1 : magnitude w < unitScale) :
    (computeTiming arith w).off.toNat = dutyCount arith w := by
  have hcount := dutyCount_le arith h1
  rw [computeTiming_between _ (by simp [isZeroOrBelow, hs, h0]) (by simp [isOneOrAbove, h1]), BitVec.toNat_ofNat]
  exact Nat.mod_eq_of_lt (by omega)

/-- The listed pattern k: a duty in (0, 1), whose counts are those of the halfway points its products lie between. -/
theorem computeTiming_listed {k : Nat} {w : Word} (hk : k ≤ 2046) (hw : w.toNat = 0x3F001001 + k * 0x1001) :
    (computeTiming .exact w).off.toNat = 2048 + k ∧ (computeTiming .binary32 w).off.toNat = 2049 + k := by
  obtain ⟨hs, he, hm⟩ := (significand_eq_iff (w := w) (M := 0x801001 + k * 0x1001) (by omega)).1 (by omega)
  have hmag : magnitude w = (0x801001 + k * 0x1001) * 2 ^ 126 := by rw [magnitude, he, hm]; rfl
  have hp : dutyProduct .exact w + (k + 1) * 2 ^ 126 = halfway (2048 + k) := by
    rw [← listed_product, dutyProduct_exact, he, hm]
    rfl
  have hround : dutyProduct .binary32 w = halfway (2048 + k) := roundToBinary32_listed hk hp
  have hoff (arith : DutyProductArith) := computeTiming_off_toNat arith hs (by omega) (by rw [unitScale]; omega)
  have hnext : halfway (2049 + k) = halfway (2048 + k) + unitScale := by
    rw [halfway, halfway, unitScale]
    ring
  rw [hoff, hoff]
  refine ⟨dutyCount_eq_of_halfway ?_ ?_, dutyCount_eq_of_halfway ?_ ?_⟩ <;> rw [unitScale] at * <;> omega

/-- Settles O19: the listed products are rounded onto halfway points, and no other is moved over one. -/
theorem binary32DiffersOnTheListedPatterns : Obligations.Binary32DiffersOnTheListedPatterns := by
  refine ⟨fun k hk => computeTiming_listed hk ?_, fun w _ hw => ?_⟩
  · rw [BitVec.toNat_ofNat]
    omega
  · by_cases h0 : isZeroOrBelow w = true
    · rw [computeTiming_stop _ h0, computeTiming_stop _ h0]
    · by_cases h1 : isOneOrAbove w = true
      · rw [computeTiming_full _ h0 h1, computeTiming_full _ h0 h1]
      · rw [computeTiming_between _ h0 h1, computeTiming_between _ h0 h1, dutyCount_binary32 h0 h1 hw]

/-! ## COMPUTE_TIMING (R137, R97, R133) -/

/-- RESULT holds off in its upper and on in its lower half. -/
theorem timingResult_toNat (t : Timing) : (timingResult t).toNat = t.off.toNat * 2 ^ 16 + t.on.toNat := by
  have hoff : (t.off.setWidth 32 <<< 16).toNat = t.off.toNat <<< 16 := by
    simp only [BitVec.toNat_shiftLeft, BitVec.toNat_setWidth, Nat.shiftLeft_eq]
    omega
  rw [timingResult, BitVec.toNat_or, hoff, BitVec.toNat_setWidth_of_le (by decide),
    ← Nat.shiftLeft_add_eq_or_of_lt t.on.isLt, Nat.shiftLeft_eq]

theorem computeTimingSteps_done {w : Word} (hw : isNaN w = false) (s : State) : computeTimingSteps w s =
    .done (some (timingResult (computeTiming s.params.dutyProductArith w))) s := by
  rw [computeTimingSteps, hw]
  exact Cmd.andThen_done (require_true _ s)

theorem computeTimingSteps_nan {w : Word} (hw : isNaN w = true) (s : State) :
    computeTimingSteps w s = .raise .invalidDutyCycle s := by
  rw [computeTimingSteps, hw]
  exact Cmd.andThen_raise (require_false _ s)

/-- Settles O20: the one check is that the pattern is not a NaN, and the response is written over an otherwise
unchanged state. -/
theorem computeTimingCommand : Obligations.ComputeTimingCommand := by
  intro s w ha
  obtain ⟨hon, hoff⟩ := timingIsTwelveBits s.params.dutyProductArith w
  refine ⟨fun hw => ⟨_, timingResult_toNat _, by omega, by omega, ?_⟩, fun hw => ?_⟩
  · exact runCommand_done ha (computeTimingSteps_done hw _)
  · exact runCommand_rejected ha (computeTimingSteps_nan hw _)

/-! ## The bytes of a timing pair (R136) -/

/-- The two bytes of a 12-bit counter give it back. -/
theorem lowByte_highByte {v : Half} (h : v.toNat ≤ 4095) :
    v.toNat = (lowByte v).toNat + 256 * (highByte v).toNat := by
  simp only [lowByte, highByte, BitVec.toNat_setWidth, BitVec.extractLsb'_toNat, Nat.shiftRight_eq_div_pow]
  omega

/-- Settles O21, for each of the two counters. -/
theorem encodedTimingGivesTheCountersBack : Obligations.EncodedTimingGivesTheCountersBack :=
  fun t hon hoff => ⟨lowByte t.on, highByte t.on, lowByte t.off, highByte t.off, rfl, lowByte_highByte hon,
    lowByte_highByte hoff, highByte_lt t.on, highByte_lt t.off⟩

end Sys2Proof.Machine
end

section
/-! PROOFS of the statements of 43_device_sequencer.md (sections 3 and 4). Each command is its steps, run from step 1,
with one response at their end (`exec_done`, `exec_raise`), and Laws/Commands says where the steps lead. DESTROY is read
off DEINITIALIZE (`destroy_of_deinitialize`), and a second INITIALIZE off the answers of the first
(`okFor_or_stopsAfter`). -/

namespace Sys2Proof.Machine

/-! ## How a command without RESULT ends (R214 to R217) -/

theorem failsAfter.begun {s : State} {n : Nat} (h : failsAfter s n) : stopsAfter .fail (s.setPc (some 1)) n := h

/-- A command whose steps, from its first on, complete. -/
theorem exec_done {i : Instr} {c : Cmd Unit} {s t : State} (ha : alive s) (hi : stepsOf i = c.noResult)
    (h : c (s.setPc (some 1)) = .done () t) : exec i s = .next (t.respond .success none) := by
  rw [exec_eq_runCommand, hi]
  exact runCommand_done ha (Cmd.noResult_done h)

/-- A command whose steps, from its first on, raise. -/
theorem exec_raise {i : Instr} {c : Cmd Unit} {s t : State} {e : Status} (ha : alive s)
    (hi : stepsOf i = c.noResult) (h : c (s.setPc (some 1)) = .raise e t) : exec i s = .next (t.respond e none) := by
  rw [exec_eq_runCommand, hi]
  exact runCommand_raise ha (Cmd.noResult_raise h)

/-- `exec_done` of a command that begins with `CheckInit`. -/
theorem exec_done_ready {i : Instr} {c : Cmd Unit} {s t : State} (hr : ready s)
    (hi : stepsOf i = (checkInit.andThen fun _ => c).noResult) (h : c (s.setPc (some 1)) = .done () t) :
    exec i s = .next (t.respond .success none) :=
  exec_done hr.alive hi (checkInit_andThen hr.begun.initialized h)

/-- A command that begins with `CheckInit` and has a transaction that FAILs. -/
theorem exec_fail_ready {i : Instr} {c : Cmd Unit} {s t : State} (hr : ready s)
    (hi : stepsOf i = (checkInit.andThen fun _ => c).noResult) (h : c (s.setPc (some 1)) = Stop.fail.flow t) :
    exec i s = .next (t.respond .hardwareError none) :=
  exec_raise hr.alive hi (checkInit_andThen hr.begun.initialized h)

/-- A command that completes has run its steps to their end or to an error. -/
theorem exec_next_noResult {i : Instr} {c : Cmd Unit} {s t : State} (hi : stepsOf i = c.noResult)
    (h : exec i s = .next t) : alive s ∧
      ((∃ u, c (s.setPc (some 1)) = .done () u ∧ t = u.respond .success none) ∨
        ∃ e u, c (s.setPc (some 1)) = .raise e u ∧ t = u.respond e none) := by
  have ha : alive s := (exec_next h).1
  refine ⟨ha, ?_⟩
  cases hc : c (s.setPc (some 1)) with
  | done _ u =>
    rw [exec_done ha hi hc] at h
    cases h
    exact .inl ⟨u, rfl, rfl⟩
  | raise e u =>
    rw [exec_raise ha hi hc] at h
    cases h
    exact .inr ⟨e, u, rfl, rfl⟩
  | hang u =>
    rw [exec_hang ha hi hc] at h
    cases h

/-- A response with no event before it. -/
theorem respond_noEvent (s : State) (k : Option Nat) (e : Status) :
    (s.setPc k).respond e none = ended s [] 0 (statusCode e) := by
  rw [← respond_after s k, State.after_nil]

/-! ## INITIALIZE (R160) -/

/-- Settles O22: every step of the bring-up is answered. -/
theorem initializeBringsTheDeviceUp : Obligations.InitializeBringsTheDeviceUp := by
  intro s ha hi ht hok
  have hup := bringUp_ok (s := (s.setPc (some 1)).setDsm .resetting) s.params.defaultFrequencyHz.val ht hok
  exact exec_done ha rfl ((initializeSteps_run (s := s.setPc (some 1)) hi ht).trans (Cmd.onRaise_done hup))

/-- Settles O24: the bring-up is cut at its failing step, and its failure assigns UNINIT. -/
theorem failedInitializeLeavesUninit : Obligations.FailedInitializeLeavesUninit := by
  intro s j ha hi ht hj hf
  have hcut := bringUp_stop (s := (s.setPc (some 1)).setDsm .resetting) s.params.defaultFrequencyHz.val hj ht hf.stops
  exact exec_raise ha rfl ((initializeSteps_run (s := s.setPc (some 1)) hi ht).trans (Cmd.onRaise_raise hcut))

theorem initializeDevice_initialized {s : State} (ha : alive s) (hi : s.cfg.initialized = true) :
    exec .initializeDevice s = .next (ended s [] 0 0) := by
  have hrun : initializeSteps (s.setPc (some 1)) = .done () (s.setPc (some 1)) := if_pos hi
  rw [exec_done ha rfl hrun, respond_noEvent]
  rfl

theorem initializeDevice_noTransport {s : State} (ha : alive s) (hi : s.cfg.initialized = false)
    (ht : s.cfg.transportPresent = false) : exec .initializeDevice s = .next (rejectedWith s 5) := by
  have hrun : initializeSteps (s.setPc (some 1)) = .raise .invalidArgument (s.setPc (some 1)) := by
    simp [initializeSteps, State.setPc, hi, ht]
  rw [exec_eq_runCommand]
  exact runCommand_rejected ha (Cmd.noResult_raise hrun)

/-- The environment answers the next `n` transactions OK, or one of them is the first that is not. -/
theorem okFor_or_stopsAfter (s : State) (n : Nat) : okFor s n ∨ ∃ j < n, ∃ x : Stop, stopsAfter x s j := by
  induction n with
  | zero => exact .inl nofun
  | succ n ih =>
    rcases ih with hok | ⟨j, hj, hx⟩
    · rcases answer_cases (s.upcoming n) with ⟨b, h⟩ | h | h
      · refine .inl fun k hk => ?_
        rcases Nat.lt_succ_iff_lt_or_eq.1 hk with hlt | rfl
        · exact hok k hlt
        · rw [h, isOk]
      · exact .inr ⟨n, n.lt_succ_self, .fail, hok, h⟩
      · exact .inr ⟨n, n.lt_succ_self, .hang, hok, h⟩
    · exact .inr ⟨j, Nat.lt_succ_of_lt hj, hx⟩

/-- An INITIALIZE answered Success leaves an initialized device that is not destroyed, with just that response. -/
theorem initializeDevice_success {s t : State} (h : exec .initializeDevice s = .next t) (hst : t.status = 0) :
    alive t ∧ t.cfg.initialized = true ∧ t.pc = none ∧ t.response = [0] := by
  have ha : alive s := (exec_next h).1
  cases hi : s.cfg.initialized with
  | true =>
    rw [initializeDevice_initialized ha hi] at h
    cases h
    exact ⟨ha, hi, rfl, rfl⟩
  | false =>
    cases ht : s.cfg.transportPresent with
    | false =>
      rw [initializeDevice_noTransport ha hi ht] at h
      cases h
      exact absurd hst (by decide : (5 : Byte) ≠ 0)
    | true =>
      rcases okFor_or_stopsAfter s 11 with hok | ⟨j, hj, x, hx⟩
      · rw [initializeBringsTheDeviceUp s ha hi ht hok] at h
        cases h
        exact ⟨nofun, rfl, rfl, rfl⟩
      · cases x with
        | fail =>
          rw [failedInitializeLeavesUninit s j ha hi ht hj hx] at h
          cases h
          exact absurd hst (by decide : (6 : Byte) ≠ 0)
        | hang =>
          rw [initializeDevice_hang ha hi ht hj hx] at h
          cases h

/-- To answer Success again, with no event, changes nothing. -/
theorem ended_nil_of_success {t : State} (hpc : t.pc = none) (hst : t.status = 0) (hre : t.response = [0]) :
    ended t [] 0 0 = t := by
  cases t
  subst hpc hst hre
  simp [ended]

/-- Settles O23: a successful INITIALIZE leaves an initialized device, where INITIALIZE only answers Success. -/
theorem initializeIsIdempotent : Obligations.InitializeIsIdempotent := by
  refine ⟨fun s ha hi => initializeDevice_initialized ha hi, fun s t h hst => ?_⟩
  obtain ⟨ha, hi, hpc, hre⟩ := initializeDevice_success h hst
  rw [initializeDevice_initialized ha hi, ended_nil_of_success hpc hst hre]

/-! ## SET_FREQUENCY, SLEEP and WAKEUP (R161 to R163) -/

/-- A frequency in range passes `CheckFreq`. -/
theorem checkFreq_andThen {f : Word} {c : Cmd Unit} (hlo : 24 ≤ f.toNat) (hhi : f.toNat ≤ 1526) (s : State) :
    ((checkFreq f).andThen fun _ => c) s = c s :=
  Cmd.andThen_done (checkFreq_ok ((frequencyInRange_iff f).2 ⟨hlo, hhi⟩) s)

/-- Settles O25: the checks pass and the frequency change runs through. -/
theorem setFrequencyChangesTheFrequency : Obligations.SetFrequencyChangesTheFrequency := by
  intro s f hr hlo hhi hok
  exact exec_done_ready hr rfl ((checkFreq_andThen hlo hhi _).trans (changeFrequency_ok f hr.begun.transport hok))

/-- Settles O26: the frequency change is cut, and it writes the frequency fields only at its end. -/
theorem failedSetFrequencyKeepsTheFrequency : Obligations.FailedSetFrequencyKeepsTheFrequency := by
  intro s f j hr hlo hhi hj hf
  exact exec_fail_ready hr rfl
    ((checkFreq_andThen hlo hhi _).trans (changeFrequency_stop f hj hr.begun.transport hf.begun))

/-- Settles O27: each of the two is its sub-sequence behind the one check. -/
theorem sleepAndWakeupWriteTheSleepBit : Obligations.SleepAndWakeupWriteTheSleepBit := by
  intro s hr hok
  exact ⟨exec_done_ready hr rfl (sleepSeq_ok true hr.begun.transport hok),
    exec_done_ready hr rfl (wakeSeq_ok true hr.begun.transport hok)⟩

/-- Settles O28: a sub-sequence that is cut has not come to its bookkeeping of `dsm_state`. -/
theorem failedSleepAndWakeupKeepTheState : Obligations.FailedSleepAndWakeupKeepTheState := by
  intro s j hr hj hf
  exact ⟨exec_fail_ready hr rfl (sleepSeq_stop true hj hr.begun.transport hf.begun),
    exec_fail_ready hr rfl (wakeSeq_stop true hj hr.begun.transport hf.begun)⟩

/-! ## DEINITIALIZE and DESTROY (R164, R165) -/

/-- Settles O29: every step of the shutdown is answered. -/
theorem deinitializeStopsEveryChannel : Obligations.DeinitializeStopsEveryChannel := by
  intro s hr hok
  exact exec_done_ready hr rfl (deinitializeSteps_ok hr.begun.transport hok)

/-- Settles O30: step `k` is the transaction of index `k - 1`. -/
theorem failedDeinitializeStopsAPrefix : Obligations.FailedDeinitializeStopsAPrefix := by
  intro s k hr h1 h67 hf
  obtain ⟨j, rfl⟩ := Nat.exists_eq_add_of_le' h1
  rw [Nat.add_sub_cancel] at hf ⊢
  have hlast : (j + 1 = 67) = (j = 66) := by rw [Nat.succ.injEq]
  simp only [hlast]
  exact exec_fail_ready hr rfl (deinitializeSteps_stop h67 hr.begun.transport hf.begun)

/-- Everything `c` with an assignment at its end can do. -/
theorem Cmd.atEnd_cases {α : Type} (c : Cmd α) (f : State → State) (s : State) :
    (∃ a t, c s = .done a t ∧ c.atEnd f s = .done a (f t)) ∨
    (∃ e t, c s = .raise e t ∧ c.atEnd f s = .raise e (f t)) ∨
    (∃ t, c s = .hang t ∧ c.atEnd f s = .hang t) := by
  cases h : c s with
  | done a t => exact .inl ⟨a, t, rfl, Cmd.atEnd_done h⟩
  | raise e t => exact .inr (.inl ⟨e, t, rfl, Cmd.atEnd_raise h⟩)
  | hang t => exact .inr (.inr ⟨t, rfl, Cmd.atEnd_hang h⟩)

theorem destroySteps_uninitialized {s : State} (hi : s.cfg.initialized = false) :
    destroySteps s = .done () (s.setDsm .destroyed) := by
  simp [destroySteps, hi, Cmd.atEnd]

/-- DESTROY's steps hang or end in DESTROYED, with success or an error. -/
theorem destroySteps_destroyed (s : State) :
    (∃ t, destroySteps s = .hang t) ∨ (destroySteps s).state.dsmState = .destroyed := by
  rw [destroySteps]
  rcases Cmd.atEnd_cases (if s.cfg.initialized then deinitializeSteps else Cmd.pure ()) (·.setDsm .destroyed) s with
    ⟨_, t, _, h⟩ | ⟨_, t, _, h⟩ | ⟨t, _, h⟩ <;> rw [h]
  · exact .inr rfl
  · exact .inr rfl
  · exact .inl ⟨t, rfl⟩

theorem destroy_dsmState {s t : State} (h : exec .destroy s = .next t) : t.dsmState = .destroyed := by
  obtain ⟨ha, hend⟩ := exec_next_noResult rfl h
  rcases destroySteps_destroyed (s.setPc (some 1)) with ⟨u, hu⟩ | hd
  · rw [exec_hang ha rfl hu] at h
    cases h
  · rcases hend with ⟨u, hu, rfl⟩ | ⟨e, u, hu, rfl⟩ <;> rw [hu] at hd <;> exact hd

/-- On an initialized device DESTROY is DEINITIALIZE, success or error, but for the state it ends in. -/
theorem destroy_of_deinitialize {s t : State} (hi : s.cfg.initialized = true) (h : exec .deinitialize s = .next t) :
    exec .destroy s = .next (t.setDsm .destroyed) := by
  have hdeinit : (checkInit.andThen fun _ => deinitializeSteps) (s.setPc (some 1)) =
    deinitializeSteps (s.setPc (some 1)) := checkInit_andThen hi rfl
  have hdestroy := destroySteps_run (s := s.setPc (some 1)) hi
  obtain ⟨ha, ⟨u, hu, rfl⟩ | ⟨e, u, hu, rfl⟩⟩ := exec_next_noResult rfl h <;> rw [hdeinit] at hu
  · exact exec_done ha rfl (hdestroy.trans (Cmd.atEnd_done hu))
  · exact exec_raise ha rfl (hdestroy.trans (Cmd.atEnd_raise hu))

/-- Settles O32: DESTROYED is assigned at either end of the steps. -/
theorem destroyAlwaysDestroys : Obligations.DestroyAlwaysDestroys :=
  ⟨fun _ _ => destroy_dsmState, fun _ _ => destroy_of_deinitialize⟩

/-- Settles O31: with nothing to deinitialize no step runs; else DESTROY follows DEINITIALIZE. -/
theorem destroyEndsTheInstance : Obligations.DestroyEndsTheInstance := by
  refine ⟨fun s ha hi => ?_, fun s hr hok =>
    destroy_of_deinitialize hr.initialized (deinitializeStopsEveryChannel s hr hok)⟩
  rw [exec_done ha rfl (destroySteps_uninitialized (s := s.setPc (some 1)) hi)]
  exact congrArg Host.Outcome.next (respond_noEvent (s.setDsm .destroyed) (some 1) .success)

end Sys2Proof.Machine
end

section
/-! PROOFS of the statements of 44_channel_facade.md (sections 1 to 4). A command is its checks, its steps and one
response: `exec_rejected` and the lemmas of the checks settle the first, Laws/Commands says where the steps lead, and a
batch is its elements in a row (`batch_ok`, `batch_raise`, `batch_stop`). The Channel Store a command leaves is read
channel by channel (`State.channel_withActive`, `State.channel_withRecord`). -/

namespace Sys2Proof.Machine

variable {α β : Type}

/-! ## The duty check (R180, R15) -/

theorem isNegative_iff (w : Word) : isNegative w = true ↔ val32 w < 0 := by
  cases hs : signBit w
  case true =>
    rw [val32_eq, if_pos hs, neg_one_mul, neg_lt_zero, div_pos_iff_of_pos_right (by positivity), Nat.cast_pos,
      Nat.pos_iff_ne_zero]
    simp [isNegative, hs]
  case false =>
    have hpos : 0 ≤ val32 w := by rw [val32_of_not_signBit hs]; positivity
    simp [isNegative, hs, hpos]

theorem isAboveOne_iff (w : Word) : isAboveOne w = true ↔ 1 < val32 w := by
  cases hs : signBit w
  case true =>
    have hneg : val32 w ≤ 1 := (val32_of_signBit hs).trans zero_le_one
    simp [isAboveOne, hs, hneg]
  case false =>
    rw [val32_of_not_signBit hs, one_lt_div (by positivity), isAboveOne, hs, Bool.not_false, Bool.true_and,
      decide_eq_true_iff, unitScale]
    exact_mod_cast Iff.rfl

/-- The infinities and the NaN patterns lie beyond 1, as R15's ordering asks of the infinities. -/
theorem unitScale_lt_magnitude {w : Word} (he : expField w = 255) : unitScale < magnitude w := by
  have hmag : magnitude w = (2 ^ 23 + fracField w) * 2 ^ 255 := by simp [magnitude, significand, he]
  rw [hmag, unitScale]
  omega

/-- A pattern that both comparisons accept is finite: an infinity or a NaN fails the one of its sign. -/
theorem isFinite_of_inUnitInterval {w : Word} (hneg : isNegative w = false) (habove : isAboveOne w = false) :
    isFinite w := by
  intro he
  have hmag := unitScale_lt_magnitude ((expField_eq w).trans he)
  cases hs : signBit w
  case true =>
    have h0 : magnitude w ≠ 0 := by omega
    simp [isNegative, hs, h0] at hneg
  case false => simp [isAboveOne, hs, hmag.not_ge] at habove

/-- Settles O38: the model's two comparisons are those of the exact value, and they leave out what is not finite. -/
theorem dutyCheckIsTheUnitInterval : Obligations.DutyCheckIsTheUnitInterval := by
  intro w
  have hlo : isNegative w = false ↔ 0 ≤ val32 w := by rw [← not_lt, ← isNegative_iff, Bool.not_eq_true]
  have hhi : isAboveOne w = false ↔ val32 w ≤ 1 := by rw [← not_lt, ← isAboveOne_iff, Bool.not_eq_true]
  rw [← hlo, ← hhi, dutyInRange, Bool.not_eq_true', Bool.or_eq_false_iff, Bool.or_eq_false_iff]
  constructor
  · rintro ⟨⟨_, hneg⟩, habove⟩
    exact ⟨isFinite_of_inUnitInterval hneg habove, hneg, habove⟩
  · rintro ⟨hfin, hneg, habove⟩
    exact ⟨⟨isNaN_of_isFinite hfin, hneg⟩, habove⟩

/-! ## Checks that fail (R180, R213) -/

/-- A command whose steps raise at a check has no effect but its response. -/
theorem exec_rejected {i : Instr} {c : Cmd Unit} {s : State} {e : Status} (ha : alive s) (hi : stepsOf i = c.noResult)
    (h : c (s.setPc (some 1)) = .raise e (s.setPc (some 1))) : exec i s = .next (rejectedWith s (statusCode e)) := by
  rw [exec_eq_runCommand, hi]
  exact runCommand_rejected ha (Cmd.noResult_raise h)

theorem exec_notInitialized {i : Instr} {f : Unit → Cmd Unit} {s : State} (ha : alive s)
    (h : s.cfg.initialized = false) (hi : stepsOf i = (checkInit.andThen f).noResult) :
    exec i s = .next (rejectedWith s 1) :=
  exec_rejected ha hi (Cmd.andThen_raise (checkInit_raise (s := s.setPc (some 1)) h))

/-- The channel check comes right after the initialization check (R180). -/
theorem checks_invalidChannel {f : Fin 16 → Cmd Unit} {s : State} {c : Byte} (hi : s.cfg.initialized = true)
    (hc : 16 ≤ c.toNat) : (checkInit.andThen fun _ => (checkChannel c).andThen f) s = .raise .invalidChannel s :=
  checkInit_andThen hi (Cmd.andThen_raise (checkChannel_raise hc s))

/-- With a valid channel both of those checks pass, and the rest runs on that channel. -/
theorem checks_validChannel {f : Fin 16 → Cmd Unit} {s : State} {c : Byte} (hi : s.cfg.initialized = true)
    (hc : c.toNat < 16) : (checkInit.andThen fun _ => (checkChannel c).andThen f) s = f ⟨c.toNat, hc⟩ s :=
  checkInit_andThen hi (Cmd.andThen_done (checkChannel_ok hc s))

theorem exec_invalidChannel {i : Instr} {f : Fin 16 → Cmd Unit} {s : State} {c : Byte} (ha : alive s)
    (h : s.cfg.initialized = true) (hc : 16 ≤ c.toNat)
    (hi : stepsOf i = (checkInit.andThen fun _ => (checkChannel c).andThen f).noResult) :
    exec i s = .next (rejectedWith s 2) :=
  exec_rejected ha hi (checks_invalidChannel (s := s.setPc (some 1)) h hc)

theorem setDutyCycleSteps_invalidDuty {s : State} {c : Byte} {w : Word} (hi : s.cfg.initialized = true)
    (hc : c.toNat < 16) (hw : dutyInRange w = false) : setDutyCycleSteps c w s = .raise .invalidDutyCycle s :=
  (checks_validChannel hi hc).trans (Cmd.andThen_raise (checkDuty_raise hw s))

theorem configureChannelSteps_invalidFrequency {s : State} {c : Byte} {f w : Word} (hi : s.cfg.initialized = true)
    (hc : c.toNat < 16) (hf : frequencyInRange f = false) :
    configureChannelSteps c f w s = .raise .invalidFrequency s :=
  (checks_validChannel hi hc).trans (Cmd.andThen_raise (checkFreq_raise hf s))

theorem configureChannelSteps_invalidDuty {s : State} {c : Byte} {f w : Word} (hi : s.cfg.initialized = true)
    (hc : c.toNat < 16) (hlo : 24 ≤ f.toNat) (hhi : f.toNat ≤ 1526) (hw : dutyInRange w = false) :
    configureChannelSteps c f w s = .raise .invalidDutyCycle s :=
  (checks_validChannel hi hc).trans ((checkFreq_andThen hlo hhi s).trans (Cmd.andThen_raise (checkDuty_raise hw s)))

theorem frequencyInRange_eq_false {f : Word} (h : f.toNat < 24 ∨ 1526 < f.toNat) : frequencyInRange f = false := by
  rw [Bool.eq_false_iff, Ne, frequencyInRange_iff]
  omega

theorem setFrequency_invalidFrequency {s : State} {f : Word} (ha : alive s) (hi : s.cfg.initialized = true)
    (hf : frequencyInRange f = false) : exec (.setFrequency f) s = .next (rejectedWith s 3) :=
  exec_rejected ha rfl (checkInit_andThen (s := s.setPc (some 1)) hi (Cmd.andThen_raise (checkFreq_raise hf _)))

/-- Settles O37: each command raises at the check named, behind those that pass. -/
theorem checksComeInOrderWithoutEffect : Obligations.ChecksComeInOrderWithoutEffect := by
  intro s c f w ha
  refine ⟨fun hi => ?_, initializeDevice_noTransport ha, fun hi hc => ?_, fun hi hf => ?_, fun hi hc hw => ?_⟩
  · exact ⟨exec_notInitialized ha hi rfl, exec_notInitialized ha hi rfl, exec_notInitialized ha hi rfl,
      exec_notInitialized ha hi rfl, exec_notInitialized ha hi rfl, exec_notInitialized ha hi rfl,
      exec_notInitialized ha hi rfl, exec_notInitialized ha hi rfl⟩
  · exact ⟨exec_invalidChannel ha hi hc rfl, exec_invalidChannel ha hi hc rfl, exec_invalidChannel ha hi hc rfl,
      exec_invalidChannel ha hi hc rfl⟩
  · have hf' := frequencyInRange_eq_false hf
    exact ⟨setFrequency_invalidFrequency ha hi hf', fun hc =>
      exec_rejected ha rfl (configureChannelSteps_invalidFrequency hi hc hf')⟩
  · exact ⟨exec_rejected ha rfl (setDutyCycleSteps_invalidDuty hi hc hw),
      fun hlo hhi => exec_rejected ha rfl (configureChannelSteps_invalidDuty hi hc hlo hhi hw)⟩

/-! ## The Channel Store after one update -/

theorem withRecord_eq_dutySet (s : State) (n : Fin 16) (w : Word) :
    withRecord s n (dutyRecord s w) = dutySet s.params.dutyProductArith (n, w) s.channels := by
  ext1 m hm
  by_cases h : n.val = m
  · subst h
    simp [withRecord, dutySet, dutyRecord]
  · have hne : ¬ (⟨m, hm⟩ : Fin 16) = n := fun h' => h (congrArg Fin.val h').symm
    simp [withRecord, dutySet, State.channel, h, hne]

theorem withActive_eq_activeSet (s : State) (n : Fin 16) (b : Bool) :
    withActive s [n] b = activeSet b n s.channels := (storeFold_active b s [n]).symm

theorem State.channel_withRecord {s t : State} {n : Fin 16} {r : ChannelRecord} (h : t.channels = withRecord s n r)
    (m : Fin 16) : t.channel m = if m = n then r else s.channel m := by
  simp [State.channel, h, withRecord]

theorem State.channel_withActive {s t : State} {ns : List (Fin 16)} {b : Bool} (h : t.channels = withActive s ns b)
    (m : Fin 16) : t.channel m = if m ∈ ns then { s.channel m with active := b } else s.channel m := by
  simp [State.channel, h, withActive]

/-! ## SET_DUTY_CYCLE, START and STOP (R181 to R183) -/

/-- A ready device's command that has a transaction that FAILs. -/
theorem exec_fail {i : Instr} {c : Cmd Unit} {s t : State} (hr : ready s) (hi : stepsOf i = c.noResult)
    (h : c (s.setPc (some 1)) = Stop.fail.flow t) : exec i s = .next (t.respond .hardwareError none) :=
  exec_raise hr.alive hi h

/-- Settles O33: the checks pass and the duty update runs through. -/
theorem setDutyCycleAppliesAndRecords : Obligations.SetDutyCycleAppliesAndRecords := by
  intro s n w hr hw hok
  rw [withRecord_eq_dutySet]
  exact exec_done hr.alive rfl
    ((setDutyCycleSteps_run hr.begun.initialized n hw).trans (applyDuty_ok n w hr.begun.transport hok))

/-- Settles O34: the checks pass, and the writes are of the record's own counters. -/
theorem startReappliesTheStoredTiming : Obligations.StartReappliesTheStoredTiming := by
  intro s n hr hok
  rw [withActive_eq_activeSet]
  exact exec_done hr.alive rfl
    ((startSteps_run hr.begun.initialized n).trans (startChannel_ok n hr.begun.transport hok))

/-- Settles O35: the checks pass, and of the record only `active` is assigned. -/
theorem stopKeepsTheStoredDuty : Obligations.StopKeepsTheStoredDuty := by
  intro s n hr hok
  rw [withActive_eq_activeSet]
  exact exec_done hr.alive rfl
    ((stopSteps_run hr.begun.initialized n).trans (stopChannel_ok n hr.begun.transport hok))

/-- Settles O39: the four writes are cut, and the record is assigned only after them. -/
theorem failedChannelWriteKeepsTheRecord : Obligations.FailedChannelWriteKeepsTheRecord := by
  intro s n w j hr hj hf
  have hb := hr.begun
  exact ⟨fun hw => exec_fail hr rfl ((setDutyCycleSteps_run hb.initialized n hw).trans
      (applyDuty_stop n w hj hb.transport hf.begun)),
    exec_fail hr rfl ((startSteps_run hb.initialized n).trans (startChannel_stop n hj hb.transport hf.begun)),
    exec_fail hr rfl ((stopSteps_run hb.initialized n).trans (stopChannel_stop n hj hb.transport hf.begun))⟩

/-- The answers left after a command that drew `k` of them. -/
theorem okFor.next {s t : State} {k m n : Nat} (h : okFor s n) (ha : t.answers = s.answers.drop k)
    (hd : t.draws = s.draws + k) (hm : k + m ≤ n) : okFor t m := fun i hi => by
  rw [upcoming_of_fields ha hd]
  exact h (k + i) (by omega)

/-- An active channel's record is again what it was when `active` is cleared and then set. -/
theorem withActive_restores {t u v : State} {n : Fin 16} (ha : (t.channel n).active = true)
    (hu : u.channels = withActive t [n] false) (hv : v.channels = withActive u [n] true) : v.channels = t.channels := by
  refine channels_ext fun m => ?_
  rw [State.channel_withActive hv, State.channel_withActive hu]
  by_cases hm : m = n
  · subst hm
    simp [← ha]
  · simp [hm]

/-- Settles O41: STOP keeps the counters SET_DUTY_CYCLE stored, and START writes them and sets `active` again. -/
theorem stopThenStartRestoresTheDuty : Obligations.StopThenStartRestoresTheDuty := by
  intro s n w hr hw hok
  have hset := setDutyCycleAppliesAndRecords s n w hr hw (hok.mono (by decide))
  generalize ht : ({ ended s (timingEvents s n (computeTiming s.params.dutyProductArith w)) 4 0 with
    channels := withRecord s n (dutyRecord s w) } : State) = t at hset
  have htr : ready t := ht ▸ hr
  have htok : okFor t 8 := hok.next (k := 4) (by rw [← ht]; rfl) (by rw [← ht]; rfl) (by decide)
  have htn : t.channel n = dutyRecord s w := by
    rw [State.channel_withRecord (congrArg State.channels ht).symm, if_pos rfl]
  have hstop := stopKeepsTheStoredDuty t n htr (htok.mono (by decide))
  generalize hu : ({ ended t (stopEvents t n) 4 0 with channels := withActive t [n] false } : State) = u at hstop
  have huok : okFor u 4 := htok.next (k := 4) (by rw [← hu]; rfl) (by rw [← hu]; rfl) (by decide)
  have huc : u.channels = withActive t [n] false := (congrArg State.channels hu).symm
  have hun : u.channel n = { dutyRecord s w with active := false } := by
    rw [State.channel_withActive huc, if_pos (List.mem_singleton_self n), htn]
  have hstart := startReappliesTheStoredTiming u n (hu ▸ htr) huok
  generalize hv : ({ ended u (storedEvents u n) 4 0 with channels := withActive u [n] true } : State) = v at hstart
  have hstore : v.channels = t.channels :=
    withActive_restores (by rw [htn]; rfl) huc (congrArg State.channels hv).symm
  have hevents : storedEvents u n = timingEvents s n (computeTiming s.params.dutyProductArith w) := by
    rw [storedEvents, hun, ← hu, ← ht]
    rfl
  have htt : t.trace = s.trace ++ storedEvents u n := by rw [hevents, ← ht]; rfl
  have hduty : (v.channel n).dutyCycle = w := by rw [State.channel_congr hstore, htn]; rfl
  exact ⟨t, u, v, hset, ht ▸ rfl, hstop, hu ▸ rfl, hstart, hv ▸ rfl, hstore, hduty, storedEvents u n, htt, hv ▸ rfl⟩

/-! ## CONFIGURE_CHANNEL (R184) -/

/-- The frequency change and the duty update, every transaction answered OK. -/
theorem configure_ok {s : State} (n : Fin 16) (f w : Word) (ht : s.cfg.transportPresent = true) (h : okFor s 9) :
    ((changeFrequency f).andThen fun _ => applyDuty n w) s = .done ()
      ((((s.after (prescaleEvents s.cfg.i2cAddress s.params.sleepMask (computePrescale f.toNat) (byteAt s 0)
        (byteAt s 3) ++ timingEvents s n (computeTiming s.params.dutyProductArith w)) 9).setDsm
          .awake).setFrequency f (computePrescale f.toNat)).withChannels
        (dutySet s.params.dutyProductArith (n, w))) := by
  have hs : okFor (s.after (prescaleEvents s.cfg.i2cAddress s.params.sleepMask (computePrescale f.toNat) (byteAt s 0)
    (byteAt s 3)) 5) 4 := h.after _ (by decide)
  rw [Cmd.andThen_done (changeFrequency_ok f ht (h.mono (by decide))), applyDuty_ok n w (by exact ht) (by exact hs),
    State.setFrequency_after, State.setDsm_after, State.after_after]
  rfl

/-- Settles O36: the checks pass, and the two parts run through. -/
theorem configureChannelSetsFrequencyThenDuty : Obligations.ConfigureChannelSetsFrequencyThenDuty := by
  intro s n f w hr hlo hhi hw hok
  have hrun := configureChannelSteps_run hr.begun.initialized n ((frequencyInRange_iff f).2 ⟨hlo, hhi⟩) hw
  rw [withRecord_eq_dutySet]
  exact exec_done hr.alive rfl (hrun.trans (configure_ok n f w hr.begun.transport hok))

/-- Settles O40: the frequency fields are assigned between the two parts, the record at the end of the second. -/
theorem failedConfigureChannelIsNotRolledBack : Obligations.FailedConfigureChannelIsNotRolledBack := by
  intro s n f w j hr hlo hhi hw hj hf
  have hrun := configureChannelSteps_run hr.begun.initialized n ((frequencyInRange_iff f).2 ⟨hlo, hhi⟩) hw
  by_cases h5 : j < 5
  · simp only [if_pos h5]
    exact exec_fail hr rfl (hrun.trans (configure_stop_frequency n f w h5 hr.begun.transport hf.begun))
  · obtain ⟨i, rfl⟩ : ∃ i, j = 5 + i := ⟨j - 5, by omega⟩
    have hevent : (if 5 + i < 5 then 5 + i else 5 + i + 1) = 6 + i := by rw [if_neg h5]; omega
    have hawake : ¬ 5 + i < 2 := by omega
    intro p
    rw [hevent, if_neg h5, if_neg hawake, if_neg h5]
    exact exec_fail hr rfl (hrun.trans (configure_stop_channel n f w (by omega) hr.begun.transport hf.begun))

/-! ## Batches (R185 to R188) -/

/-- An empty batch on an initialized device. -/
theorem batch_nil {op : α → Cmd Unit} {s : State} (hi : s.cfg.initialized = true) :
    batch op [] s = .raise .invalidArgument s :=
  checkInit_andThen hi (Cmd.andThen_raise (require_false _ s))

/-- A batch of elements is its elements in order. -/
theorem batch_run {op : α → Cmd Unit} {l : List α} {s : State} (hi : s.cfg.initialized = true) (hl : l ≠ []) :
    batch op l s = Cmd.forEach op l s := by
  have hne : (!l.isEmpty) = true := by simp [hl]
  rw [batch, Cmd.andThen_done (checkInit_ok hi), hne, Cmd.andThen_done (require_true _ s)]

section
variable {op : α → Cmd Unit} {f : β → α} {P : State → Prop} {ev : β → List Entry}
  {g : β → Vector ChannelRecord 16 → Vector ChannelRecord 16} {l : List β}

/-- A batch of valid elements, every transaction answered OK. -/
theorem batch_ok (h : ElementSteps (fun b => op (f b)) P ev g l) {s : State} (hi : s.cfg.initialized = true) (hs : P s)
    (hl : l ≠ []) (hok : okFor s (4 * l.length)) :
    batch op (l.map f) s = .done () ((s.after (l.flatMap ev) (4 * l.length)).withChannels (storeFold g l)) := by
  rw [batch_run hi (by simpa using hl), Cmd.forEach_map]
  exact forEach_ok h hs hok

/-- A batch whose first invalid element comes after the elements of `l`; whatever elements come after it. -/
theorem batch_raise (h : ElementSteps (fun b => op (f b)) P ev g l) {s : State} {a : α} {e : Status} (rest : List α)
    (hi : s.cfg.initialized = true) (hs : P s) (hok : okFor s (4 * l.length))
    (ha : ∀ u : State, u.cfg.initialized = true → op a u = .raise e u) :
    batch op (l.map f ++ a :: rest) s =
      .raise e ((s.after (l.flatMap ev) (4 * l.length)).withChannels (storeFold g l)) := by
  rw [batch_run hi (by simp), Cmd.forEach_append, Cmd.forEach_map, Cmd.andThen_done (forEach_ok h hs hok), Cmd.forEach]
  exact Cmd.andThen_raise (ha _ hi)

end

/-- Settles O43: the two checks of the batch itself. -/
theorem emptyAndUninitializedBatches : Obligations.EmptyAndUninitializedBatches := by
  intro s chs es ha
  refine ⟨fun hi => ?_, fun hi => ?_⟩
  · exact ⟨exec_notInitialized ha hi rfl, exec_notInitialized ha hi rfl, exec_notInitialized ha hi rfl⟩
  · exact ⟨exec_rejected ha rfl (batch_nil hi), exec_rejected ha rfl (batch_nil hi),
      exec_rejected ha rfl (batch_nil hi)⟩

/-- Settles O42: the elements of each command, run in order. -/
theorem batchAppliesEveryElement : Obligations.BatchAppliesEveryElement := by
  refine ⟨fun s ns hr hne hok => ?_, fun s es hr hne hes hok => ?_⟩
  · rw [← storeFold_active, ← storeFold_active]
    exact ⟨exec_done hr.alive rfl
        (batch_ok (startStepsElements ns hr) hr.begun.initialized ⟨rfl, fun _ => rfl⟩ hne hok),
      exec_done hr.alive rfl (batch_ok (stopStepsElements ns hr) hr.begun.initialized rfl hne hok)⟩
  · rw [← storeFold_duty]
    exact exec_done hr.alive rfl (batch_ok (op := fun e : Byte × Word => setDutyCycleSteps e.1 e.2)
      (setDutyCycleStepsElements es hr hes) hr.begun.initialized ⟨rfl, rfl⟩ hne hok)

/-- An element of SET_DUTY_CYCLE_MULTIPLE that fails a check: the channel's comes first (R188). -/
theorem setDutyCycleSteps_invalid {c : Byte} {w : Word} (h : 16 ≤ c.toNat ∨ dutyInRange w = false) {u : State}
    (hi : u.cfg.initialized = true) :
    setDutyCycleSteps c w u = .raise (if 16 ≤ c.toNat then .invalidChannel else .invalidDutyCycle) u := by
  by_cases hc : 16 ≤ c.toNat
  · rw [if_pos hc]
    exact checks_invalidChannel hi hc
  · rw [if_neg hc]
    exact setDutyCycleSteps_invalidDuty hi (not_le.1 hc) (h.resolve_left hc)

/-- Settles O44: the valid elements run in order, and the next one raises at its checks. -/
theorem batchStopsAtTheFirstInvalidElement : Obligations.BatchStopsAtTheFirstInvalidElement := by
  refine ⟨fun s ns c rest hr hok hc => ?_, fun s es c w rest hr hes hok hbad => ?_⟩
  · rw [← storeFold_active, ← storeFold_active]
    exact ⟨exec_raise hr.alive rfl (batch_raise (startStepsElements ns hr) rest hr.begun.initialized
        ⟨rfl, fun _ => rfl⟩ hok fun _ hi => checks_invalidChannel hi hc),
      exec_raise hr.alive rfl (batch_raise (stopStepsElements ns hr) rest hr.begun.initialized rfl hok
        fun _ hi => checks_invalidChannel hi hc)⟩
  · have hcode : (if 16 ≤ c.toNat then 2 else 4 : Byte) =
        statusCode (if 16 ≤ c.toNat then .invalidChannel else .invalidDutyCycle) := by split <;> rfl
    rw [← storeFold_duty, hcode]
    exact exec_raise hr.alive rfl (batch_raise (op := fun e : Byte × Word => setDutyCycleSteps e.1 e.2)
      (setDutyCycleStepsElements es hr hes) rest hr.begun.initialized ⟨rfl, rfl⟩ hok
      fun _ hi => setDutyCycleSteps_invalid hbad hi)

/-- Settles O45: the elements are cut at the failing transaction, four transactions to each. -/
theorem batchStopsAtAFailedTransaction : Obligations.BatchStopsAtAFailedTransaction := by
  refine ⟨fun s ns j hr hj hf => ?_, fun s es j hr hes hj hf => ?_⟩
  · rw [← storeFold_active, ← storeFold_active, ← List.append_nil (ns.map _)]
    exact ⟨exec_fail hr rfl (batch_stop [] (startStepsElements ns hr) hr.begun.initialized ⟨rfl, fun _ => rfl⟩ hj
        hf.begun),
      exec_fail hr rfl (batch_stop [] (stopStepsElements ns hr) hr.begun.initialized rfl hj hf.begun)⟩
  · rw [← storeFold_duty, ← List.append_nil (es.map _)]
    exact exec_fail hr rfl (batch_stop (op := fun e : Byte × Word => setDutyCycleSteps e.1 e.2) []
      (setDutyCycleStepsElements es hr hes) hr.begun.initialized ⟨rfl, rfl⟩ hj hf.begun)

/-! ## Stubs (R189 to R195) -/

/-- Settles O46: the six commands are one stub, which raises at once. -/
theorem stubsAlwaysAnswerNotSupported : Obligations.StubsAlwaysAnswerNotSupported := by
  intro s c ha
  have hstub : runCommand (stub c) s = .next (rejectedWith s 7) := runCommand_rejected ha rfl
  exact ⟨hstub, hstub, hstub, hstub, hstub, hstub⟩

end Sys2Proof.Machine
end

section
/-! PROOFS of the statements of 60_exceptions.md (sections 1, 2 and 6). How a command ends is said once for all of them
(`Cmd.Ends`): it completes with events that completed, or it raises an error of its row, HardwareError right after an
event that FAILed and any other error by a check. Without a transport no sequence of bus events gets past its first
(`Cmd.NeedsTransport`). -/

namespace Sys2Proof.Machine

variable {α β : Type} {E E' : List Status} {R : State → State → Prop}

/-! ## Refusals (R227, R249) -/

theorem exec_destroyed {s : State} (i : Instr) (hd : s.dsmState = .destroyed) : exec i s = .refused .destroyed := by
  rw [exec_eq_runCommand]
  exact runCommand_destroyed hd

/-- Settles O11: a destroyed device is refused before any step, and a host that does not serialise before decoding. -/
theorem destroyedAndUnserialisedAreRefused : Obligations.DestroyedAndUnserialisedAreRefused := by
  refine ⟨fun i s => exec_destroyed i, fun s why rest ho hd hdec => ?_, fun s ho => ?_⟩
  · rw [step_eq_runDecoded ho, hdec, runDecoded, runRejected]
    exact runCommand_destroyed hd
  · rw [step, fetchAndRun, if_pos ho]

/-! ## How a part of a command ends (R213, R214) -/

/-- Between the two states events have completed and no other was made; the transport is as it was. -/
structure Emitted (s t : State) : Prop where
  transport : t.cfg.transportPresent = s.cfg.transportPresent
  completed : ∃ es k, Completed s t es k

theorem Emitted.trans {s t u : State} (h : Emitted s t) (h' : Emitted t u) : Emitted s u := by
  obtain ⟨es, j, hes⟩ := h.completed
  obtain ⟨fs, k, hfs⟩ := h'.completed
  exact ⟨h'.transport.trans h.transport, _, _, hes.trans hfs⟩

/-- An assignment that leaves the transport alone. -/
theorem Emitted.of_assignment {s t : State} (ht : t.cfg.transportPresent = s.cfg.transportPresent)
    (h : t = { s with cfg := t.cfg, dsmState := t.dsmState, channels := t.channels }) : Emitted s t :=
  ⟨ht, [], 0, .of_assignment h⟩

theorem Emitted.refl (s : State) : Emitted s s := .of_assignment rfl rfl

theorem emitted_setDsm (s : State) (d : DsmState) : Emitted s (s.setDsm d) := .of_assignment rfl rfl

theorem emitted_after (s : State) {es : List Entry} (k : Nat) (h : ∀ e ∈ es, succeeded e) : Emitted s (s.after es k) :=
  ⟨rfl, es, k, completed_after s k h⟩

/-- With a transport, one more event than those that completed was made last, and it FAILed. -/
def FailedLast (s t : State) : Prop :=
  s.cfg.transportPresent = true → ∃ u e, Emitted s u ∧ t.trace = u.trace ++ [⟨e, .failed⟩]

theorem Emitted.failedLast {s t u : State} (h : Emitted s t) (h' : FailedLast t u) : FailedLast s u := fun ht => by
  obtain ⟨v, e, hv, hu⟩ := h' (h.transport.trans ht)
  exact ⟨v, e, h.trans hv, hu⟩

/-- A run of steps from `s` that completes emits events that completed, and one that raises has an error of `E`:
HardwareError after an event that FAILed, any other with `R` between the two states. -/
def Flow.Ends (E : List Status) (R : State → State → Prop) (s : State) : Flow α → Prop
  | .done _ t => Emitted s t
  | .raise e t => e ∈ E ∧ if e = .hardwareError then FailedLast s t else R s t
  | .hang _ => True

/-- The steps `c` end so from every state. -/
def Cmd.Ends (E : List Status) (R : State → State → Prop) (c : Cmd α) : Prop := ∀ s, (c s).Ends E R s

/-- The only error of `c` is HardwareError. -/
abbrev Cmd.OnBus (c : Cmd α) : Prop := c.Ends [.hardwareError] Emitted

/-- A check: it completes with no effect at all, or raises its error with none. The error is not a bus error. -/
structure Cmd.IsCheck (e : Status) (c : Cmd α) : Prop where
  notHardware : e ≠ .hardwareError
  cases : ∀ s, (∃ a, c s = .done a s) ∨ c s = .raise e s

/-! ### Composition -/

theorem Flow.Ends.mono {s : State} {o : Flow α} (h : o.Ends E R s) (hE : E ⊆ E') : o.Ends E' R s := by
  cases o with
  | done a t => exact h
  | raise e t => exact ⟨hE h.1, h.2⟩
  | hang t => trivial

theorem Cmd.Ends.mono {c : Cmd α} (h : c.Ends E R) (hE : E ⊆ E') : c.Ends E' R := fun s => (h s).mono hE

theorem Flow.Ends.of_onBus {s : State} {o : Flow α} (h : o.Ends [.hardwareError] Emitted s)
    (hE : .hardwareError ∈ E := by decide) : o.Ends E R s := by
  cases o with
  | done a t => exact h
  | raise e t =>
    obtain ⟨he, ht⟩ := h
    obtain rfl := List.mem_singleton.1 he
    exact ⟨hE, ht⟩
  | hang t => trivial

/-- A part that only a bus error stops ends so for every `R`, which speaks of the other errors. -/
theorem Cmd.OnBus.ends {c : Cmd α} (h : c.OnBus) (hE : .hardwareError ∈ E := by decide) : c.Ends E R :=
  fun s => (h s).of_onBus hE

/-- What a run of steps emits comes after what was emitted before it. -/
theorem Emitted.ends {s t : State} {o : Flow α} (h : Emitted s t) (ho : o.Ends E Emitted t) : o.Ends E Emitted s := by
  cases o with
  | done a u => exact h.trans ho
  | raise e u =>
    obtain ⟨he, hu⟩ := ho
    refine ⟨he, ?_⟩
    by_cases hw : e = .hardwareError
    · rw [if_pos hw] at hu ⊢
      exact h.failedLast hu
    · rw [if_neg hw] at hu ⊢
      exact h.trans hu
  | hang u => trivial

theorem Cmd.Ends.andThen {c : Cmd α} {f : α → Cmd β} (hc : c.Ends E Emitted) (hf : ∀ a, (f a).Ends E Emitted) :
    (c.andThen f).Ends E Emitted := fun s => by
  have hs := hc s
  rcases Cmd.andThen_cases c f s with ⟨a, t, h, h'⟩ | ⟨e, t, h, h'⟩ | ⟨t, h, h'⟩ <;> rw [h'] <;> rw [h] at hs
  · exact Emitted.ends hs (hf a t)
  · exact hs
  · trivial

theorem Cmd.ends_pure (a : α) : (Cmd.pure a).Ends E R := Emitted.refl

theorem Cmd.ends_update {f : State → State} (h : ∀ s, Emitted s (f s)) : (Cmd.update f).Ends E R := h

theorem Cmd.Ends.forEach {c : α → Cmd Unit} (hc : ∀ a, (c a).Ends E Emitted) (l : List α) :
    (Cmd.forEach c l).Ends E Emitted := by
  induction l with
  | nil => exact Cmd.ends_pure ()
  | cons a l ih => exact (hc a).andThen fun _ => ih

theorem Cmd.Ends.noResult {c : Cmd Unit} (hc : c.Ends E R) : c.noResult.Ends E R := fun s => by
  have hs := hc s
  cases h : c s with
  | done a t => rw [h] at hs; rw [Cmd.noResult_done h]; exact hs
  | raise e t => rw [h] at hs; rw [Cmd.noResult_raise h]; exact hs
  | hang t => rw [Cmd.noResult_hang h]; trivial

/-- An assignment made when the bus fails leaves the failed event the last. -/
theorem Cmd.OnBus.onRaise {c : Cmd α} {f : State → State} (hc : c.OnBus) (hf : ∀ s, (f s).trace = s.trace) :
    (c.onRaise f).OnBus := fun s => by
  have hs := hc s
  cases h : c s with
  | done a t => rw [Cmd.onRaise_done h]; exact h ▸ hs
  | raise e t =>
    rw [h] at hs
    obtain ⟨he, ht⟩ := hs
    obtain rfl := List.mem_singleton.1 he
    rw [Cmd.onRaise_raise h]
    exact ⟨he, fun htp => by rw [hf]; exact ht htp⟩
  | hang t => rw [Cmd.onRaise_hang h]; trivial

theorem Cmd.OnBus.atEnd {c : Cmd α} {f : State → State} (hc : c.OnBus) (hf : ∀ s, Emitted s (f s))
    (htr : ∀ s, (f s).trace = s.trace) : (c.atEnd f).OnBus := fun s => by
  have hs := hc.onRaise htr s
  cases h : c s with
  | done a t =>
    rw [Cmd.onRaise_done h] at hs
    rw [Cmd.atEnd_done h]
    exact Emitted.trans hs (hf t)
  | raise e t =>
    rw [Cmd.onRaise_raise h] at hs
    rw [Cmd.atEnd_raise h]
    exact hs
  | hang t => rw [Cmd.atEnd_hang h]; trivial

/-! ### Checks -/

theorem Cmd.IsCheck.ends {e : Status} {c : Cmd α} (hc : c.IsCheck e) (hR : ∀ s, R s s)
    (he : e ∈ E := by decide) : c.Ends E R := fun s => by
  rcases hc.cases s with ⟨a, h⟩ | h <;> rw [h]
  · exact Emitted.refl s
  · refine ⟨he, ?_⟩
    rw [if_neg hc.notHardware]
    exact hR s

/-- Behind a check a command begins from the state the check began in. -/
theorem Cmd.IsCheck.andThen {e : Status} {c : Cmd α} {f : α → Cmd β} (hc : c.IsCheck e)
    (hR : ∀ s, R s s) (hf : ∀ a, (f a).Ends E R) (he : e ∈ E := by decide) : (c.andThen f).Ends E R := fun s => by
  have hs := hc.ends hR he s
  rcases hc.cases s with ⟨a, h⟩ | h
  · rw [Cmd.andThen_done h]
    exact hf a s
  · rw [h] at hs
    rw [Cmd.andThen_raise h]
    exact hs

theorem isCheck_raise {e : Status} (he : e ≠ .hardwareError := by decide) : (Cmd.raise e : Cmd α).IsCheck e :=
  ⟨he, fun _ => .inr rfl⟩

theorem isCheck_require (b : Bool) {e : Status} (he : e ≠ .hardwareError := by decide) : (require b e).IsCheck e :=
  ⟨he, fun s => (require_cases b e s).imp (fun h => ⟨(), h.2⟩) And.right⟩

theorem isCheck_checkInit : checkInit.IsCheck .notInitialized :=
  ⟨by decide, fun s => (isCheck_require s.cfg.initialized).cases s⟩

theorem isCheck_checkChannel (c : Byte) : (checkChannel c).IsCheck .invalidChannel := by
  refine ⟨by decide, fun s => ?_⟩
  by_cases hc : c.toNat < 16
  · exact .inl ⟨_, checkChannel_ok hc s⟩
  · exact .inr (checkChannel_raise (not_lt.1 hc) s)

theorem isCheck_checkFreq (f : Word) : (checkFreq f).IsCheck .invalidFrequency := isCheck_require _

theorem isCheck_checkDuty (w : Word) : (checkDuty w).IsCheck .invalidDutyCycle := isCheck_require _

/-! ### The bus -/

theorem onBus_transact (e : Event) : (transact e).OnBus := fun s => by
  rcases transact_cases e s with ⟨_, b, _, h⟩ | ⟨_, _, h⟩ | ⟨_, _, h⟩ | ⟨ht, h⟩ <;> rw [h]
  · exact emitted_after s 1 (by simpa using succeeded_okReply e b)
  · exact ⟨List.mem_singleton_self _, fun _ => ⟨s, e, .refl s, rfl⟩⟩
  · trivial
  · exact ⟨List.mem_singleton_self _, fun ht' => absurd (ht.symm.trans ht') (by decide)⟩

theorem onBus_call (e : Event) : ((transact e).andThen fun _ => Cmd.pure ()).OnBus :=
  (onBus_transact e).andThen fun _ => Cmd.ends_pure ()

theorem onBus_memWrite (reg v : Byte) : (memWrite reg v).OnBus := fun s => onBus_call _ s

theorem onBus_modifyMode (reg set clear : Byte) : (modifyMode reg set clear).OnBus :=
  Cmd.Ends.andThen (fun s => onBus_transact _ s) fun _ => onBus_memWrite _ _

theorem onBus_delay : (delay settleUs).OnBus := fun s => by
  rw [delay_apply]
  exact emitted_after s 0 (by simp [succeeded, settle])

theorem onBus_noteDsm (track : Bool) (d : DsmState) : (noteDsm track d).OnBus :=
  Cmd.ends_update fun s => by
    cases track
    · exact .refl s
    · exact emitted_setDsm s d

theorem onBus_sleepSeq (track : Bool) : (sleepSeq track).OnBus := fun s =>
  (onBus_modifyMode _ _ _).andThen (fun _ => onBus_noteDsm _ _) s

theorem onBus_wakeSeq (track : Bool) : (wakeSeq track).OnBus := fun s =>
  (onBus_modifyMode _ _ _).andThen (fun _ => (onBus_noteDsm _ _).andThen fun _ => onBus_delay) s

theorem onBus_prescaleSeq (track : Bool) (p : Byte) : (prescaleSeq track p).OnBus :=
  (onBus_sleepSeq track).andThen fun _ => (onBus_memWrite _ _).andThen fun _ => onBus_wakeSeq track

theorem onBus_driverSeq : driverSeq.OnBus := fun s => by
  unfold driverSeq
  cases s.params.outputDriverMode <;> exact onBus_modifyMode _ _ _ s

theorem onBus_writeChannelTiming (n : Fin 16) (t : Timing) : (writeChannelTiming n t).OnBus :=
  Cmd.Ends.forEach (fun w : Byte × Byte => onBus_memWrite w.1 w.2) (channelWrites n t)

theorem onBus_bringUp (f : Nat) : (bringUp f).OnBus :=
  (onBus_call _).andThen fun _ => (onBus_call _).andThen fun _ => (onBus_prescaleSeq _ _).andThen fun _ =>
    onBus_driverSeq.andThen fun _ => (onBus_wakeSeq _).andThen fun _ => Cmd.ends_update fun _ => .of_assignment rfl rfl

theorem onBus_changeFrequency (f : Word) : (changeFrequency f).OnBus :=
  (onBus_prescaleSeq _ _).andThen fun _ => Cmd.ends_update fun _ => .of_assignment rfl rfl

/-- A channel's four writes and the assignment of its record. -/
theorem onBus_timing_setChannel (n : Fin 16) (t : Timing) (r : State → ChannelRecord) :
    ((writeChannelTiming n t).andThen fun _ => Cmd.update fun s => s.setChannel n (r s)).OnBus :=
  (onBus_writeChannelTiming n t).andThen fun _ => Cmd.ends_update fun _ => .of_assignment rfl rfl

theorem onBus_stopChannel (n : Fin 16) : (stopChannel n).OnBus := onBus_timing_setChannel n _ _

theorem onBus_startChannel (n : Fin 16) : (startChannel n).OnBus := fun s => onBus_timing_setChannel n _ _ s

theorem onBus_applyDuty (n : Fin 16) (w : Word) : (applyDuty n w).OnBus := fun s => onBus_timing_setChannel n _ _ s

theorem onBus_deinitializeSteps : deinitializeSteps.OnBus :=
  (Cmd.Ends.forEach onBus_stopChannel allChannels).andThen fun _ => (onBus_sleepSeq true).andThen fun _ =>
    (onBus_call _).andThen fun _ => Cmd.ends_update fun _ => .of_assignment rfl rfl

theorem onBus_destroySteps : destroySteps.OnBus := fun s => by
  unfold destroySteps
  refine Cmd.OnBus.atEnd ?_ (fun u => emitted_setDsm u .destroyed) (fun _ => rfl) s
  split
  · exact onBus_deinitializeSteps
  · exact Cmd.ends_pure ()

/-! ### The commands -/

theorem ends_computePrescaleSteps (hR : ∀ s, R s s) (f : Word) : (computePrescaleSteps f).Ends [.invalidFrequency] R :=
  (isCheck_require _).andThen hR fun _ => Cmd.ends_pure _

theorem ends_computeTimingSteps (hR : ∀ s, R s s) (w : Word) : (computeTimingSteps w).Ends [.invalidDutyCycle] R :=
  fun s => (isCheck_require _).andThen hR (fun _ => Cmd.ends_pure _) (by decide) s

theorem ends_setFrequencySteps (hR : ∀ s, R s s) (f : Word) :
    (checkInit.andThen fun _ => (checkFreq f).andThen fun _ => changeFrequency f).Ends
      [.notInitialized, .invalidFrequency, .hardwareError] R :=
  isCheck_checkInit.andThen hR fun _ => (isCheck_checkFreq f).andThen hR fun _ => (onBus_changeFrequency f).ends

theorem ends_initializeSteps (hR : ∀ s, R s s) :
    initializeSteps.Ends [.invalidArgument, .hardwareError] R := fun s => by
  unfold initializeSteps
  split
  · exact Emitted.refl s
  · split
    · have hrun := (onBus_bringUp s.params.defaultFrequencyHz.val).onRaise (f := (·.setDsm .uninit)) fun _ => rfl
      exact ((emitted_setDsm s .resetting).ends (hrun _)).of_onBus
    · exact Cmd.IsCheck.ends isCheck_raise hR (by decide) s

theorem ends_setDutyCycleSteps (hR : ∀ s, R s s) (c : Byte) (w : Word) :
    (setDutyCycleSteps c w).Ends [.notInitialized, .invalidChannel, .invalidDutyCycle, .hardwareError] R :=
  isCheck_checkInit.andThen hR fun _ => (isCheck_checkChannel c).andThen hR fun n =>
    (isCheck_checkDuty w).andThen hR fun _ => (onBus_applyDuty n w).ends

theorem ends_startSteps (hR : ∀ s, R s s) (c : Byte) :
    (startSteps c).Ends [.notInitialized, .invalidChannel, .hardwareError] R :=
  isCheck_checkInit.andThen hR fun _ => (isCheck_checkChannel c).andThen hR fun n =>
    (onBus_startChannel n).ends

theorem ends_stopSteps (hR : ∀ s, R s s) (c : Byte) :
    (stopSteps c).Ends [.notInitialized, .invalidChannel, .hardwareError] R :=
  isCheck_checkInit.andThen hR fun _ => (isCheck_checkChannel c).andThen hR fun n =>
    (onBus_stopChannel n).ends

theorem ends_configureChannelSteps (hR : ∀ s, R s s) (c : Byte) (f w : Word) : (configureChannelSteps c f w).Ends
    [.notInitialized, .invalidChannel, .invalidFrequency, .invalidDutyCycle, .hardwareError] R :=
  isCheck_checkInit.andThen hR fun _ => (isCheck_checkChannel c).andThen hR fun n =>
    (isCheck_checkFreq f).andThen hR fun _ => (isCheck_checkDuty w).andThen hR fun _ =>
    Cmd.OnBus.ends ((onBus_changeFrequency f).andThen fun _ => onBus_applyDuty n w)

/-- A command of the sequencer that begins with `CheckInit`. -/
theorem ends_checkInit_andThen {c : Cmd Unit} (hR : ∀ s, R s s) (hc : c.OnBus) :
    (checkInit.andThen fun _ => c).Ends [.notInitialized, .hardwareError] R :=
  isCheck_checkInit.andThen hR fun _ => hc.ends

/-- The checks of an element may fail after other elements were applied (R185). -/
theorem ends_batch {op : α → Cmd Unit} (hop : ∀ a, (op a).Ends E Emitted) (h0 : .notInitialized ∈ E) (l : List α) :
    (batch op l).Ends (.invalidArgument :: E) Emitted :=
  isCheck_checkInit.andThen Emitted.refl (he := List.mem_cons_of_mem _ h0) fun _ =>
    (isCheck_require _).andThen Emitted.refl (he := List.mem_cons_self) fun _ =>
    (Cmd.Ends.forEach hop l).mono (List.subset_cons_self _ E)

/-- The errors of each command (R212). -/
def errorsOf : Instr → List Status
  | .computePrescale _ => [.invalidFrequency]
  | .computeTiming _ => [.invalidDutyCycle]
  | .initializeDevice => [.invalidArgument, .hardwareError]
  | .setFrequency _ => [.notInitialized, .invalidFrequency, .hardwareError]
  | .sleep | .wakeup | .deinitialize => [.notInitialized, .hardwareError]
  | .destroy => [.hardwareError]
  | .setDutyCycle _ _ => [.notInitialized, .invalidChannel, .invalidDutyCycle, .hardwareError]
  | .start _ | .stop _ => [.notInitialized, .invalidChannel, .hardwareError]
  | .configureChannel _ _ _ => [.notInitialized, .invalidChannel, .invalidFrequency, .invalidDutyCycle, .hardwareError]
  | .startMultiple _ | .stopMultiple _ => [.invalidArgument, .notInitialized, .invalidChannel, .hardwareError]
  | .setDutyCycleMultiple _ => [.invalidArgument, .notInitialized, .invalidChannel, .invalidDutyCycle, .hardwareError]
  | .setPhase _ | .configureFade _ | .startFade _ | .configureComplementary _ | .setDeadTime _
  | .registerCallback _ => [.notSupported]

/-- They are those of the command's row, Success left out. -/
theorem errorsOf_possible {i : Instr} {e : Status} (h : e ∈ errorsOf i) :
    statusCode e ∈ possibleStatus i ∧ statusCode e ≠ 0 := by
  revert e
  cases i <;> simp [errorsOf, possibleStatus, statusCode]

/-- What a check that fails leaves: of a batch the elements before it may have been applied. -/
def AtCheck (i : Instr) (s t : State) : Prop := if isBatch i then Emitted s t else t = s

theorem atCheck_refl (i : Instr) (s : State) : AtCheck i s s := by
  unfold AtCheck
  split
  · exact .refl s
  · rfl

theorem AtCheck.emitted {i : Instr} {s t : State} (h : AtCheck i s t) : Emitted s t := by
  unfold AtCheck at h
  split at h
  · exact h
  · exact h ▸ .refl s

/-- Every command completes, or raises an error of its row: by a check, or for an event that FAILed. -/
theorem ends_stepsOf (i : Instr) : (stepsOf i).Ends (errorsOf i) (AtCheck i) := by
  have hR := atCheck_refl i
  cases i with
  | computePrescale f => exact ends_computePrescaleSteps hR f
  | computeTiming w => exact ends_computeTimingSteps hR w
  | initializeDevice => exact (ends_initializeSteps hR).noResult
  | setFrequency f => exact (ends_setFrequencySteps hR f).noResult
  | sleep => exact (ends_checkInit_andThen hR (onBus_sleepSeq true)).noResult
  | wakeup => exact (ends_checkInit_andThen hR (onBus_wakeSeq true)).noResult
  | deinitialize => exact (ends_checkInit_andThen hR onBus_deinitializeSteps).noResult
  | destroy => exact onBus_destroySteps.ends.noResult
  | setDutyCycle c w => exact (ends_setDutyCycleSteps hR c w).noResult
  | start c => exact (ends_startSteps hR c).noResult
  | stop c => exact (ends_stopSteps hR c).noResult
  | configureChannel c f w => exact (ends_configureChannelSteps hR c f w).noResult
  | startMultiple chs => exact (ends_batch (ends_startSteps Emitted.refl) (by decide) chs).noResult
  | stopMultiple chs => exact (ends_batch (ends_stopSteps Emitted.refl) (by decide) chs).noResult
  | setDutyCycleMultiple es =>
    exact (ends_batch (fun e => ends_setDutyCycleSteps Emitted.refl e.1 e.2) (by decide) es).noResult
  | setPhase c | configureFade c | startFade c | configureComplementary c | setDeadTime c | registerCallback c =>
    exact Cmd.IsCheck.ends isCheck_raise hR (List.mem_singleton_self _)

/-- The ways a command completes: its steps end and it answers Success, or they raise an error of its row, HardwareError
after an event that FAILed and any other by a check. -/
theorem exec_next_cases {i : Instr} {s t : State} (h : exec i s = .next t) :
    (∃ r u, stepsOf i (s.setPc (some 1)) = .done r u ∧ Emitted (s.setPc (some 1)) u ∧ t = u.respond .success r) ∨
    (∃ e u, stepsOf i (s.setPc (some 1)) = .raise e u ∧ e ∈ errorsOf i ∧
      (if e = .hardwareError then FailedLast (s.setPc (some 1)) u else AtCheck i (s.setPc (some 1)) u) ∧
      t = u.respond e none) := by
  have hs := ends_stepsOf i (s.setPc (some 1))
  rcases exec_cases i s with ⟨_, h'⟩ | ⟨_, r, u, hu, h'⟩ | ⟨_, e, u, hu, h'⟩ | ⟨_, u, _, h'⟩ <;> rw [h'] at h
  · cases h
  · cases h
    rw [hu] at hs
    exact .inl ⟨r, u, hu, hs, rfl⟩
  · cases h
    rw [hu] at hs
    obtain ⟨he, hend⟩ := hs
    exact .inr ⟨e, u, hu, he, hend, rfl⟩
  · cases h

/-! ## Check errors (R213) -/

theorem statusCode_eq_six_iff (e : Status) : statusCode e = 6 ↔ e = .hardwareError := by
  cases e <;> decide

/-- Settles O53: an error other than HardwareError is a check's, which is made in the state the command began in. -/
theorem checkErrorsHaveNoSideEffect : Obligations.CheckErrorsHaveNoSideEffect := by
  intro i s t h hb h0 h6
  rcases exec_next_cases h with ⟨r, u, _, _, rfl⟩ | ⟨e, u, _, _, hu, rfl⟩
  · exact absurd rfl h0
  · rw [if_neg fun he => h6 ((statusCode_eq_six_iff e).2 he), AtCheck, if_neg (by simp [hb])] at hu
    rw [hu]
    exact respond_noEvent s _ e

/-! ## STATUS and RESULT (R212, R97) -/

/-- The commands with a RESULT word (R97). -/
def YieldsResult (i : Instr) : Prop := (∃ f, i = .computePrescale f) ∨ ∃ w, i = .computeTiming w

/-- Steps that end by returning a value return that value. -/
theorem Cmd.andThen_pure_eq_done {c : Cmd α} {a b : β} {s t : State}
    (h : (c.andThen fun _ => Cmd.pure a) s = .done b t) : b = a := by
  rcases Cmd.andThen_cases c (fun _ => Cmd.pure a) s with ⟨_, _, _, h'⟩ | ⟨_, _, _, h'⟩ | ⟨_, _, h'⟩ <;>
    cases h'.symm.trans h
  rfl

/-- A command whose steps complete may succeed, and has a RESULT word exactly if it is one of the two. -/
theorem stepsOf_done {i : Instr} {s t : State} {r : Option Word} (h : stepsOf i s = .done r t) :
    0 ∈ possibleStatus i ∧ ((YieldsResult i ∧ ∃ w, r = some w) ∨ (¬ YieldsResult i ∧ r = none)) := by
  cases i with
  | computePrescale f => exact ⟨List.mem_cons_self, .inl ⟨.inl ⟨f, rfl⟩, _, Cmd.andThen_pure_eq_done h⟩⟩
  | computeTiming w => exact ⟨List.mem_cons_self, .inl ⟨.inr ⟨w, rfl⟩, _, Cmd.andThen_pure_eq_done h⟩⟩
  | setPhase | configureFade | startFade | configureComplementary | setDeadTime | registerCallback => cases h
  | initializeDevice | setFrequency | sleep | wakeup | deinitialize | destroy | setDutyCycle | start | stop
  | configureChannel | startMultiple | stopMultiple | setDutyCycleMultiple =>
    exact ⟨List.mem_cons_self, .inr ⟨by simp [YieldsResult], Cmd.andThen_pure_eq_done h⟩⟩

/-- RESULT is the same in both states. -/
def SameResult (s t : State) : Prop := t.result = s.result

theorem sameResult_busFrame : IsBusFrame SameResult where
  refl _ := rfl
  trans h k := k.trans h
  event _ _ _ := rfl
  stopped _ _ := rfl
  delay _ _ := rfl

/-- The steps of a command leave RESULT to its response. -/
theorem stepsOf_result (i : Instr) (s : State) : (stepsOf i s).state.result = s.result :=
  keeps_stepsOf (sameResult_busFrame.toCommandFrame (fun _ _ => rfl) (fun _ _ => rfl) (fun _ _ _ => rfl)
    (fun _ _ _ => rfl)) i s

theorem statusCode_le (e : Status) : (statusCode e).toNat ≤ 7 := by
  cases e <;> decide

/-- Settles O52: RESULT is written where the steps of one of the two commands complete, and nowhere else. -/
theorem statusIsOneOfTheCommandsOwn : Obligations.StatusIsOneOfTheCommandsOwn := by
  intro i s t h
  have hsame := stepsOf_result i (s.setPc (some 1))
  rcases exec_next_cases h with ⟨r, u, hu, _, rfl⟩ | ⟨e, u, hu, he, _, rfl⟩ <;> rw [hu] at hsame
  · obtain ⟨h0, ⟨hy, w, rfl⟩ | ⟨hn, rfl⟩⟩ := stepsOf_done hu
    · refine ⟨h0, statusCode_le _, ?_, fun hf hw => ?_⟩
      · rw [if_pos ⟨rfl, hy⟩]
        rfl
      · rcases hy with ⟨f, rfl⟩ | ⟨w, rfl⟩
        · exact absurd rfl (hf f)
        · exact absurd rfl (hw w)
    · refine ⟨h0, statusCode_le _, ?_, fun _ _ => hsame⟩
      rw [if_neg fun hc => hn hc.2]
      rfl
  · obtain ⟨hp, hne⟩ := errorsOf_possible he
    refine ⟨hp, statusCode_le e, ?_, fun _ _ => hsame⟩
    rw [if_neg fun hc => hne hc.1]
    rfl

/-! ## The events of a command without a transport (R60) -/

/-- Without a transport `c` raises HardwareError at once. -/
def Cmd.NeedsTransport (c : Cmd α) : Prop :=
  ∀ s, s.cfg.transportPresent = false → c s = .raise .hardwareError s

theorem Cmd.NeedsTransport.andThen {c : Cmd α} (hc : c.NeedsTransport) (f : α → Cmd β) :
    (c.andThen f).NeedsTransport := fun s hs => Cmd.andThen_raise (hc s hs)

theorem needsTransport_transact (e : Event) : (transact e).NeedsTransport := fun _ => transact_noTransport e

theorem needsTransport_memWrite (reg v : Byte) : (memWrite reg v).NeedsTransport := fun s =>
  (needsTransport_transact _).andThen _ s

theorem needsTransport_modifyMode (reg set clear : Byte) : (modifyMode reg set clear).NeedsTransport :=
  Cmd.NeedsTransport.andThen (fun s => needsTransport_transact _ s) _

theorem needsTransport_sleepSeq (track : Bool) : (sleepSeq track).NeedsTransport := fun s =>
  (needsTransport_modifyMode _ _ _).andThen _ s

theorem needsTransport_wakeSeq (track : Bool) : (wakeSeq track).NeedsTransport := fun s =>
  (needsTransport_modifyMode _ _ _).andThen _ s

theorem needsTransport_driverSeq : driverSeq.NeedsTransport := fun s => by
  unfold driverSeq
  cases s.params.outputDriverMode <;> exact needsTransport_modifyMode _ _ _ s

/-- There is no transport, and the trace is the same in both states, if there is none in the first. -/
def Silent (s t : State) : Prop :=
  s.cfg.transportPresent = false → t.cfg.transportPresent = false ∧ t.trace = s.trace

theorem Silent.of_same {s t : State} (hc : t.cfg.transportPresent = s.cfg.transportPresent)
    (ht : t.trace = s.trace) : Silent s t := fun hs => ⟨hc.trans hs, ht⟩

theorem Cmd.NeedsTransport.silent {c : Cmd α} (hc : c.NeedsTransport) : c.Keeps Silent := fun s hs => by
  rw [hc s hs]
  exact ⟨hs, rfl⟩

theorem silent_commandFrame : IsCommandFrame Silent where
  refl _ := .of_same rfl rfl
  trans h k hs := by
    obtain ⟨ht, htrace⟩ := h hs
    obtain ⟨hu, htrace'⟩ := k ht
    exact ⟨hu, htrace'.trans htrace⟩
  transportInit := ((needsTransport_transact _).andThen _).silent
  reset := ((needsTransport_transact _).andThen _).silent
  transportDeinit := ((needsTransport_transact _).andThen _).silent
  sleep := (needsTransport_sleepSeq true).silent
  wake track := (needsTransport_wakeSeq track).silent
  frequency track _ := ((needsTransport_sleepSeq track).andThen _).silent
  driver := needsTransport_driverSeq.silent
  timing _ _ := ((needsTransport_memWrite _ _).andThen _).silent
  setDsm _ _ := .of_same rfl rfl
  setFrequency _ _ _ := .of_same rfl rfl
  setChannel _ _ _ := .of_same rfl rfl
  setInitialized _ _ := .of_same rfl rfl

/-! ## The events of a command (R214) -/

theorem Emitted.events {s t : State} (h : Emitted s t) : ∃ es, t.trace = s.trace ++ es ∧ ∀ e ∈ es, succeeded e := by
  obtain ⟨es, _, hes⟩ := h.completed
  exact ⟨es, hes.trace, hes.events⟩

/-- The events behind an answer other than HardwareError all completed. -/
theorem Emitted.respond_events {s u : State} {e : Status} (h : Emitted s u) (he : e ≠ .hardwareError)
    (r : Option Word) : ∃ es, (u.respond e r).trace = s.trace ++ es ∧ (∀ e ∈ es.dropLast, succeeded e) ∧
      ((u.respond e r).status = 6 → ∃ e, es.getLast? = some e ∧ e.reply = .failed) ∧
      ((u.respond e r).status ≠ 6 → ∀ e ∈ es, succeeded e) := by
  obtain ⟨es, hes, hall⟩ := h.events
  exact ⟨es, hes, fun e he => hall e (List.mem_of_mem_dropLast he),
    fun h6 => absurd ((statusCode_eq_six_iff e).1 h6) he, fun _ => hall⟩

/-- Behind HardwareError the event that FAILed is the last. -/
theorem FailedLast.respond_events {s u : State} (h : FailedLast s u) (ht : s.cfg.transportPresent = true)
    (r : Option Word) : ∃ es, (u.respond .hardwareError r).trace = s.trace ++ es ∧ (∀ e ∈ es.dropLast, succeeded e) ∧
      ∃ e, es.getLast? = some e ∧ e.reply = .failed := by
  obtain ⟨v, e, hv, hlast⟩ := h ht
  obtain ⟨es, hes, hall⟩ := hv.events
  refine ⟨es ++ [⟨e, .failed⟩], ?_, by simpa using hall, _, List.getLast?_concat, rfl⟩
  rw [State.respond_trace, hlast, hes, List.append_assoc]

/-- Settles O54: the events that completed, and the one that FAILed behind them; without a transport, the frame. -/
theorem onlyTheLastEventFails : Obligations.OnlyTheLastEventFails := by
  refine ⟨fun i s t ht h => ?_, fun i s t ht h => ?_⟩
  · rcases exec_next_cases h with ⟨r, u, _, hu, rfl⟩ | ⟨e, u, _, _, hu, rfl⟩
    · exact hu.respond_events (by decide) r
    · by_cases he : e = .hardwareError
      · subst he
        obtain ⟨es, hes, hinit, hlast⟩ := FailedLast.respond_events hu ht none
        exact ⟨es, hes, hinit, fun _ => hlast, fun h6 => absurd rfl h6⟩
      · rw [if_neg he] at hu
        exact hu.emitted.respond_events he none
  · exact (exec_keeps silent_commandFrame (fun _ _ => .of_same rfl rfl) (fun _ _ _ => .of_same rfl rfl) h ht).2

end Sys2Proof.Machine
end

section
/-! PROOFS of the statements of 70_reset_and_hazards.md (sections 3 and 4). What a step adds to the trace is said once:
runs of the bus sequences, each complete or cut at a transaction that stopped (`step_emits`). What every trace keeps is
then a matter of the six sequences (`step_keeps_trace`). The corner values of the timing mapper follow from its values
at the ends of their ranges, because the magnitude grows with the pattern (`magnitude_mono`). -/

namespace Sys2Proof.Machine

/-! ## The ends of the duty range (R251, R137, R132) -/

theorem magnitude_le_of_expField_lt {w : Word} {e : Nat} (h : expField w < e) : magnitude w ≤ 2 ^ 23 * 2 ^ e := by
  rw [magnitude]
  by_cases h0 : expField w = 0
  · rw [significand, if_pos h0, fracField_eq]
    exact Nat.mul_le_mul (Nat.mod_lt _ (by decide)).le (Nat.pow_le_pow_right (by decide) (by omega))
  · calc significand w * 2 ^ max (expField w) 1 ≤ 2 ^ 24 * 2 ^ (e - 1) :=
          Nat.mul_le_mul (significand_lt w).le (Nat.pow_le_pow_right (by decide) (by omega))
      _ = 2 ^ 23 * 2 ^ e := by
          rw [← Nat.pow_add, ← Nat.pow_add]
          congr 1
          omega

theorem le_magnitude_of_normal {w : Word} (h : expField w ≠ 0) : 2 ^ 23 * 2 ^ expField w ≤ magnitude w := by
  rw [magnitude, significand, if_neg h]
  exact Nat.mul_le_mul (Nat.le_add_right _ _) (Nat.pow_le_pow_right (by decide) (Nat.le_max_left _ _))

/-- Of two positive patterns the larger has the larger magnitude. -/
theorem magnitude_mono {v w : Word} (hle : v.toNat ≤ w.toNat) (hw : w.toNat < 2 ^ 31) :
    magnitude v ≤ magnitude w := by
  have hexp : expField v ≤ expField w := by
    rw [expField_eq, expField_eq]
    omega
  rcases Nat.lt_or_eq_of_le hexp with hlt | heq
  · exact (magnitude_le_of_expField_lt hlt).trans (le_magnitude_of_normal (by omega))
  · have hfrac : fracField v ≤ fracField w := by
      rw [expField_eq, expField_eq] at heq
      rw [fracField_eq, fracField_eq]
      omega
    rw [magnitude, magnitude, significand, significand, heq]
    refine Nat.mul_le_mul_right _ ?_
    split
    · exact hfrac
    · exact Nat.add_le_add_left hfrac _

theorem dutyProduct_exact_mono {v w : Word} (hle : v.toNat ≤ w.toNat) (hw : w.toNat < 2 ^ 31) :
    dutyProduct .exact v ≤ dutyProduct .exact w := Nat.mul_le_mul_right _ (magnitude_mono hle hw)

theorem magnitude_lt_of_toNat {w : Word} (h : w.toNat < 0x3F800000) : magnitude w < unitScale :=
  (magnitude_mono (w := 0x3F7FFFFF) (Nat.le_of_lt_succ h) (by decide)).trans_lt (by decide)

/-- The patterns between those of 0 and 1 are the duties of the third case. -/
theorem computeTiming_of_toNat {w : Word} (arith : DutyProductArith) (hlo : 1 ≤ w.toNat)
    (hhi : w.toNat < 0x3F800000) : computeTiming arith w = ⟨0, BitVec.ofNat 16 (dutyCount arith w)⟩ := by
  have hsign : signBit w = false := by
    rw [← Bool.not_eq_true, signBit_iff]
    omega
  have hpos : 0 < magnitude w := lt_of_lt_of_le (by decide) (magnitude_mono (v := 1) hlo (by omega))
  have hone := magnitude_lt_of_toNat hhi
  exact computeTiming_between arith (by simp [isZeroOrBelow, hsign, hpos.ne']) (by simp [isOneOrAbove, hone])

/-- Rounding to binary32 takes no duty below a halfway point that its exact product reaches. -/
theorem lt_dutyCount {w : Word} {n : Nat} (arith : DutyProductArith) (h1 : magnitude w < unitScale)
    (hn : halfway n ≤ dutyProduct .exact w) : n < dutyCount arith w := by
  refine (lt_roundHalfAway_iff n _).2 ?_
  cases arith with
  | exact => exact hn
  | binary32 =>
    refine le_roundToBinary32 (unit_dvd_halfway ?_ n) hn
    rw [Nat.mul_comm counterMax]
    exact Nat.mul_lt_mul_of_pos_right h1 (by decide)

/-- Just below 1 the product is past the last halfway point, in either arithmetic. -/
theorem computeTiming_below_one {w : Word} (arith : DutyProductArith) (hlo : 0x3F7FF800 ≤ w.toNat)
    (hhi : w.toNat ≤ 0x3F7FFFFF) : computeTiming arith w = ⟨0, 4095⟩ := by
  have h1 := magnitude_lt_of_toNat (Nat.lt_succ_of_le hhi)
  have hlast : halfway 4094 ≤ dutyProduct .exact 0x3F7FF800 := by decide
  have habove := lt_dutyCount arith h1 (hlast.trans (dutyProduct_exact_mono hlo (by omega)))
  have hcount : dutyCount arith w = 4095 := Nat.le_antisymm (dutyCount_le arith h1) habove
  rw [computeTiming_of_toNat arith (by omega) (by omega), hcount]
  rfl

/-- The smallest duties do not reach the first halfway point. -/
theorem computeTiming_smallest {w : Word} (hlo : 1 ≤ w.toNat) (hhi : w.toNat ≤ 0x39000800) :
    computeTiming .exact w = ⟨0, 0⟩ := by
  have hfirst : dutyProduct .exact 0x39000800 < halfway 0 := by decide
  have hbelow : dutyProduct .exact w < halfway 0 :=
    (dutyProduct_exact_mono (w := 0x39000800) hhi (by decide)).trans_lt hfirst
  have hcount : dutyCount .exact w = 0 := dutyCount_eq_of_halfway (Nat.le_add_left_of_le (by decide)) hbelow
  rw [computeTiming_of_toNat .exact hlo (by omega), hcount]
  rfl

/-- Settles O18: the two ranges by the products at their ends, the single patterns by evaluation. -/
theorem timingAtTheEndsOfTheRange : Obligations.TimingAtTheEndsOfTheRange :=
  ⟨fun arith _ => computeTiming_below_one arith, by decide, by decide,
    fun arith => ⟨computeTiming_stop arith (by decide), computeTiming_full arith (by decide) (by decide)⟩,
    fun _ => computeTiming_smallest, by decide⟩

/-! ## What a step adds to the trace -/

/-- The events of the bus sequences, every transaction answered OK, with the number of transactions in each. In every
one of them the transactions come first. -/
inductive SequenceEvents (p : Params) (dev : Byte) : List Entry → Nat → Prop
  | call (e : Event) (h : e = .TI ∨ e = .TD ∨ e = .GC) : SequenceEvents p dev [⟨e, .done⟩] 1
  | sleep (t : Byte) : SequenceEvents p dev (sleepEvents dev p.sleepMask t) 2
  | wake (t : Byte) : SequenceEvents p dev (wakeEvents dev p.sleepMask t) 2
  | prescale (q t t' : Byte) (h : 3 ≤ q.toNat) : SequenceEvents p dev (prescaleEvents dev p.sleepMask q t t') 5
  | driver (t : Byte) : SequenceEvents p dev (driverEvents dev p.outdrvMask p.outputDriverMode t) 2
  | timing (n : Fin 16) (on off : Nat) : SequenceEvents p dev (channelEvents dev n on off) 4

/-- A run of a bus sequence: all its events, or those up to a transaction that stopped it. -/
def SequenceRun (p : Params) (dev : Byte) (es : List Entry) : Prop :=
  ∃ full n, SequenceEvents p dev full n ∧ (es = full ∨ ∃ j < n, ∃ x : Stop, es = cutWith x.reply full j)

/-- Parameters and address are as they were, and the trace has grown by runs of the bus sequences. -/
structure Emits (s t : State) : Prop where
  params : t.params = s.params
  address : t.cfg.i2cAddress = s.cfg.i2cAddress
  runs : ∃ rs : List (List Entry), (∀ r ∈ rs, SequenceRun s.params s.cfg.i2cAddress r) ∧ t.trace = s.trace ++ rs.flatten

theorem Emits.of_same {s t : State} (hp : t.params = s.params) (ha : t.cfg.i2cAddress = s.cfg.i2cAddress)
    (ht : t.trace = s.trace) : Emits s t := ⟨hp, ha, [], nofun, by simp [ht]⟩

theorem emits_frame : IsFrame Emits where
  refl _ := .of_same rfl rfl rfl
  trans := by
    rintro s t u ⟨hp, ha, rs, hrs, ht⟩ ⟨hp', ha', rs', hrs', hu⟩
    have htrace : u.trace = s.trace ++ (rs ++ rs').flatten := by
      rw [hu, ht, List.flatten_append, List.append_assoc]
    refine ⟨hp'.trans hp, ha'.trans ha, rs ++ rs', fun r hr => ?_, htrace⟩
    rcases List.mem_append.1 hr with hr | hr
    · exact hrs r hr
    · exact hp ▸ ha ▸ hrs' r hr

/-- A sequence that needs the transport, and whose events where it completes and where it stops are those of `full`. -/
theorem emits_of_sequence {c : Cmd Unit} {full : State → List Entry} {n : Nat} (hsame : c.Keeps SameConstruction)
    (hseq : ∀ s, SequenceEvents s.params s.cfg.i2cAddress (full s) n) (hnone : c.NeedsTransport)
    (hok : ∀ s, s.cfg.transportPresent = true → okFor s n → (c s).state.trace = s.trace ++ full s)
    (hstop : ∀ s x j, j < n → s.cfg.transportPresent = true → stopsAfter x s j →
      (c s).state.trace = s.trace ++ cutWith x.reply (full s) j) : c.Keeps Emits := fun s => by
  obtain ⟨hp, ha, -, -⟩ := hsame s
  have one {es : List Entry} (hr : SequenceRun s.params s.cfg.i2cAddress es) (ht : (c s).state.trace = s.trace ++ es) :
      Emits s (c s).state := ⟨hp, ha, [es], by simpa using hr, by simpa using ht⟩
  cases ht : s.cfg.transportPresent with
  | false =>
    rw [hnone s ht]
    exact emits_frame.refl s
  | true =>
    rcases okFor_or_stopsAfter s n with h | ⟨j, hj, x, h⟩
    · exact one ⟨_, n, hseq s, .inl rfl⟩ (hok s ht h)
    · exact one ⟨_, n, hseq s, .inr ⟨j, hj, x, rfl⟩⟩ (hstop s x j hj ht h)

@[simp] theorem Stop.state_flow {α : Type} (x : Stop) (s : State) : (x.flow s : Flow α).state = s := by
  cases x <;> rfl

@[simp] theorem State.noted_trace (s : State) (track : Bool) (d : DsmState) : (s.noted track d).trace = s.trace := by
  cases track <;> rfl

@[simp] theorem State.cut_trace (s : State) (x : Stop) (es : List Entry) (i j : Nat) :
    (s.cut x es i j).trace = s.trace ++ cutWith x.reply es i := rfl

/-- A transport call whose result is thrown away. -/
theorem emits_call {e : Event} (he : e = .TI ∨ e = .TD ∨ e = .GC) :
    ((transact e).andThen fun _ => Cmd.pure ()).Keeps Emits := by
  have hdone (b : Byte) : okReply e b = .done := by rcases he with rfl | rfl | rfl <;> rfl
  refine emits_of_sequence (n := 1) (fun s => ?_) (fun _ => .call e he) ((needsTransport_transact e).andThen _)
    (fun s ht h => ?_) (fun s x j hj ht h => ?_)
  · rw [Cmd.state_andThen_pure]
    exact keeps_transact sameConstruction_busFrame e s
  · rw [Cmd.andThen_done (transact_ok e ht (upcoming_eq_ok (h 0 (by omega)))), hdone]
    rfl
  · obtain rfl : j = 0 := by omega
    rw [Cmd.andThen_stop (transact_stop e .done ht h.2)]
    simp

theorem emits_sleepSeq : (sleepSeq true).Keeps Emits :=
  emits_of_sequence sameConstruction_commandFrame.sleep (fun s => .sleep (byteAt s 0)) (needsTransport_sleepSeq true)
    (fun s ht h => by rw [sleepSeq_ok true ht h]; simp)
    (fun s x j hj ht h => by rw [sleepSeq_stop true hj ht h]; simp)

theorem emits_wakeSeq (track : Bool) : (wakeSeq track).Keeps Emits :=
  emits_of_sequence (sameConstruction_commandFrame.wake track) (fun s => .wake (byteAt s 0))
    (needsTransport_wakeSeq track)
    (fun s ht h => by rw [wakeSeq_ok track ht h]; simp)
    (fun s x j hj ht h => by rw [wakeSeq_stop track hj ht h]; simp)

theorem three_le_computePrescale (f : Nat) : 3 ≤ (computePrescale f).toNat := by
  have := computePrescale_toNat f
  omega

theorem emits_prescaleSeq (track : Bool) (f : Nat) : (prescaleSeq track (computePrescale f)).Keeps Emits :=
  emits_of_sequence (sameConstruction_commandFrame.frequency track f)
    (fun s => .prescale _ (byteAt s 0) (byteAt s 3) (three_le_computePrescale f))
    ((needsTransport_sleepSeq track).andThen _)
    (fun s ht h => by rw [prescaleSeq_ok track _ ht h]; simp)
    (fun s x j hj ht h => by rw [prescaleSeq_stop track _ hj ht h]; simp)

theorem emits_driverSeq : driverSeq.Keeps Emits :=
  emits_of_sequence sameConstruction_commandFrame.driver (fun s => .driver (byteAt s 0)) needsTransport_driverSeq
    (fun s ht h => by rw [driverSeq_ok ht h]; simp)
    (fun s x j hj ht h => by rw [driverSeq_stop hj ht h]; simp)

theorem emits_writeChannelTiming (n : Fin 16) (t : Timing) : (writeChannelTiming n t).Keeps Emits :=
  emits_of_sequence (sameConstruction_commandFrame.timing n t) (fun _ => .timing n _ _)
    ((needsTransport_memWrite _ _).andThen _)
    (fun s ht h => by rw [writeChannelTiming_ok n t ht h]; rfl)
    (fun s x j hj ht h => by rw [writeChannelTiming_stop n t hj ht h]; simp [timingEvents])

theorem emits_commandFrame : IsCommandFrame Emits where
  toIsFrame := emits_frame
  transportInit := emits_call (.inl rfl)
  reset := emits_call (.inr (.inr rfl))
  transportDeinit := emits_call (.inr (.inl rfl))
  sleep := emits_sleepSeq
  wake := emits_wakeSeq
  frequency := emits_prescaleSeq
  driver := emits_driverSeq
  timing := emits_writeChannelTiming
  setDsm _ _ := .of_same rfl rfl rfl
  setFrequency _ _ _ := .of_same rfl rfl rfl
  setChannel _ _ _ := .of_same rfl rfl rfl
  setInitialized _ _ := .of_same rfl rfl rfl

theorem step_emits {s t : State} (h : step s = .next t) : Emits s t :=
  step_keeps emits_commandFrame (fun _ _ => .of_same rfl rfl rfl) (fun _ _ _ => .of_same rfl rfl rfl)
    (fun _ _ => .of_same rfl rfl rfl) h

/-- A property of traces that every run of a sequence keeps. -/
theorem step_keeps_trace {Q : Params → List Entry → Prop}
    (hQ : ∀ p dev tr es, Q p tr → SequenceRun p dev es → Q p (tr ++ es)) {s t : State} (h : step s = .next t)
    (hs : Q s.params s.trace) : Q t.params t.trace := by
  obtain ⟨hp, -, rs, hrs, ht⟩ := step_emits h
  rw [hp, ht]
  generalize s.trace = tr at hs
  clear ht
  induction rs generalizing tr with
  | nil => simpa using hs
  | cons r rs ih =>
    rw [List.flatten_cons, ← List.append_assoc]
    exact ih (fun r' h' => hrs r' (List.mem_cons_of_mem _ h')) _ (hQ _ _ _ _ hs (hrs r List.mem_cons_self))

/-! ## Entries that speak of the one before (R244, R245) -/

/-- Every entry of a list has `P`, given the entry before it; `before` is the one before the first. -/
def everyEntryAfter (P : Option Entry → Entry → Prop) (before : Option Entry) : List Entry → Prop
  | [] => True
  | e :: es => P before e ∧ everyEntryAfter P (some e) es

theorem everyEntry_concat {P : Option Entry → Entry → Prop} {tr : List Entry} {e : Entry} (h : everyEntry P tr)
    (he : P tr.getLast? e) : everyEntry P (tr ++ [e]) := by
  intro k e' hk
  rcases Nat.lt_trichotomy k tr.length with hlt | rfl | hgt
  · rw [List.getElem?_append_left hlt] at hk
    have := h k e' hk
    rwa [List.getElem?_append_left (by omega)]
  · obtain rfl : e = e' := by simpa using hk
    cases tr with
    | nil => exact he
    | cons a tr =>
      rw [List.getLast?_eq_getElem?] at he
      rwa [if_neg (by simp), List.getElem?_append_left (by simp)]
  · rw [List.getElem?_eq_none (by simp; omega)] at hk
    cases hk

theorem everyEntry_append {P : Option Entry → Entry → Prop} {tr es : List Entry} (h : everyEntry P tr)
    (hes : everyEntryAfter P tr.getLast? es) : everyEntry P (tr ++ es) := by
  induction es generalizing tr with
  | nil => simpa using h
  | cons e es ih =>
    obtain ⟨he, hes⟩ := hes
    rw [List.append_cons]
    exact ih (everyEntry_concat h he) (by simpa using hes)

/-- Cutting a list changes the reply of its last entry at most. -/
theorem everyEntryAfter_cutWith {P : Option Entry → Entry → Prop} (hP : ∀ b e r, P b e → P b ⟨e.event, r⟩) {r : Reply}
    {b : Option Entry} {es : List Entry} (h : everyEntryAfter P b es) (j : Nat) :
    everyEntryAfter P b (cutWith r es j) := by
  induction es generalizing b j with
  | nil => simp [cutWith, everyEntryAfter]
  | cons e es ih =>
    obtain ⟨he, hes⟩ := h
    cases j with
    | zero => exact ⟨hP _ _ _ he, trivial⟩
    | succ j => exact ⟨he, ih hes j⟩

/-- A property of the entries whatever their reply, given the entry before, that the six sequences have. -/
theorem step_keeps_everyEntry {P : Params → Option Entry → Entry → Prop}
    (hreply : ∀ p b e r, P p b e → P p b ⟨e.event, r⟩)
    (hseq : ∀ p dev es n b, SequenceEvents p dev es n → everyEntryAfter (P p) b es) {s t : State}
    (hs : everyEntry (P s.params) s.trace) (h : step s = .next t) : everyEntry (P t.params) t.trace := by
  refine step_keeps_trace (Q := fun p tr => everyEntry (P p) tr) (fun p dev tr es htr hrun => ?_) h hs
  obtain ⟨full, n, hfull, rfl | ⟨j, _, x, rfl⟩⟩ := hrun
  · exact everyEntry_append htr (hseq p dev _ n _ hfull)
  · exact everyEntry_append htr (everyEntryAfter_cutWith (hreply p) (hseq p dev _ n _ hfull) j)

/-! ## Entries and bytes of the sequences -/

/-- An entry that writes none of MODE1, MODE2 and PRE_SCALE. -/
def Plain (e : Entry) : Prop := ∀ dev reg v, e.event = .WR dev reg v → reg ≠ 0x00 ∧ reg ≠ 0x01 ∧ reg ≠ 0xFE

theorem plain_call {e : Event} (h : e = .TI ∨ e = .TD ∨ e = .GC) (r : Reply) : Plain ⟨e, r⟩ := by
  rcases h with rfl | rfl | rfl <;> exact nofun

theorem plain_rd (dev reg b : Byte) : Plain (rd dev reg b) := nofun

theorem plain_settle : Plain settle := nofun

/-- LEDn's registers lie at 0x06 to 0x45 (R53). -/
theorem plain_led {k : Nat} (dev v : Byte) (hlo : 0x06 ≤ k) (hhi : k ≤ 0x45) : Plain (wr dev (BitVec.ofNat 8 k) v) := by
  intro _ reg _ h
  cases h
  exact ⟨by bv_omega, by bv_omega, by bv_omega⟩

theorem plain_channelEvents (dev : Byte) (n : Fin 16) (on off : Nat) : ∀ e ∈ channelEvents dev n on off, Plain e := by
  simp only [channelEvents, List.forall_mem_cons]
  exact ⟨plain_led _ _ (by omega) (by omega), plain_led _ _ (by omega) (by omega), plain_led _ _ (by omega) (by omega),
    plain_led _ _ (by omega) (by omega), List.forall_mem_nil _⟩

theorem everyEntryAfter_of_plain {P : Option Entry → Entry → Prop} (hP : ∀ b e, Plain e → P b e) {es : List Entry}
    (h : ∀ e ∈ es, Plain e) (b : Option Entry) : everyEntryAfter P b es := by
  induction es generalizing b with
  | nil => trivial
  | cons e es ih =>
    rw [List.forall_mem_cons] at h
    exact ⟨hP b e h.1, ih h.2 _⟩

theorem set_and_mask (t m : Byte) : (t ||| m) &&& m = m := by
  ext i
  simpa using Or.inr

theorem set_and_other (t m : Byte) : (t ||| m) &&& ~~~m = t &&& ~~~m := by
  ext i
  simp [Bool.and_or_distrib_right]

theorem clear_and_other (t m : Byte) : (t &&& ~~~m) &&& ~~~m = t &&& ~~~m := by
  rw [BitVec.and_assoc, BitVec.and_self]

/-! ## PRE_SCALE (R244, R57) -/

theorem prescaleGuarded_of_plain (mask : Byte) (b : Option Entry) {e : Entry} (h : Plain e) :
    prescaleGuarded mask b e := fun dev v he => absurd rfl (h dev _ v he).2.2

/-- A mode register write is no write of PRE_SCALE. -/
theorem prescaleGuarded_mode (mask : Byte) (b : Option Entry) {dev reg v : Byte} (h : reg ≠ 0xFE) :
    prescaleGuarded mask b (wr dev reg v) := by
  intro _ _ he
  cases he
  exact absurd rfl h

theorem prescaleGuarded_sequence {p : Params} {dev : Byte} {es : List Entry} {n : Nat} (b : Option Entry)
    (h : SequenceEvents p dev es n) : everyEntryAfter (prescaleGuarded p.sleepMask) b es := by
  have plain (b : Option Entry) {e : Entry} (h : Plain e) := prescaleGuarded_of_plain p.sleepMask b h
  cases h with
  | call e h => exact ⟨plain b (plain_call h _), trivial⟩
  | sleep t => exact ⟨plain b (plain_rd _ _ _), prescaleGuarded_mode _ _ (by decide), trivial⟩
  | wake t => exact ⟨plain b (plain_rd _ _ _), prescaleGuarded_mode _ _ (by decide), plain _ plain_settle, trivial⟩
  | prescale q t t' hq =>
    have guarded : prescaleGuarded p.sleepMask (some (wr dev 0x00 (t ||| p.sleepMask))) (wr dev 0xFE q) := by
      rintro _ _ ⟨⟩
      exact ⟨hq, _, rfl, set_and_mask t _⟩
    exact ⟨plain b (plain_rd _ _ _), prescaleGuarded_mode _ _ (by decide), guarded, plain _ (plain_rd _ _ _),
      prescaleGuarded_mode _ _ (by decide), plain _ plain_settle, trivial⟩
  | driver t => exact ⟨plain b (plain_rd _ _ _), prescaleGuarded_mode _ _ (by decide), trivial⟩
  | timing n on off => exact everyEntryAfter_of_plain (fun b _ => plain b) (plain_channelEvents dev n on off) b

/-- Settles O57: of the sequences only `PrescaleSeq` writes PRE_SCALE, after the write that set SLEEP. -/
theorem prescaleIsWrittenOnlyAsleep : Obligations.PrescaleIsWrittenOnlyAsleep := fun _ _ hs h =>
  step_keeps_everyEntry (P := fun p => prescaleGuarded p.sleepMask) (fun _ _ _ _ he => he)
    (fun _ _ _ _ b => prescaleGuarded_sequence b) hs h

/-! ## The mode registers (R151, R245) -/

theorem modeWritePreserves_of_plain (p : Params) (b : Option Entry) {e : Entry} (h : Plain e) :
    modeWritePreserves p b e := fun dev v =>
  ⟨fun he => absurd rfl (h dev _ v he).1, fun he => absurd rfl (h dev _ v he).2.1⟩

theorem modeWritePreserves_prescale (p : Params) (b : Option Entry) (dev v : Byte) :
    modeWritePreserves p b (wr dev 0xFE v) := fun _ _ => ⟨nofun, nofun⟩

/-- MODE1 written right after its read, every bit but SLEEP as read. -/
theorem modeWritePreserves_mode1 {p : Params} {dev t v : Byte} (h : v &&& ~~~p.sleepMask = t &&& ~~~p.sleepMask) :
    modeWritePreserves p (some (rd dev 0x00 t)) (wr dev 0x00 v) := fun _ _ =>
  ⟨fun he => by cases he; exact ⟨t, rfl, h⟩, nofun⟩

/-- MODE2 written right after its read, every bit but OUTDRV as read. -/
theorem modeWritePreserves_mode2 {p : Params} {dev t v : Byte} (h : v &&& ~~~p.outdrvMask = t &&& ~~~p.outdrvMask) :
    modeWritePreserves p (some (rd dev 0x01 t)) (wr dev 0x01 v) := fun _ _ =>
  ⟨nofun, fun he => by cases he; exact ⟨t, rfl, h⟩⟩

theorem modeWritePreserves_sequence {p : Params} {dev : Byte} {es : List Entry} {n : Nat} (b : Option Entry)
    (h : SequenceEvents p dev es n) : everyEntryAfter (modeWritePreserves p) b es := by
  have plain (b : Option Entry) {e : Entry} (h : Plain e) := modeWritePreserves_of_plain p b h
  have setBit (t : Byte) := modeWritePreserves_mode1 (dev := dev) (set_and_other t p.sleepMask)
  have clearBit (t : Byte) := modeWritePreserves_mode1 (dev := dev) (clear_and_other t p.sleepMask)
  cases h with
  | call e h => exact ⟨plain b (plain_call h _), trivial⟩
  | sleep t => exact ⟨plain b (plain_rd _ _ _), setBit t, trivial⟩
  | wake t => exact ⟨plain b (plain_rd _ _ _), clearBit t, plain _ plain_settle, trivial⟩
  | prescale q t t' _ =>
    exact ⟨plain b (plain_rd _ _ _), setBit t, modeWritePreserves_prescale p _ dev q, plain _ (plain_rd _ _ _),
      clearBit t', plain _ plain_settle, trivial⟩
  | driver t =>
    refine ⟨plain b (plain_rd _ _ _), modeWritePreserves_mode2 ?_, trivial⟩
    cases p.outputDriverMode with
    | totemPole => exact set_and_other t _
    | openDrain => exact clear_and_other t _
  | timing n on off => exact everyEntryAfter_of_plain (fun b _ => plain b) (plain_channelEvents dev n on off) b

/-- Settles O59: in the sequences a mode register is written only by `ModifyMode`, right after its read. -/
theorem modeWritesKeepTheOtherBits : Obligations.ModeWritesKeepTheOtherBits := fun _ _ hs h =>
  step_keeps_everyEntry (P := modeWritePreserves) (fun _ _ _ _ he => he)
    (fun _ _ _ _ b => modeWritePreserves_sequence b) hs h

/-! ## Wakes and their delay (R243) -/

theorem wakesSettle_append {mask : Byte} {tr es : List Entry} (htr : wakesSettle mask tr) (hes : wakesSettle mask es) :
    wakesSettle mask (tr ++ es) := by
  intro k dev u hk hu
  rcases Nat.lt_or_ge k tr.length with hlt | hge
  · rw [List.getElem?_append_left hlt] at hk
    have hnext := htr k dev u hk hu
    rwa [List.getElem?_append_left (List.getElem?_eq_some_iff.1 hnext).1]
  · rw [List.getElem?_append_right hge] at hk
    rw [List.getElem?_append_right (by omega), Nat.sub_add_comm hge]
    exact hes _ dev u hk hu

theorem getElem?_cutWith (r : Reply) (es : List Entry) (j k : Nat) : (cutWith r es j)[k]? =
    if k < j then es[k]? else if k = j then es[j]?.map fun e => ⟨e.event, r⟩ else none := by
  induction es generalizing j k with
  | nil => simp [cutWith]
  | cons e es ih =>
    cases j with
    | zero => cases k <;> simp [cutWith]
    | succ j =>
      cases k with
      | zero => simp [cutWith]
      | succ k => simpa [cutWith] using ih j k

/-- The event that stopped is no wake that succeeded, and if it is no delay it is not the one a wake before it needs. -/
theorem wakesSettle_cutWith {mask : Byte} {es : List Entry} {r : Reply} {j : Nat} (h : wakesSettle mask es)
    (hr : r ≠ .done) (hj : es[j]? ≠ some settle) : wakesSettle mask (cutWith r es j) := by
  intro k dev u hk hu
  rw [getElem?_cutWith] at hk
  split at hk
  · next hlt =>
    have hnext := h k dev u hk hu
    have hne : k + 1 ≠ j := by rintro rfl; exact hj hnext
    rw [getElem?_cutWith, if_pos (by omega), hnext]
  · split at hk
    · obtain ⟨e, -, he⟩ := Option.map_eq_some_iff.1 hk
      exact absurd (congrArg Entry.reply he) hr
    · cases hk

theorem wakesSettle_of_forall {mask : Byte} {es : List Entry} (h : ∀ dev u, wr dev 0x00 u ∈ es → u &&& mask ≠ 0) :
    wakesSettle mask es := fun _ dev u hk hu => absurd hu (h dev u (List.mem_of_getElem? hk))

theorem sleepMask_ne_zero (p : Params) : p.sleepMask ≠ 0 := by
  have h : ∀ i : Fin 8, BitVec.ofNat 8 (2 ^ i.val) ≠ 0 := by decide
  exact h p.mode1SleepBit

/-- In every sequence the transactions come first. -/
theorem settle_not_mem_take {p : Params} {dev : Byte} {es : List Entry} {n : Nat} (h : SequenceEvents p dev es n) :
    settle ∉ es.take n := by
  cases h with
  | call e h => rcases h with rfl | rfl | rfl <;> decide
  | sleep t => simp [sleepEvents, rd, wr, settle]
  | wake t => simp [wakeEvents, rd, wr, settle]
  | prescale q t t' _ => simp [prescaleEvents, sleepEvents, wakeEvents, rd, wr, settle]
  | driver t => simp [driverEvents, rd, wr, settle]
  | timing n on off => simp [channelEvents, wr, settle]

theorem wakesSettle_sleepEvents (p : Params) (dev t : Byte) :
    wakesSettle p.sleepMask (sleepEvents dev p.sleepMask t) := wakesSettle_of_forall fun d u hu => by
  have hbyte : d = dev ∧ u = t ||| p.sleepMask := by simpa [sleepEvents, rd, wr] using hu
  rw [hbyte.2, set_and_mask]
  exact sleepMask_ne_zero p

theorem wakesSettle_wakeEvents (mask m dev t : Byte) : wakesSettle mask (wakeEvents dev m t) := by
  intro k d u hk _
  match k, hk with
  | 1, _ => rfl
  | 2, hk => cases hk
  | k + 3, hk => cases hk

theorem wakesSettle_sequence {p : Params} {dev : Byte} {es : List Entry} {n : Nat} (h : SequenceEvents p dev es n) :
    wakesSettle p.sleepMask es := by
  cases h with
  | call e h =>
    refine wakesSettle_of_forall fun d u hu => ?_
    rcases h with rfl | rfl | rfl <;> simp [wr] at hu
  | sleep t => exact wakesSettle_sleepEvents p dev t
  | wake t => exact wakesSettle_wakeEvents _ _ dev t
  | prescale q t t' _ =>
    have hq : wakesSettle p.sleepMask [wr dev 0xFE q] := wakesSettle_of_forall fun d u hu => by simp [wr] at hu
    exact wakesSettle_append (wakesSettle_sleepEvents p dev t)
      (wakesSettle_append hq (wakesSettle_wakeEvents _ _ dev t'))
  | driver t => exact wakesSettle_of_forall fun d u hu => by simp [driverEvents, rd, wr] at hu
  | timing n on off =>
    exact wakesSettle_of_forall fun d u hu => absurd rfl (plain_channelEvents dev n on off _ hu d _ u rfl).1

theorem Stop.reply_ne_done (x : Stop) : x.reply ≠ .done := by cases x <;> decide

/-- Settles O58: in the sequences a wake that succeeded is followed by its delay, which is no transaction and so never
the event that stopped. -/
theorem everyWakeSettles : Obligations.EveryWakeSettles := fun _ _ hs h => by
  refine step_keeps_trace (Q := fun p => wakesSettle p.sleepMask) (fun p dev tr es htr hrun => ?_) h hs
  obtain ⟨full, n, hfull, rfl | ⟨j, hj, x, rfl⟩⟩ := hrun
  · exact wakesSettle_append htr (wakesSettle_sequence hfull)
  · refine wakesSettle_append htr (wakesSettle_cutWith (wakesSettle_sequence hfull) x.reply_ne_done fun hset => ?_)
    exact settle_not_mem_take hfull (List.mem_of_getElem? ((List.getElem?_take_of_lt hj).trans hset))

end Sys2Proof.Machine
end
